-- ==== Sys2Proof/Word.lean ====
section
/-! DEFINITION. The words of the engine: the widths of spec/00_scope.md R8 and the pairs built of them. -/

namespace Sys2Proof

/-- One byte of a buffer. -/
abbrev Byte := BitVec 8

/-- The storage form of a 16-bit register field, a residual and a vector component (R8). -/
abbrev Half := BitVec 16

/-- The width of every register and of a command word (R8, R77). -/
abbrev Word := BitVec 32

/-- A binary64 value as its 64-bit interchange pattern (R9, R55). -/
abbrev F64 := BitVec 64

/-- A window offset: the window has 16 MiB (R53). -/
abbrev Offset := BitVec 24

/-- A complex value (R14). -/
structure Cplx where
  re : F64
  im : F64
deriving DecidableEq, Repr

/-- A motion vector: two signed 16-bit components (R8, R59). -/
structure Vec where
  dx : Half
  dy : Half
deriving DecidableEq, Repr

/-- A matrix, written row by row: row y, column x. -/
abbrev Grid (α : Type) := List (List α)

/-- Element (row y, column x) of a matrix, `z` outside it. -/
def gridAt {α : Type} (m : Grid α) (z : α) (y x : Nat) : α :=
  (m.getD y []).getD x z

end Sys2Proof
end

