-- ==== Sys2Proof/Config.lean ====
section
/-! DEFINITION. What an implementation fixes (the parameters of spec/00_scope.md R8) and the free values: the
constants without a body stand for what the spec leaves open, and nothing can be proved of their values. -/

namespace Sys2Proof.Config

/-- WMAX: the largest frame width, and the row stride of every 2-D buffer in elements (R8). -/
def wmax : Nat := 512

/-- HMAX: the largest frame height (R8). -/
def hmax : Nat := 512

/-- NMAX: the number of complex entries of VBUF and the largest FFT length (R8). -/
def nmax : Nat := 1024

/-- DBMAX: the largest DCT block size; WMAT is DBMAX by DBMAX (R8). -/
def dbmax : Nat := 32

/-- MBMAX: the largest motion block size (R8). -/
def mbmax : Nat := 64

/-- TMAX: the largest tile width or height (R8). -/
def tmax : Nat := 512

/-- Where the platform places the window, in units of 16 MiB: OPEN, a model argument (R8, U6; log 13). -/
opaque baseUnit : Nat

/-- BASE, "aligned to 16 MiB" (R8, R53; log 13). -/
def base : Nat := baseUnit * 2 ^ 24

/-- The duration of a command: "any finite duration" (R185, U5). It may depend on the word and, through the number
of the draw, on everything that went before. Counted in turns of the host (log 2, DESIGN CHOICE). -/
opaque latency (word : Word) (draw : Nat) : Nat

/-- The byte at a window offset of a buffer as power-on leaves it: "each element is an arbitrary value of its format, which a
model takes as an argument" (R52, R175), "drawn once at power-on" (U1). One free value for each offset (log 3). -/
opaque powerOnByte (offset : Nat) : Byte

/-- A byte of unspecified contents: "any value per element" (R140, R141, R177, U2, U3). A fresh value for each
draw and offset (logs 4 and 5). -/
opaque unspecByte (draw : Nat) (offset : Nat) : Byte

/-- The four binary64 operations of R12. -/
inductive FloatOp where
  | add | sub | mul | div
deriving DecidableEq, Repr

/-- The sign and the 51 payload bits of the quiet NaN that an operation delivers: IEEE 754-2008, which R9 cites for
"the handling of NaN", fixes neither. A function of the operation and its operands (log 6). -/
opaque nanBits (op : FloatOp) (a b : F64) : BitVec 52

end Sys2Proof.Config
end

