-- ==== Sys2Proof/Syntax.lean ====
section
/-! DEFINITION. The command set: one constructor for each row of spec/opcode_table.json (spec/30_encoding.md R78),
and the three fields of a command word (R77). -/

namespace Sys2Proof

/-- The 23 commands of R78, in the table's order. "There are no register fields and no immediates" (R77): no
constructor has an operand; FT distinguishes two rows each of QUANT and DEQUANT (R79). -/
inductive Instr where
  | nop
  | fft | ifft | dct1d | idct1d | dct2d | idct2d | bdct2d | ibdct2d
  | meblk | memap
  | quantI | quantP | dequantI | dequantP
  | dpcmencC | dpcmdecC | dpcmencV | dpcmdecV
  | encfrm | decfrm | rstenc | rstdec
deriving DecidableEq, Repr

/-- The fields of a command word (R77): OP in bits 7:0, FT in bit 8, RSV in bits 31:9. -/
structure CmdFields where
  op  : BitVec 8
  ft  : BitVec 1
  rsv : BitVec 23
deriving DecidableEq, Repr

/-- The field values of a command: the columns OP and FT of R78, RSV = 0. -/
def Instr.fields : Instr → CmdFields
  | .nop      => ⟨0x00#8, 0#1, 0#23⟩
  | .fft      => ⟨0x01#8, 0#1, 0#23⟩
  | .ifft     => ⟨0x02#8, 0#1, 0#23⟩
  | .dct1d    => ⟨0x03#8, 0#1, 0#23⟩
  | .idct1d   => ⟨0x04#8, 0#1, 0#23⟩
  | .dct2d    => ⟨0x05#8, 0#1, 0#23⟩
  | .idct2d   => ⟨0x06#8, 0#1, 0#23⟩
  | .bdct2d   => ⟨0x07#8, 0#1, 0#23⟩
  | .ibdct2d  => ⟨0x08#8, 0#1, 0#23⟩
  | .meblk    => ⟨0x10#8, 0#1, 0#23⟩
  | .memap    => ⟨0x11#8, 0#1, 0#23⟩
  | .quantI   => ⟨0x20#8, 0#1, 0#23⟩
  | .quantP   => ⟨0x20#8, 1#1, 0#23⟩
  | .dequantI => ⟨0x21#8, 0#1, 0#23⟩
  | .dequantP => ⟨0x21#8, 1#1, 0#23⟩
  | .dpcmencC => ⟨0x30#8, 0#1, 0#23⟩
  | .dpcmdecC => ⟨0x31#8, 0#1, 0#23⟩
  | .dpcmencV => ⟨0x32#8, 0#1, 0#23⟩
  | .dpcmdecV => ⟨0x33#8, 0#1, 0#23⟩
  | .encfrm   => ⟨0x40#8, 0#1, 0#23⟩
  | .decfrm   => ⟨0x41#8, 0#1, 0#23⟩
  | .rstenc   => ⟨0x42#8, 0#1, 0#23⟩
  | .rstdec   => ⟨0x43#8, 0#1, 0#23⟩

end Sys2Proof
end

