-- ==== Sys2Proof/WellFormed.lean ====
section
/-! DEFINITION. Which command words are commands, as checks on the three fields (spec/30_encoding.md R77, R79, R80). -/

namespace Sys2Proof

/-- The operation codes R78 lists. -/
def CmdFields.listedOps : List (BitVec 8) :=
  [0x00#8, 0x01#8, 0x02#8, 0x03#8, 0x04#8, 0x05#8, 0x06#8, 0x07#8, 0x08#8, 0x10#8, 0x11#8, 0x20#8, 0x21#8,
   0x30#8, 0x31#8, 0x32#8, 0x33#8, 0x40#8, 0x41#8, 0x42#8, 0x43#8]

/-- "RSV: reserved, must be 0" (R77). -/
def CmdFields.rsvClear (f : CmdFields) : Bool := f.rsv == 0#23

/-- "FT ... must be 0 for every other opcode" than QUANT and DEQUANT (R77, R79). -/
def CmdFields.ftAllowed (f : CmdFields) : Bool := f.ft == 0#1 || f.op == 0x20#8 || f.op == 0x21#8

/-- The OP value is one of the list (R80). -/
def CmdFields.opListed (f : CmdFields) : Bool := CmdFields.listedOps.contains f.op

/-- The three checks of a command word. -/
def CmdFields.wellFormed (f : CmdFields) : Bool := f.rsvClear && f.ftAllowed && f.opListed

/-- A command is well formed when its fields are. Commands have no operands, so each is. -/
def Instr.wellFormed (i : Instr) : Bool := i.fields.wellFormed

end Sys2Proof
end

