-- ==== Sys2Proof/Decode.lean ====
section
/-! DEFINITION. The decoder of spec/30_encoding.md R82, total on all 2^32 words, and the encoder of R77 and R78. -/

namespace Sys2Proof

/-- Why a word is illegal (R80). Every reason ends a command with IllegalCommand. -/
inductive Illegal where
  /-- a nonzero bit in bits 31:9 -/
  | reservedBits
  /-- FT = 1 with an OP other than 0x20 or 0x21 -/
  | frameTypeBit
  /-- an OP value not listed in R78 -/
  | unlistedOp
deriving DecidableEq, Repr

/-- The fields of a word (R77). -/
def splitWord (w : Word) : CmdFields :=
  ⟨w.extractLsb' 0 8, w.extractLsb' 8 1, w.extractLsb' 9 23⟩

/-- The word of three fields (R77). -/
def joinWord (f : CmdFields) : Word := f.rsv ++ f.ft ++ f.op

/-- The commands whose FT is 0, by their OP (R78). -/
def plainOp (op : BitVec 8) : Except Illegal Instr :=
  match op.toNat with
  | 0x00 => .ok .nop
  | 0x01 => .ok .fft
  | 0x02 => .ok .ifft
  | 0x03 => .ok .dct1d
  | 0x04 => .ok .idct1d
  | 0x05 => .ok .dct2d
  | 0x06 => .ok .idct2d
  | 0x07 => .ok .bdct2d
  | 0x08 => .ok .ibdct2d
  | 0x10 => .ok .meblk
  | 0x11 => .ok .memap
  | 0x30 => .ok .dpcmencC
  | 0x31 => .ok .dpcmdecC
  | 0x32 => .ok .dpcmencV
  | 0x33 => .ok .dpcmdecV
  | 0x40 => .ok .encfrm
  | 0x41 => .ok .decfrm
  | 0x42 => .ok .rstenc
  | 0x43 => .ok .rstdec
  | _    => .error .unlistedOp

/-- `decode(w)` of R82, in its order. -/
def decode (w : Word) : Except Illegal Instr :=
  let f := splitWord w
  if f.rsv ≠ 0#23 then .error .reservedBits
  else if f.op = 0x20#8 then .ok (if f.ft = 1#1 then .quantP else .quantI)
  else if f.op = 0x21#8 then .ok (if f.ft = 1#1 then .dequantP else .dequantI)
  else if f.ft = 1#1 then .error .frameTypeBit
  else plainOp f.op

/-- The command word of an instruction (the column `word` of R78). -/
def encode (i : Instr) : Word := joinWord i.fields

/-- The instruction the decoder reads from the bits `w` of a table row of `nbits` bits (a command is one word). -/
def decodeTableWord (nbits w : Nat) : Option Instr :=
  (decode (BitVec.ofNat 32 (w % 2 ^ nbits))).toOption

end Sys2Proof
end

