-- ==== Sys2Proof/Machine/State.lean ====
section
/-! DEFINITION. The state of the engine and of the host beside it, as plain data, and the machine after power-on reset
(spec/10_state.md). INVENTORY.md lists every field with its rule. -/

namespace Sys2Proof.Machine

/-- Why the machine stops. -/
inductive Fault where
  /-- A host access at this offset while STATUS.BUSY = 1 that R181 does not permit: "the run stops with a hazard outcome
  and no later state is defined" (R181, U4). Raised by the host's access only. Safe: the spec asks for it. -/
  | hazard (off : Offset)
deriving DecidableEq, Repr

/-- Why an instruction has no meaning. -/
inductive Refusal where
  /-- An instruction not modelled yet, by its mnemonic. Raised by `exec` alone, for no instruction of this model.
  Safe. -/
  | notModelled (mnemonic : String)
deriving DecidableEq, Repr

/-- The error kinds of R153. -/
inductive ErrKind where
  | invalidSize | invalidBlockSize | sequenceError | malformedInput | invalidConfig | illegalCommand
deriving DecidableEq, Repr

/-- The two frame types (R18, R36). -/
inductive FrameType where
  | intra | predicted
deriving DecidableEq, Repr

/-- The memories of the window (R54): the weight matrix and the seven buffers (R40 to R47). -/
inductive Buf where
  | wmat | vbuf | fin | recE | recD | res | coef | mv
deriving DecidableEq, Repr

/-- All of them. -/
def Buf.all : List Buf := [.wmat, .vbuf, .fin, .recE, .recD, .res, .coef, .mv]

/-- The stored bytes of one memory, each at its window offset, in the canonical form `Cells.wf`. -/
abbrev Cells := List Host.Cell

/-- The memories of the window, each a list of its own. A weight is the cell at its word's offset (R61). -/
structure Memory where
  wmat : Cells
  vbuf : Cells
  fin  : Cells
  recE : Cells
  recD : Cells
  res  : Cells
  coef : Cells
  mv   : Cells
deriving DecidableEq, Repr

/-- What the host does in a turn (R86, R87): an access of `size` bytes at a window offset, WAIT, or nothing.
Of `value` the low `size` bytes are written. -/
inductive HostOp where
  | read (off : Offset) (size : Nat)
  | write (off : Offset) (size : Nat) (value : BitVec 64)
  | wait
  | idle
deriving DecidableEq, Repr

/-- What the bus answered to the host's last access (log 8). -/
inductive BusResp where
  /-- no access yet -/
  | nothing
  /-- a write was performed -/
  | ack
  /-- a read returned this, zero-extended -/
  | data (value : BitVec 64)
  /-- the error response of R64 -/
  | busError
deriving DecidableEq, Repr

/-- The whole state. -/
structure State where
  /-- CTRL.IE_DONE (R23) -/
  ieDone : Bool
  /-- CTRL.IE_ERR (R23) -/
  ieErr : Bool
  /-- CTRL.METRIC: false is SAD, true is SSD (R23) -/
  metric : Bool
  /-- STATUS.BUSY (R24) -/
  busy : Bool
  /-- STATUS.DONE (R24) -/
  done : Bool
  /-- STATUS.ERR (R24) -/
  err : Bool
  /-- STATUS.OVR (R24) -/
  ovr : Bool
  /-- STATUS.STEADY_E (R24, R48) -/
  steadyE : Bool
  /-- STATUS.STEADY_D (R24, R48) -/
  steadyD : Bool
  /-- STATUS.ERRCODE (R24, R153) -/
  errcode : BitVec 4
  /-- CMD: the last accepted word (R25) -/
  cmd : Word
  /-- FRAME_W[15:0] (R26) -/
  frameW : Half
  /-- FRAME_H[15:0] (R26) -/
  frameH : Half
  /-- MB_SIZE[15:0] (R27) -/
  mbSize : Half
  /-- DB_SIZE[15:0] (R28) -/
  dbSize : Half
  /-- QSCALE[15:0] (R29) -/
  qscale : Half
  /-- SEARCH_R[15:0] (R30) -/
  searchR : Half
  /-- VLEN[15:0] (R31) -/
  vlen : Half
  /-- TILE_W[15:0] (R32) -/
  tileW : Half
  /-- TILE_H[15:0] (R32) -/
  tileH : Half
  /-- ME_BX[15:0] (R33) -/
  meBx : Half
  /-- ME_BY[15:0] (R33) -/
  meBy : Half
  /-- ME_VEC (R34) -/
  meVec : Word
  /-- ME_COST (R35) -/
  meCost : Word
  /-- ENC_FTYPE[1:0] (R36) -/
  encFtype : BitVec 2
  /-- DEC_FTYPE[1:0] (R37) -/
  decFtype : BitVec 2
  /-- ENC_FCNT (R38) -/
  encFcnt : Word
  /-- DEC_FCNT (R38) -/
  decFcnt : Word
  /-- WMAT and the buffers (R40 to R47) -/
  mem : Memory
  /-- METRIC as sampled when the running command was accepted (R23, R88; log 12) -/
  runMetric : Bool
  /-- the turns the host still has before the running command takes effect (R185; log 2) -/
  wait : Nat
  /-- the number of free values drawn so far: the model's own (log 11) -/
  draw : Nat
  /-- the accesses the host will still make, in order: the model's own (log 1) -/
  host : List HostOp
  /-- the answer to the host's last access: the model's own (log 8) -/
  resp : BusResp
deriving DecidableEq, Repr

/-- The memories at power-on: WMAT reads 16 in every entry (R40, R52); of a buffer no byte is written yet, and each reads as its
free power-on value (R52, R175; log 3). -/
def Memory.reset : Memory :=
  { wmat := [], vbuf := [], fin := [], recE := [], recD := [], res := [], coef := [], mv := [] }

/-- The machine right after power-on reset (R52, R175). -/
def State.reset : State :=
  { ieDone := false, ieErr := false, metric := false
    busy := false, done := false, err := false, ovr := false, steadyE := false, steadyD := false
    errcode := 0#4
    cmd := 0#32
    frameW := 0#16, frameH := 0#16, mbSize := 8#16, dbSize := 8#16, qscale := 4#16, searchR := 16#16
    vlen := 0#16, tileW := 8#16, tileH := 8#16, meBx := 0#16, meBy := 0#16
    meVec := 0#32, meCost := 0#32, encFtype := 0#2, decFtype := 0#2, encFcnt := 0#32, decFcnt := 0#32
    mem := Memory.reset
    runMetric := false, wait := 0, draw := 0, host := [], resp := .nothing }

end Sys2Proof.Machine
end

