-- ==== Sys2Proof/Machine/Flags.lean ====
section
/-! DEFINITION. The flags: the STATUS and CTRL words, the interrupt line, and the host's acknowledgement
(spec/10_state.md R23, R24; spec/60_exceptions.md R153, R163, R165, R166). -/

namespace Sys2Proof.Machine

/-- The codes of R153. -/
def ErrKind.code : ErrKind → BitVec 4
  | .invalidSize      => 1#4
  | .invalidBlockSize => 2#4
  | .sequenceError    => 3#4
  | .malformedInput   => 4#4
  | .invalidConfig    => 5#4
  | .illegalCommand   => 6#4

/-- The level of the interrupt output: "(STATUS.DONE and CTRL.IE_DONE) or ((STATUS.ERR or STATUS.OVR) and CTRL.IE_ERR)"
(R166). -/
def State.irq (s : State) : Bool := (s.done && s.ieDone) || ((s.err || s.ovr) && s.ieErr)

/-- The STATUS word (R24): bits 31:12 and 7 are reserved and read 0. -/
def State.statusWord (s : State) : Word :=
  0#20 ++ s.errcode ++ 0#1 ++ BitVec.ofBool s.irq ++ BitVec.ofBool s.steadyD ++ BitVec.ofBool s.steadyE ++
    BitVec.ofBool s.ovr ++ BitVec.ofBool s.err ++ BitVec.ofBool s.done ++ BitVec.ofBool s.busy

/-- The CTRL word (R23): SRST and bits 31:4 read 0. -/
def State.ctrlWord (s : State) : Word :=
  0#28 ++ BitVec.ofBool s.metric ++ BitVec.ofBool s.ieErr ++ BitVec.ofBool s.ieDone ++ 0#1

/-- A write of STATUS: "Writing 1 to DONE, ERR or OVR clears that bit; writing 0 leaves it; writes to the RO fields are
ignored" (R24, R165). ERRCODE stays (R163). -/
def State.ackStatus (s : State) (v : Word) : State :=
  { s with
    done := s.done && !v.getLsbD 1
    err := s.err && !v.getLsbD 2
    ovr := s.ovr && !v.getLsbD 3 }

/-- A write of CTRL with SRST = 0 (R23). -/
def State.setCtrl (s : State) (v : Word) : State :=
  { s with ieDone := v.getLsbD 1, ieErr := v.getLsbD 2, metric := v.getLsbD 3 }

end Sys2Proof.Machine
end

