-- ==== Sys2Proof/Machine/Float.lean ====
section
/-! DEFINITION. Binary64 arithmetic (spec/00_scope.md R9, R12, R13): exact arithmetic on integers, one rounding to
nearest, ties to even, for each operation. A finite value is an integer multiple of 2^-1074, its *units*. -/

namespace Sys2Proof.Machine

open Sys2Proof.Config (FloatOp)

/-- The sign bit. -/
def signBit (a : F64) : Bool := a.msb

/-- The pattern without its sign bit: exponent and fraction. -/
def magBits (a : F64) : Nat := a.toNat % 2 ^ 63

/-- The magnitude pattern of an infinity. -/
def infBits : Nat := 0x7FF0000000000000

def isNaN (a : F64) : Bool := infBits < magBits a

def isInf (a : F64) : Bool := magBits a = infBits

def isFinite (a : F64) : Bool := magBits a < infBits

def isZero (a : F64) : Bool := magBits a = 0

/-- 2^1074: the number of units in 1. -/
def oneUnits : Nat := 2 ^ 1074

/-- The magnitude of a finite value, in units of 2^-1074; subnormals and normals alike. -/
def units (a : F64) : Nat :=
  let e := magBits a / 2 ^ 52
  let f := magBits a % 2 ^ 52
  if e = 0 then f else (2 ^ 52 + f) * 2 ^ (e - 1)

/-- A finite value, in units of 2^-1074. Both zeros give 0. -/
def value (a : F64) : Int := if signBit a then -(units a : Int) else (units a : Int)

/-- The pattern with this sign and this magnitude pattern. -/
def packBits (neg : Bool) (mag : Nat) : F64 :=
  BitVec.ofNat 64 (mag + if neg then 2 ^ 63 else 0)

def posZero : F64 := packBits false 0

def negZero : F64 := packBits true 0

/-- The binary64 value nearest to (n/d) units with the given sign, ties to even, overflow to infinity (R9,
roundTiesToEven). `q` has 53 significant bits, or fewer in the subnormal range, and one unit in its last place is
2^t units. -/
def roundRatio (neg : Bool) (n d : Nat) : F64 :=
  let t := Nat.log2 (n / d) - 52
  let u := d * 2 ^ t
  let q := n / u
  let r := n % u
  let q' := if u < 2 * r ∨ (2 * r = u ∧ q % 2 = 1) then q + 1 else q
  let mag := t * 2 ^ 52 + q'
  packBits neg (if mag < infBits then mag else infBits)

/-- f64(i): the binary64 value of an integer, exact below 2^53 (R11). -/
def f64 (k : Int) : F64 := roundRatio (decide (k < 0)) (k.natAbs * oneUnits) 1

def one : F64 := 0x3FF0000000000000#64

/-- A quiet NaN of free sign and payload (log 6). The operands of the commutative operations are put in order first:
the products and sums of R89 and R127 are "commutative bit for bit". -/
def freeNaN (op : FloatOp) (a b : F64) : F64 :=
  let swap := (op = .add ∨ op = .mul) ∧ b.toNat < a.toNat
  let bits := if swap then Config.nanBits op b a else Config.nanBits op a b
  (bits.extractLsb' 51 1) ++ 0x7FF#11 ++ 1#1 ++ (bits.extractLsb' 0 51)

/-- The NaN an operation delivers. Two cases are stated: a NaN minus +0.0 is "unchanged bit for bit ... including NaN"
(R130), and a NaN times 1.0 is "unchanged" (R98, the scale by 2^0). Every other is free (log 6). -/
def nanResult (op : FloatOp) (a b : F64) : F64 :=
  if op = .sub ∧ b = posZero then a
  else if op = .mul ∧ b = one then a
  else if op = .mul ∧ a = one then b
  else freeNaN op a b

/-- `-a`: "sign-bit flip; exact, including for zeros and NaN" (R12). -/
def fneg (a : F64) : F64 := a ^^^ 0x8000000000000000#64

/-- `a + b` (R12). A zero sum is +0.0 unless both operands are negative. -/
def fadd (a b : F64) : F64 :=
  if isNaN a || isNaN b then nanResult .add a b
  else if isInf a then (if isInf b && signBit a != signBit b then nanResult .add a b else a)
  else if isInf b then b
  else
    let v := value a + value b
    if v = 0 then (if signBit a && signBit b then negZero else posZero)
    else roundRatio (decide (v < 0)) v.natAbs 1

/-- `a - b` (R12). -/
def fsub (a b : F64) : F64 :=
  if isNaN a || isNaN b then nanResult .sub a b
  else if isInf a && isInf b && signBit a == signBit b then nanResult .sub a b
  else fadd a (fneg b)

/-- `a * b` (R12). -/
def fmul (a b : F64) : F64 :=
  let neg := signBit a != signBit b
  if isNaN a || isNaN b then nanResult .mul a b
  else if (isInf a && isZero b) || (isZero a && isInf b) then nanResult .mul a b
  else if isInf a || isInf b then packBits neg infBits
  else roundRatio neg (units a * units b) oneUnits

/-- `a / b` (R12). -/
def fdiv (a b : F64) : F64 :=
  let neg := signBit a != signBit b
  if isNaN a || isNaN b then nanResult .div a b
  else if (isInf a && isInf b) || (isZero a && isZero b) then nanResult .div a b
  else if isInf a || isZero b then packBits neg infBits
  else if isInf b then packBits neg 0
  else roundRatio neg (units a * oneUnits) (units b)

/-- The place of a value that is no NaN in the order of the reals with the infinities. -/
def orderKey (a : F64) : Int := if signBit a then -(magBits a : Int) else (magBits a : Int)

/-- `a < b`: "the IEEE 754 ordered comparison (false if either is NaN)" (R12). -/
def flt (a b : F64) : Bool := !isNaN a && !isNaN b && decide (orderKey a < orderKey b)

/-- The integer at or below a finite value. -/
def ffloor (a : F64) : Int := value a / (oneUnits : Int)

/-- `round(v)`: nearest integer, ties toward +Infinity, computed exactly; a zero result is +0.0 (R13). -/
def fround (v : F64) : F64 :=
  if isNaN v || isInf v then v
  else
    let f := ffloor v
    let d := value v - f * (oneUnits : Int)
    f64 (if (oneUnits : Int) ≤ 2 * d then f + 1 else f)

/-- `sign(v)` (R13). -/
def fsign (v : F64) : F64 :=
  if flt posZero v then one else if flt v posZero then fneg one else posZero

/-- `clamp(v, lo, hi)` (R13). -/
def fclamp (v lo hi : F64) : F64 :=
  if isNaN v then lo else if flt v lo then lo else if flt hi v then hi else v

/-- The constant 2^-m of R14, m ≤ 1022. -/
def twoToMinus (m : Nat) : F64 := packBits false ((1023 - m) * 2 ^ 52)

/-- `cadd` (R14). -/
def cadd (x y : Cplx) : Cplx := ⟨fadd x.re y.re, fadd x.im y.im⟩

/-- `csub` (R14). -/
def csub (x y : Cplx) : Cplx := ⟨fsub x.re y.re, fsub x.im y.im⟩

/-- `cmul`: "four products, each rounded, then one rounded add/sub each" (R14). -/
def cmul (x y : Cplx) : Cplx :=
  ⟨fsub (fmul x.re y.re) (fmul x.im y.im), fadd (fmul x.re y.im) (fmul x.im y.re)⟩

/-- `conj` (R14). -/
def conj (x : Cplx) : Cplx := ⟨x.re, fneg x.im⟩

/-- `cscale(x, m)`: both parts times 2^-m (R14). -/
def cscale (x : Cplx) (m : Nat) : Cplx := ⟨fmul x.re (twoToMinus m), fmul x.im (twoToMinus m)⟩

/-- `cplx(a)` (R14). -/
def cplx (a : F64) : Cplx := ⟨a, posZero⟩

/-- The zero a list of complex values is padded with; never used on a list of the right length. -/
def czero : Cplx := ⟨posZero, posZero⟩

end Sys2Proof.Machine
end

