-- ==== Sys2Proof/Machine/Fourier.lean ====
section
/-! DEFINITION. The transform functions of spec/40_transform.md R89 to R96, on lists and matrices. -/

namespace Sys2Proof.Machine

/-- The even-indexed samples (R89). -/
def evens {α : Type} : List α → List α
  | [] => []
  | [a] => [a]
  | a :: _ :: as => a :: evens as

/-- The odd-indexed samples (R89). -/
def odds {α : Type} : List α → List α
  | [] => []
  | [_] => []
  | _ :: b :: as => b :: odds as

/-- The products `t = cmul(TW(N, k), O[k])` of one combining stage, from index k on (R89). -/
def twiddled (N : Nat) : Nat → List Cplx → List Cplx
  | _, [] => []
  | k, o :: os => cmul (twiddle N k) o :: twiddled N (k + 1) os

/-- `fft` of N = 2^m entries: recursive radix-2 decimation in time (R89). -/
def fft : Nat → List Cplx → List Cplx
  | 0, xs => xs
  | m + 1, xs =>
    let e := fft m (evens xs)
    let t := twiddled (2 ^ (m + 1)) 0 (fft m (odds xs))
    List.zipWith cadd e t ++ List.zipWith csub e t

/-- The m index bits of k reversed (R90). -/
def bitrev : Nat → Nat → Nat
  | 0, _ => 0
  | m + 1, k => (k % 2) * 2 ^ m + bitrev m (k / 2)

/-- One stage of span M of the iterative pipeline, on every butterfly at once (R90): index i = g + k of a group g. -/
def fftStage (M : Nat) (a : List Cplx) : List Cplx :=
  (List.range a.length).map fun i =>
    let k := i % M
    if k < M / 2 then cadd (a.getD i czero) (cmul (twiddle M k) (a.getD (i + M / 2) czero))
    else csub (a.getD (i - M / 2) czero) (cmul (twiddle M (k - M / 2)) (a.getD i czero))

/-- The stages of span 2, 4, ..., 2^m in order. -/
def fftStages : Nat → List Cplx → List Cplx
  | 0, a => a
  | m + 1, a => fftStage (2 ^ (m + 1)) (fftStages m a)

/-- The iterative radix-2 pipeline R90 allows: load in bit-reversed order, then the m stages. No command uses it; that it
equals `fft` is an obligation. -/
def fftIter (m : Nat) (xs : List Cplx) : List Cplx :=
  fftStages m ((List.range (2 ^ m)).map fun k => xs.getD (bitrev m k) czero)

/-- `ifft`: conjugate, transform, conjugate and scale by 2^-m (R91). -/
def ifft (m : Nat) (xs : List Cplx) : List Cplx :=
  (fft m (xs.map conj)).map fun y => cscale (conj y) m

/-- The real parts of the outputs times ROT(n, k), from index k on (R92). -/
def rotated (n : Nat) : Nat → List Cplx → List F64
  | _, [] => []
  | k, y :: ys => (cmul y (rotFwd n k)).re :: rotated n (k + 1) ys

/-- `dct1d` of n = 2^m values: the first n outputs of the FFT of the symmetric extension, rotated (R92). -/
def dct1d (u : List F64) : List F64 :=
  let n := u.length
  let y := u.reverse.map cplx ++ u.map cplx
  rotated n 0 ((fft (Nat.log2 n + 1) y).take n)

/-- The entries `Z[k] = cmul(cplx(X[k]), ROTC(n, k))`, from index k on (R93). -/
def unrotated (n : Nat) : Nat → List F64 → List Cplx
  | _, [] => []
  | k, x :: xs => cmul (cplx x) (rotInv n k) :: unrotated n (k + 1) xs

/-- The conjugate-symmetric spectrum of length 2n (R93): element 0 real, element n zero, elements 1 to n-1 rotated,
elements n+1 to 2n-1 their conjugates mirrored. -/
def spectrum : List F64 → List Cplx
  | [] => []
  | x :: xs =>
    let z := unrotated (xs.length + 1) 1 xs
    cplx x :: z ++ czero :: (z.map conj).reverse

/-- `idct1d` of n = 2^m values: the real parts of the last n samples of the inverse FFT (R93). -/
def idct1d (x : List F64) : List F64 :=
  let n := x.length
  ((ifft (Nat.log2 n + 1) (spectrum x)).drop n).map fun c => c.re

/-- The columns of a matrix of `w` columns, as rows. -/
def columns (w : Nat) (m : Grid F64) : Grid F64 :=
  (List.range w).map fun x => m.map fun r => r.getD x posZero

/-- `t2d(M, f)` of a matrix of h rows and w columns: every row, then every column (R95). -/
def t2d (f : List F64 → List F64) (h w : Nat) (m : Grid F64) : Grid F64 :=
  columns h ((columns w (m.map f)).map f)

/-- `dct2d` (R95). -/
def dct2d (h w : Nat) (m : Grid F64) : Grid F64 := t2d dct1d h w m

/-- `idct2d` (R95). -/
def idct2d (h w : Nat) (m : Grid F64) : Grid F64 := t2d idct1d h w m

/-- The tile of th rows and tw columns whose first element is (y0, x0). -/
def tile (m : Grid F64) (y0 x0 th tw : Nat) : Grid F64 :=
  ((m.drop y0).take th).map fun r => (r.drop x0).take tw

/-- `blk(M, tw, th, g)`: apply g to every tile, write the results back in place (R96). -/
def blk (g : Grid F64 → Grid F64) (h w th tw : Nat) (m : Grid F64) : Grid F64 :=
  let tiles := (List.range (h / th)).map fun ty => (List.range (w / tw)).map fun tx => g (tile m (ty * th) (tx * tw) th tw)
  (List.range h).map fun y => (List.range w).map fun x =>
    gridAt (gridAt tiles [] (y / th) (x / tw)) posZero (y % th) (x % tw)

/-- `bdct(M, tw, th)` (R96). -/
def bdct (h w th tw : Nat) (m : Grid F64) : Grid F64 := blk (dct2d th tw) h w th tw m

/-- `ibdct(M, tw, th)` (R96). -/
def ibdct (h w th tw : Nat) (m : Grid F64) : Grid F64 := blk (idct2d th tw) h w th tw m

end Sys2Proof.Machine
end

