-- ==== Sys2Proof/Machine/Levels.lean ====
section
/-! DEFINITION. The quantizer functions of spec/42_quantizer.md R114 to R120. -/

namespace Sys2Proof.Machine

/-- The constants 16.0, 2.0 and 255.0 of R115 to R120. -/
def sixteen : F64 := f64 16

def two : F64 := f64 2

def maxPixel : F64 := f64 255

/-- `qI(c, w)` (R115). -/
def levelIntra (s : Nat) (c w : F64) : F64 := fround (fdiv (fdiv (fmul c sixteen) w) (f64 (2 * s)))

/-- `qP(c, w)`, with the dead-zone of R116. -/
def levelPred (s : Nat) (c w : F64) : F64 :=
  fround (fdiv (fsub (fdiv (fmul c sixteen) w) (fmul (fsign c) (f64 s))) (f64 (2 * s)))

/-- The forward level of a frame type (R117). -/
def level (ft : FrameType) (s : Nat) (c w : F64) : F64 :=
  match ft with
  | .intra => levelIntra s c w
  | .predicted => levelPred s c w

/-- `dI(q, w)` (R118). -/
def unlevelIntra (s : Nat) (q w : F64) : F64 := fdiv (fmul (fmul (fmul q two) (f64 s)) w) sixteen

/-- `dP(q, w)`: the dead-zone sign is that of the level itself (R119). -/
def unlevelPred (s : Nat) (q w : F64) : F64 :=
  fdiv (fmul (fadd (fmul (fmul q two) (f64 s)) (fmul (fsign q) (f64 s))) w) sixteen

/-- The inverse level of a frame type (R120). -/
def unlevel (ft : FrameType) (s : Nat) (q w : F64) : F64 :=
  match ft with
  | .intra => unlevelIntra s q w
  | .predicted => unlevelPred s q w

/-- Apply f to every element with its weight `w(y, x) = f64(WMAT[y mod DB][x mod DB])` (R114). -/
def withWeights (wt : Grid Nat) (DB h w : Nat) (f : F64 → F64 → F64) (m : Grid F64) : Grid F64 :=
  (List.range h).map fun y => (List.range w).map fun x =>
    f (gridAt m posZero y x) (f64 ((gridAt wt 0 (y % DB) (x % DB) : Nat) : Int))

/-- `quantize(Rm, ft)` of a matrix of h rows and w columns (R117). -/
def quantize (ft : FrameType) (s DB h w : Nat) (wt : Grid Nat) (rm : Grid Int) : Grid F64 :=
  withWeights wt DB h w (level ft s) (bdct h w DB DB (rm.map fun r => r.map f64))

/-- The lower bound of the clamp (R120). -/
def clampLow : FrameType → F64
  | .intra => posZero
  | .predicted => f64 (-255)

/-- `round(clamp(v, lo, 255.0))`, as the integer it is (R120). -/
def toPixelRange (ft : FrameType) (v : F64) : Int := ffloor (fround (fclamp v (clampLow ft) maxPixel))

/-- `dequantize(Q, ft)` of a matrix of h rows and w columns (R120). -/
def dequantize (ft : FrameType) (s DB h w : Nat) (wt : Grid Nat) (q : Grid F64) : Grid Int :=
  (ibdct h w DB DB (withWeights wt DB h w (unlevel ft s) q)).map fun r => r.map (toPixelRange ft)

/-- `clamp(k, 0, 255)` on integers, as a pixel (R138, R139, R142, R143). -/
def clampPixel (k : Int) : Byte := BitVec.ofInt 8 (max 0 (min k 255))

end Sys2Proof.Machine
end

