-- ==== Sys2Proof/Machine/Memory.lean ====
section
/-! DEFINITION. The memories of the window: the map (spec/20_memory.md R54), the canonical form, one byte, and
little-endian elements (R55 to R61). -/

namespace Sys2Proof.Machine

/-- The first window offset of a memory (R54). -/
def Buf.base : Buf → Nat
  | .wmat => 0x001000
  | .vbuf => 0x010000
  | .fin  => 0x100000
  | .recE => 0x140000
  | .recD => 0x180000
  | .res  => 0x200000
  | .coef => 0x400000
  | .mv   => 0x600000

/-- The bytes of a memory (R54). -/
def Buf.size : Buf → Nat
  | .wmat => 0x001000
  | .vbuf => 0x004000
  | .fin  => 0x040000
  | .recE => 0x040000
  | .recD => 0x040000
  | .res  => 0x080000
  | .coef => 0x200000
  | .mv   => 0x100000

/-- The bytes of one element (R56 to R61). -/
def Buf.elemSize : Buf → Nat
  | .wmat => 4
  | .vbuf => 8
  | .fin  => 1
  | .recE => 1
  | .recD => 1
  | .res  => 2
  | .coef => 8
  | .mv   => 4

/-- The elements of one row: the row stride is WMAX for every 2-D buffer and DBMAX for WMAT (R56 to R59, R61); VBUF is one
row of 2*NMAX parts (R60). -/
def Buf.stride : Buf → Nat
  | .wmat => Config.dbmax
  | .vbuf => 2 * Config.nmax
  | _     => Config.wmax

/-- The offset of element (row y, column x): `base + size*(stride*y + x)` (R56 to R61). -/
def Buf.addr (b : Buf) (y x : Nat) : Nat := b.base + b.elemSize * (b.stride * y + x)

/-- The known value of a byte that no cell lists: a weight is 16 after reset (R40, R52); a byte of a buffer that nothing has
written since power-on has none (R52, R175; log 3). -/
def Buf.unlisted : Buf → Option Byte
  | .wmat => some 16#8
  | _     => none

/-- What a byte that no cell lists reads as: the known value, or the free value power-on left there (R52, R175; log 3). -/
def Buf.initial (b : Buf) (off : Nat) : Byte := b.unlisted.getD (Config.powerOnByte off)

/-- The offsets that hold a byte of this memory. Of a word of WMAT only bits 7:0 are storage (R40). -/
def Buf.holds (b : Buf) (off : Nat) : Bool :=
  decide (b.base ≤ off) && decide (off < b.base + b.size) && (b != .wmat || off % 4 == 0)

/-- The byte at an address: the cell that lists it, or `d`. -/
def Cells.read (d : Byte) : Cells → Nat → Byte
  | [], _ => d
  | (k, v) :: cs, a => if k = a then v else Cells.read d cs a

/-- Store a byte, keeping the cells rising and free of the known value `d` of an unlisted one, if there is one. -/
def Cells.write (d : Option Byte) (a : Nat) (v : Byte) : Cells → Cells
  | [] => if some v = d then [] else [(a, v)]
  | (k, w) :: cs =>
    if k < a then (k, w) :: Cells.write d a v cs
    else if k = a then (if some v = d then cs else (a, v) :: cs)
    else (if some v = d then (k, w) :: cs else (a, v) :: (k, w) :: cs)

/-- The canonical form of one memory: offsets strictly rising, each within the memory, no cell equal to the known value of an
unlisted offset. So the cells of WMAT are the weights that differ from 16, and those of a buffer are the bytes written since
power-on (log 3). -/
abbrev Cells.wf (b : Buf) (cs : Cells) : Prop :=
  cs.Pairwise (fun c c' => c.1 < c'.1) ∧ ∀ c ∈ cs, b.holds c.1 = true ∧ some c.2 ≠ b.unlisted

/-- The cells of one memory. -/
def Memory.cells (m : Memory) : Buf → Cells
  | .wmat => m.wmat
  | .vbuf => m.vbuf
  | .fin  => m.fin
  | .recE => m.recE
  | .recD => m.recD
  | .res  => m.res
  | .coef => m.coef
  | .mv   => m.mv

/-- Replace the cells of one memory. -/
def Memory.setCells (m : Memory) (b : Buf) (cs : Cells) : Memory :=
  match b with
  | .wmat => { m with wmat := cs }
  | .vbuf => { m with vbuf := cs }
  | .fin  => { m with fin := cs }
  | .recE => { m with recE := cs }
  | .recD => { m with recD := cs }
  | .res  => { m with res := cs }
  | .coef => { m with coef := cs }
  | .mv   => { m with mv := cs }

/-- The canonical form of all memories. -/
abbrev Memory.wf (m : Memory) : Prop := ∀ b ∈ Buf.all, Cells.wf b (m.cells b)

/-- Read one byte of a memory at a window offset. An offset that holds no storage of it reads 0 (for WMAT the bits
31:8 of a word, R61). -/
def Memory.byte (m : Memory) (b : Buf) (off : Nat) : Byte :=
  if b.holds off then Cells.read (b.initial off) (m.cells b) off else 0#8

/-- Write one byte of a memory at a window offset; a write where no storage is changes nothing (for WMAT the bits 31:8
of a word "ignore writes", R61). -/
def Memory.setByte (m : Memory) (b : Buf) (off : Nat) (v : Byte) : Memory :=
  if b.holds off then m.setCells b (Cells.write b.unlisted off v (m.cells b)) else m

/-- The unsigned number in `n` bytes at an offset, little-endian (R55). -/
def Memory.readLE (m : Memory) (b : Buf) : Nat → Nat → Nat
  | 0, _ => 0
  | n + 1, off => (m.byte b off).toNat + 256 * m.readLE b n (off + 1)

/-- Store the low `n` bytes of a number at an offset, little-endian (R55). -/
def Memory.writeLE (m : Memory) (b : Buf) : Nat → Nat → Nat → Memory
  | 0, _, _ => m
  | n + 1, off, v => (m.setByte b off (BitVec.ofNat 8 v)).writeLE b n (off + 1) (v / 256)

/-- Element (row y, column x) as an unsigned number. -/
def Memory.elem (m : Memory) (b : Buf) (y x : Nat) : Nat := m.readLE b b.elemSize (b.addr y x)

/-- Store element (row y, column x). -/
def Memory.setElem (m : Memory) (b : Buf) (y x : Nat) (v : Nat) : Memory := m.writeLE b b.elemSize (b.addr y x) v

/-- The elements of the region of `h` rows and `w` columns (R88). -/
def Memory.region (m : Memory) (b : Buf) (h w : Nat) : Grid Nat :=
  (List.range h).map fun y => (List.range w).map fun x => m.elem b y x

/-- Store a row of elements from column x on. -/
def Memory.putRow (m : Memory) (b : Buf) (y : Nat) : Nat → List Nat → Memory
  | _, [] => m
  | x, v :: vs => (m.setElem b y x v).putRow b y (x + 1) vs

/-- Store rows of elements from row y on, each from column 0. -/
def Memory.putRows (m : Memory) (b : Buf) : Nat → Grid Nat → Memory
  | _, [] => m
  | y, r :: rs => (m.putRow b y 0 r).putRows b (y + 1) rs

/-- Store free bytes over the region of `h` rows and `w` columns, as far as the memory goes: its contents are unspecified
from then on (R140, R141, R177). -/
def Memory.scramble (m : Memory) (b : Buf) (h w draw : Nat) : Memory :=
  let bytes := (List.range h).flatMap fun y => (List.range w).flatMap fun x =>
    (List.range b.elemSize).map fun k => b.addr y x + k
  bytes.foldl (fun m' off => m'.setByte b off (Config.unspecByte draw off)) m

end Sys2Proof.Machine
end

