-- ==== Sys2Proof/Machine/Predictor.lean ====
section
/-! DEFINITION. The DPCM predictor of spec/43_dpcm.md R126 to R129, over an element type with zero, addition and
subtraction. `quantize_step` is the identity (R129). -/

namespace Sys2Proof.Machine

/-- One row of `dpcm_enc` with the running predictor p: e = m - p, then p + e (R126). -/
def dpcmEncRow {α : Type} (add sub : α → α → α) : α → List α → List α
  | _, [] => []
  | p, m :: ms => sub m p :: dpcmEncRow add sub (add p (sub m p)) ms

/-- One row of `dpcm_dec` with the running predictor p: the element e + p is the next predictor (R127). -/
def dpcmDecRow {α : Type} (add : α → α → α) : α → List α → List α
  | _, [] => []
  | p, e :: es => add e p :: dpcmDecRow add (add e p) es

/-- `dpcm_enc`: "at the start of each row reset the running predictor" to zero (R126). -/
def dpcmEnc {α : Type} (zero : α) (add sub : α → α → α) (m : Grid α) : Grid α := m.map (dpcmEncRow add sub zero)

/-- `dpcm_dec`, "with the same row-reset rule" (R127). -/
def dpcmDec {α : Type} (zero : α) (add : α → α → α) (m : Grid α) : Grid α := m.map (dpcmDecRow add zero)

/-- Vector addition, wrap16 in each component (R11, R128). -/
def vadd (a b : Vec) : Vec := ⟨a.dx + b.dx, a.dy + b.dy⟩

/-- Vector subtraction, wrap16 in each component (R11, R128). -/
def vsub (a b : Vec) : Vec := ⟨a.dx - b.dx, a.dy - b.dy⟩

/-- The zero vector (R128). -/
def vzero : Vec := ⟨0#16, 0#16⟩

/-- `dpcm_enc` of a coefficient matrix (R128). -/
def encCoef (m : Grid F64) : Grid F64 := dpcmEnc posZero fadd fsub m

/-- `dpcm_dec` of a coefficient matrix (R128). -/
def decCoef (m : Grid F64) : Grid F64 := dpcmDec posZero fadd m

/-- `dpcm_enc` of a motion-vector field (R128). -/
def encField (m : Grid Vec) : Grid Vec := dpcmEnc vzero vadd vsub m

/-- `dpcm_dec` of a motion-vector field (R128). -/
def decField (m : Grid Vec) : Grid Vec := dpcmDec vzero vadd m

end Sys2Proof.Machine
end

