-- ==== Sys2Proof/Machine/Search.lean ====
section
/-! DEFINITION. The block-matching functions of spec/41_motion.md R107 to R110 and the motion-compensated read of
spec/44_pipeline.md R135. All arithmetic is exact integer arithmetic. -/

namespace Sys2Proof.Machine

/-- The pixel at row y and column x of a frame; rows and columns are integers that the rules keep inside the frame. -/
def pixel (p : Grid Byte) (y x : Int) : Int := ((gridAt p 0#8 y.toNat x.toNat).toNat : Int)

/-- `dist(a, c)`: |a - c| for SAD, (a - c)^2 for SSD (R107). -/
def dist (ssd : Bool) (a c : Int) : Nat := if ssd then ((a - c) * (a - c)).natAbs else (a - c).natAbs

/-- `cost`: the sum over the block of side b at (bx, by), displaced by (i, j) (R107). -/
def cost (ref tgt : Grid Byte) (bx by' b : Nat) (ssd : Bool) (i j : Int) : Nat :=
  ((List.range b).map fun (v : Nat) => ((List.range b).map fun (u : Nat) =>
    dist ssd (pixel tgt (by' + v) (bx + u)) (pixel ref (by' + v - j) (bx + u - i))).sum).sum

/-- The integers from lo to hi, ascending. -/
def intRange (lo hi : Int) : List Int := (List.range (hi - lo + 1).toNat).map fun (k : Nat) => lo + k

/-- The least displacement of one axis: max(-R, (at + b) - extent) (R108). -/
def rangeLo (R at' b extent : Nat) : Int := max (-(R : Int)) ((at' : Int) + b - extent)

/-- The greatest displacement of one axis: min(R, at) (R108). -/
def rangeHi (R at' : Nat) : Int := min (R : Int) at'

/-- The candidates in the order of the search: i ascending, for each i j ascending (R108, R109). -/
def candidates (W H R bx by' b : Nat) : List (Int × Int) :=
  (intRange (rangeLo R bx b W) (rangeHi R bx)).flatMap fun i =>
    (intRange (rangeLo R by' b H) (rangeHi R by')).map fun j => (i, j)

/-- The loop of R109 over the candidates left, with the best found so far: strict `<` replaces, cost 0 ends it. -/
def scan (c : Int → Int → Nat) : List (Int × Int) → (Int × Int) × Nat → (Int × Int) × Nat
  | [], best => best
  | (i, j) :: rest, best =>
    if c i j < best.2 then
      (if c i j = 0 then ((i, j), 0) else scan c rest ((i, j), c i j))
    else scan c rest best

/-- `me_block` (R109): the vector (dx, dy) and its cost. The first candidate is taken whatever it costs ("not found"). -/
def meBlock (ref tgt : Grid Byte) (W H bx by' b R : Nat) (ssd : Bool) : (Int × Int) × Nat :=
  let c := cost ref tgt bx by' b ssd
  if c 0 0 = 0 then ((0, 0), 0)
  else
    match candidates W H R bx by' b with
    | [] => ((0, 0), c 0 0)
    | (i, j) :: rest => if c i j = 0 then ((i, j), 0) else scan c rest ((i, j), c i j)

/-- The storage form of a displacement: two int16 components (R59). -/
def vecOf (v : Int × Int) : Vec := ⟨BitVec.ofInt 16 v.1, BitVec.ofInt 16 v.2⟩

/-- `me_map`: one search per block of side MB, in raster order (R110). -/
def meMap (ref tgt : Grid Byte) (W H MB R : Nat) (ssd : Bool) : Grid Vec :=
  (List.range (H / MB)).map fun by' => (List.range (W / MB)).map fun bx =>
    vecOf (meBlock ref tgt W H (bx * MB) (by' * MB) MB R ssd).1

/-- `mv(M, x, y)`: the vector of the block of a pixel (R135). -/
def mvAt (m : Grid Vec) (MB y x : Nat) : Vec := gridAt m ⟨0#16, 0#16⟩ (y / MB) (x / MB)

/-- `mc(P, M, x, y)`: the pixel the vector of (x, y) points to, with the subtractive sign (R135). -/
def mc (p : Grid Byte) (m : Grid Vec) (MB y x : Nat) : Int :=
  pixel p ((y : Int) - (mvAt m MB y x).dy.toInt) ((x : Int) - (mvAt m MB y x).dx.toInt)

/-- The check of one block of a decoded field: every pixel it reads is inside the W x H frame (R144). -/
def vecInFrame (W H MB by' bx : Nat) (v : Vec) : Bool :=
  decide (0 ≤ (bx * MB : Int) - v.dx.toInt) && decide ((bx * MB : Int) + MB - 1 - v.dx.toInt ≤ (W : Int) - 1) &&
  decide (0 ≤ (by' * MB : Int) - v.dy.toInt) && decide ((by' * MB : Int) + MB - 1 - v.dy.toInt ≤ (H : Int) - 1)

/-- The check of R144 for a whole field. -/
def fieldInFrame (W H MB : Nat) (m : Grid Vec) : Bool :=
  (List.range (H / MB)).all fun by' => (List.range (W / MB)).all fun bx =>
    vecInFrame W H MB by' bx (gridAt m ⟨0#16, 0#16⟩ by' bx)

end Sys2Proof.Machine
end

