-- ==== Sys2Proof/Machine/Operands.lean ====
section
/-! DEFINITION. The operands of the commands: the register shorthands of spec/30_encoding.md R83 and R88, and the regions
of the buffers as typed elements (spec/20_memory.md R56 to R61, R68). -/

namespace Sys2Proof.Machine

/-- W (R88): bits 15:0 of FRAME_W, unsigned. -/
def State.width (s : State) : Nat := s.frameW.toNat

/-- H (R88). -/
def State.height (s : State) : Nat := s.frameH.toNat

/-- MB (R88). -/
def State.mb (s : State) : Nat := s.mbSize.toNat

/-- DB (R88). -/
def State.db (s : State) : Nat := s.dbSize.toNat

/-- s, the quantization scale (R88). -/
def State.scale (s : State) : Nat := s.qscale.toNat

/-- R, the search radius (R88). -/
def State.radius (s : State) : Nat := s.searchR.toNat

/-- N or n, the vector length (R88). -/
def State.len (s : State) : Nat := s.vlen.toNat

/-- tw (R88). -/
def State.tw (s : State) : Nat := s.tileW.toNat

/-- th (R88). -/
def State.th (s : State) : Nat := s.tileH.toNat

/-- bx of MEBLK (R88). -/
def State.bx (s : State) : Nat := s.meBx.toNat

/-- by of MEBLK (R88). -/
def State.blockY (s : State) : Nat := s.meBy.toNat

/-- The rows of the MV field: H div MB (R88). No command that passes its checks has MB = 0; R11 gives `div` no meaning there. Only a
soft reset that aborts a command meets it (R177): the field then has 0 rows (log 5, DESIGN CHOICE). -/
def State.fieldRows (s : State) : Nat := s.height / s.mb

/-- The columns of the MV field: W div MB (R88); 0 of them while MB = 0 (log 5, DESIGN CHOICE). -/
def State.fieldCols (s : State) : Nat := s.width / s.mb

/-- The 32-bit word of a vector: dx in bits 15:0, dy in bits 31:16 (R34, R59). -/
def vecWord (v : Vec) : Word := v.dy ++ v.dx

/-- The vector of a 32-bit word (R59). -/
def vecOfWord (w : Word) : Vec := ⟨w.extractLsb' 0 16, w.extractLsb' 16 16⟩

/-- The W x H region of a pixel buffer (R56). -/
def State.pixels (s : State) (b : Buf) : Grid Byte :=
  (s.mem.region b s.height s.width).map fun r => r.map (BitVec.ofNat 8)

/-- The W x H region of RES, as integers (R57, R117). -/
def State.residuals (s : State) : Grid Int :=
  (s.mem.region .res s.height s.width).map fun r => r.map fun n => (BitVec.ofNat 16 n).toInt

/-- The W x H region of COEF (R58). -/
def State.coefs (s : State) : Grid F64 :=
  (s.mem.region .coef s.height s.width).map fun r => r.map (BitVec.ofNat 64)

/-- The MV field (R47, R59). -/
def State.field (s : State) : Grid Vec :=
  (s.mem.region .mv s.fieldRows s.fieldCols).map fun r => r.map fun n => vecOfWord (BitVec.ofNat 32 n)

/-- The used weights: rows and columns below DB (R40, R61). -/
def State.weights (s : State) : Grid Nat := s.mem.region .wmat s.db s.db

/-- The first n entries of VBUF (R60): the real part is element 2k, the imaginary part element 2k + 1. -/
def State.vector (s : State) (n : Nat) : List Cplx :=
  (List.range n).map fun k =>
    ⟨BitVec.ofNat 64 (s.mem.elem .vbuf 0 (2 * k)), BitVec.ofNat 64 (s.mem.elem .vbuf 0 (2 * k + 1))⟩

/-- Store pixels from (0, 0) on (R56). -/
def Memory.putPixels (m : Memory) (b : Buf) (g : Grid Byte) : Memory :=
  m.putRows b 0 (g.map fun r => r.map fun v => v.toNat)

/-- Store residuals from (0, 0) on, as int16s (R57). -/
def Memory.putResiduals (m : Memory) (g : Grid Int) : Memory :=
  m.putRows .res 0 (g.map fun r => r.map fun k => (BitVec.ofInt 16 k).toNat)

/-- Store coefficients from (0, 0) on (R58). -/
def Memory.putCoefs (m : Memory) (g : Grid F64) : Memory :=
  m.putRows .coef 0 (g.map fun r => r.map fun v => v.toNat)

/-- Store a motion-vector field from block (0, 0) on (R59). -/
def Memory.putField (m : Memory) (g : Grid Vec) : Memory :=
  m.putRows .mv 0 (g.map fun r => r.map fun v => (vecWord v).toNat)

/-- Store complex entries of VBUF from entry 0 on (R60). -/
def Memory.putVector (m : Memory) (v : List Cplx) : Memory :=
  m.putRow .vbuf 0 0 (v.flatMap fun c => [c.re.toNat, c.im.toNat])

end Sys2Proof.Machine
end

