-- ==== Sys2Proof/Machine/Ops.lean ====
section
/-! DEFINITION. The shared operations over the state: acceptance, completion and error of a command
(spec/60_exceptions.md R160, R162), a fresh session (spec/10_state.md R48, R49), and soft reset
(spec/70_reset_and_hazards.md R176, R177). -/

namespace Sys2Proof.Machine

/-- The outcomes of this machine. -/
abbrev Result := Host.Outcome State Fault Refusal

/-- Acceptance of a command word: CMD holds it, BUSY is set, DONE, ERR and ERRCODE are cleared, METRIC is sampled (R23, R25,
R162). The command takes effect after `wait` turns of the host. -/
def State.accept (s : State) (w : Word) (wait : Nat) : State :=
  { s with
    cmd := w, busy := true, done := false, err := false, errcode := 0#4
    runMetric := s.metric, wait := wait }

/-- A command that ends without error: DONE is set and BUSY returns to 0 in the same step (R162). -/
def State.complete (s : State) : State := { s with done := true, busy := false }

/-- A command that ends with an error: ERR and ERRCODE are set, BUSY returns to 0, nothing else changes (R160, R162). This is
the engine's one way of taking an error; its return is the host's acknowledgement `State.ackStatus` (R165). -/
def State.raise (s : State) (e : ErrKind) : State := { s with err := true, errcode := e.code, busy := false }

/-- A command with its checks made first: the first failing check ends it with that error; otherwise its effect and the
completion (R160, R161, R162). -/
def finish (check : Option ErrKind) (effect : State → State) (s : State) : Result :=
  match check with
  | some e => .next (s.raise e)
  | none => .next (effect s).complete

/-- The encoder starts a fresh session: AwaitingFirstFrame and counter 0 (R38, R48). -/
def State.freshEncoder (s : State) : State := { s with steadyE := false, encFcnt := 0#32 }

/-- The decoder starts a fresh session (R38, R48). -/
def State.freshDecoder (s : State) : State := { s with steadyD := false, decFcnt := 0#32 }

/-- A session-configuration write starts a fresh session of both pipelines (R49). -/
def State.freshSession (s : State) : State := s.freshEncoder.freshDecoder

/-- The buffers a command writes, each with the rows and columns of its region (R84). VBUF is one row of 2*N parts. While MB_SIZE = 0
the MV field has no rows and columns (log 5, DESIGN CHOICE). -/
def outputs (i : Instr) (s : State) : List (Buf × Nat × Nat) :=
  match i with
  | .nop | .meblk | .rstenc | .rstdec => []
  | .fft | .ifft | .dct1d | .idct1d => [(.vbuf, 1, 2 * s.len)]
  | .dct2d | .idct2d | .bdct2d | .ibdct2d => [(.coef, s.height, s.width)]
  | .memap | .dpcmencV | .dpcmdecV => [(.mv, s.fieldRows, s.fieldCols)]
  | .quantI | .quantP | .dpcmencC | .dpcmdecC => [(.coef, s.height, s.width)]
  | .dequantI | .dequantP => [(.res, s.height, s.width)]
  | .encfrm =>
    [(.coef, s.height, s.width), (.recE, s.height, s.width), (.res, s.height, s.width)] ++
      (if s.steadyE then [(.mv, s.fieldRows, s.fieldCols)] else [])
  | .decfrm => [(.recD, s.height, s.width), (.res, s.height, s.width)]

/-- The rows of a buffer (R8, R41). -/
def Buf.rows : Buf → Nat
  | .wmat => Config.dbmax
  | .vbuf => 1
  | _     => Config.hmax

/-- Make a region unspecified, as far as the buffer goes. -/
def Memory.forget (m : Memory) (draw : Nat) (r : Buf × Nat × Nat) : Memory :=
  m.scramble r.1 (min r.2.1 r.1.rows) (min r.2.2 r.1.stride) draw

/-- The buffers after the running command is aborted: "every buffer element that the command's row of R84 lists as written
(in its region) holds unspecified contents afterwards" (R177; log 5). An illegal word has no row. -/
def State.abortMem (s : State) : Memory :=
  match decode s.cmd with
  | .ok i => (outputs i s).foldl (fun m r => m.forget s.draw r) s.mem
  | .error _ => s.mem

/-- Soft reset: every register and every WMAT entry takes its value of R52, the buffers keep their contents (R176), except the
outputs of a running command (R177). The host and the model's own counter go on. -/
def State.softReset (s : State) : State :=
  { State.reset with
    mem := { (if s.busy then s.abortMem else s.mem) with wmat := Memory.reset.wmat }
    draw := s.draw + 1, host := s.host, resp := s.resp }

end Sys2Proof.Machine
end

