-- ==== Sys2Proof/Machine/Bus.lean ====
section
/-! DEFINITION. The host's accesses to the window: the register block (spec/10_state.md R21 to R39), the map and the rules of an
access (spec/20_memory.md R53 to R66), and accesses while a command runs (spec/70_reset_and_hazards.md R180, R181). -/

namespace Sys2Proof.Machine

/-- The registers of R21. -/
inductive Reg where
  | id | ctrl | status | cmd | frameW | frameH | mbSize | dbSize | qscale | searchR | vlen | tileW | tileH
  | meBx | meBy | meVec | meCost | encFtype | decFtype | encFcnt | decFcnt
deriving DecidableEq, Repr

/-- The register at an offset of the block; `none` at a reserved offset (R21, R39). -/
def regAt (off : Nat) : Option Reg :=
  match off with
  | 0x000 => some .id
  | 0x004 => some .ctrl
  | 0x008 => some .status
  | 0x00C => some .cmd
  | 0x010 => some .frameW
  | 0x014 => some .frameH
  | 0x018 => some .mbSize
  | 0x01C => some .dbSize
  | 0x020 => some .qscale
  | 0x024 => some .searchR
  | 0x028 => some .vlen
  | 0x02C => some .tileW
  | 0x030 => some .tileH
  | 0x034 => some .meBx
  | 0x038 => some .meBy
  | 0x03C => some .meVec
  | 0x040 => some .meCost
  | 0x044 => some .encFtype
  | 0x048 => some .decFtype
  | 0x04C => some .encFcnt
  | 0x050 => some .decFcnt
  | _     => none

/-- What a register reads as (R22 to R38). Bits above a field read 0. -/
def State.readReg (s : State) : Reg → Word
  | .id       => 0x48544931#32
  | .ctrl     => s.ctrlWord
  | .status   => s.statusWord
  | .cmd      => s.cmd
  | .frameW   => s.frameW.setWidth 32
  | .frameH   => s.frameH.setWidth 32
  | .mbSize   => s.mbSize.setWidth 32
  | .dbSize   => s.dbSize.setWidth 32
  | .qscale   => s.qscale.setWidth 32
  | .searchR  => s.searchR.setWidth 32
  | .vlen     => s.vlen.setWidth 32
  | .tileW    => s.tileW.setWidth 32
  | .tileH    => s.tileH.setWidth 32
  | .meBx     => s.meBx.setWidth 32
  | .meBy     => s.meBy.setWidth 32
  | .meVec    => s.meVec
  | .meCost   => s.meCost
  | .encFtype => s.encFtype.setWidth 32
  | .decFtype => s.decFtype.setWidth 32
  | .encFcnt  => s.encFcnt
  | .decFcnt  => s.decFcnt

/-- A write of CTRL: SRST = 1 is the soft reset, "so the other bits of the same write are discarded" (R23, R176). -/
def State.writeCtrl (s : State) (v : Word) : State := if v.getLsbD 0 then s.softReset else s.setCtrl v

/-- A write of CMD: dropped with OVR set while BUSY = 1, otherwise accepted (R25, R162, R164). How long the command takes is
open (R185; log 2). -/
def State.writeCmd (s : State) (w : Word) : State :=
  if s.busy then { s with ovr := true }
  else { s.accept w (Config.latency w s.draw) with draw := s.draw + 1 }

/-- A host write of a register (R22 to R38, R49, R51). Writes to read-only registers are ignored. -/
def State.writeReg (s : State) (r : Reg) (v : Word) : State :=
  let h : Half := v.extractLsb' 0 16
  match r with
  | .id       => s
  | .ctrl     => s.writeCtrl v
  | .status   => s.ackStatus v
  | .cmd      => s.writeCmd v
  | .frameW   => { s.freshSession with frameW := h }
  | .frameH   => { s.freshSession with frameH := h }
  | .mbSize   => { s.freshSession with mbSize := h }
  | .dbSize   => { s.freshSession with dbSize := h }
  | .qscale   => { s.freshSession with qscale := h }
  | .searchR  => { s with searchR := h }
  | .vlen     => { s with vlen := h }
  | .tileW    => { s with tileW := h }
  | .tileH    => { s with tileH := h }
  | .meBx     => { s with meBx := h }
  | .meBy     => { s with meBy := h }
  | .meVec    => s
  | .meCost   => s
  | .encFtype => s
  | .decFtype => { s with decFtype := v.extractLsb' 0 2 }
  | .encFcnt  => s
  | .decFcnt  => s

/-- What an offset of the window belongs to (R54). -/
inductive Place where
  | registers
  | memory (b : Buf)
  | unmapped
deriving DecidableEq, Repr

/-- The window map (R54). -/
def placeOf (off : Nat) : Place :=
  if off < 0x1000 then .registers
  else
    match Buf.all.find? fun b => decide (b.base ≤ off) && decide (off < b.base + b.size) with
    | some b => .memory b
    | none => .unmapped

/-- An access the engine admits: of a supported width and at a multiple of it (R62, R63); every other one is a bus error
(R64, R65). -/
def admitted (off size : Nat) : Bool :=
  match placeOf off with
  | .registers => size == 4 && off % 4 == 0
  | .memory .wmat => size == 4 && off % 4 == 0
  | .memory _ => [1, 2, 4, 8].contains size && off % size == 0
  | .unmapped => false

/-- The accesses allowed while BUSY = 1: R181's reads of ID, reads and writes of CTRL and STATUS and writes of CMD, and reads of CMD
(log 10, DEDUCED). -/
def allowedBusy (write : Bool) (off : Nat) : Bool :=
  (off == 0x000 && !write) || off == 0x004 || off == 0x008 || off == 0x00C

/-- The value an admitted read returns, zero-extended (R55). A reserved register offset reads 0 (R39). -/
def State.busValue (s : State) (off size : Nat) : BitVec 64 :=
  match placeOf off with
  | .registers => ((regAt off).elim 0#32 s.readReg).setWidth 64
  | .memory b => BitVec.ofNat 64 (s.mem.readLE b size off)
  | .unmapped => 0#64

/-- The effect of an admitted write. A reserved register offset ignores it (R39); a write to WMAT starts a fresh session
(R40, R49); a write to a buffer "replaces exactly the bytes written" (R63). -/
def State.busStore (s : State) (off size : Nat) (v : BitVec 64) : State :=
  match placeOf off with
  | .registers => (regAt off).elim s fun r => s.writeReg r (v.setWidth 32)
  | .memory .wmat => { s.freshSession with mem := s.mem.writeLE .wmat size off v.toNat }
  | .memory b => { s with mem := s.mem.writeLE b size off v.toNat }
  | .unmapped => s

/-- A host read (R62 to R66, R181). A bus error changes nothing and is one whether or not BUSY = 1. -/
def State.busRead (s : State) (off : Offset) (size : Nat) : Result :=
  if !admitted off.toNat size then .next { s with resp := .busError }
  else if s.busy && !allowedBusy false off.toNat then .fault (.hazard off)
  else .next { s with resp := .data (s.busValue off.toNat size) }

/-- A host write (R62 to R66, R181). -/
def State.busWrite (s : State) (off : Offset) (size : Nat) (v : BitVec 64) : Result :=
  if !admitted off.toNat size then .next { s with resp := .busError }
  else if s.busy && !allowedBusy true off.toNat then .fault (.hazard off)
  else .next { s.busStore off.toNat size v with resp := .ack }

/-- A turn of the host: its next access in program order (R69); WAIT reads STATUS until BUSY is 0 (R87); a host with nothing left
to do leaves the engine as it is. -/
def hostTurn (s : State) : Result :=
  match s.host with
  | [] => .next s
  | .idle :: rest => .next { s with host := rest }
  | .wait :: rest =>
    .next { s with resp := .data (s.statusWord.setWidth 64), host := if s.busy then s.host else rest }
  | .read off size :: rest => { s with host := rest }.busRead off size
  | .write off size v :: rest => { s with host := rest }.busWrite off size v

/-- The bus address of a window offset: BASE + offset (R53). -/
def busAddress (off : Offset) : Nat := Config.base + off.toNat

/-- The window offset of a bus address; what lies outside the window is the platform's (R53, R54). -/
def windowOffset (addr : Nat) : Option Offset :=
  if Config.base ≤ addr ∧ addr < Config.base + 2 ^ 24 then some (BitVec.ofNat 24 (addr - Config.base)) else none

end Sys2Proof.Machine
end

