-- ==== Sys2Proof/Machine/Checks.lean ====
section
/-! DEFINITION. The checks of the commands, each list in the order of its rule (spec/60_exceptions.md R155 to R161). The
first that fails is the error reported. -/

namespace Sys2Proof.Machine

/-- `ispow2` (R13). Zero is not a power of two. -/
def ispow2 (n : Nat) : Bool := decide (1 ≤ n) && n &&& (n - 1) == 0

/-- "W < 1 or W > WMAX or H < 1 or H > HMAX" (R101). -/
def State.badFrame (s : State) : Bool :=
  decide (s.width < 1) || decide (Config.wmax < s.width) || decide (s.height < 1) || decide (Config.hmax < s.height)

/-- "MB < 1 or MB > MBMAX" (R112). -/
def State.badMb (s : State) : Bool := decide (s.mb < 1) || decide (Config.mbmax < s.mb)

/-- "DB < 1 or DB > DBMAX" (R121). -/
def State.badDb (s : State) : Bool := decide (s.db < 1) || decide (Config.dbmax < s.db)

/-- "WMAT[v][u] = 0 for some v < DB, u < DB" (R121). -/
def State.zeroWeight (s : State) : Bool := s.weights.any fun r => r.any fun w => w == 0

/-- W or H is no multiple of b. -/
def State.notMultiple (s : State) (b : Nat) : Bool := s.width % b != 0 || s.height % b != 0

/-- FFT and IFFT (R97, R98). -/
def State.checkFft (s : State) : Option ErrKind :=
  if Config.nmax < s.len then some .invalidConfig
  else if !ispow2 s.len then some .invalidSize
  else none

/-- DCT1D and IDCT1D (R99, R100). -/
def State.checkDct (s : State) : Option ErrKind :=
  if Config.nmax < 2 * s.len then some .invalidConfig
  else if !ispow2 s.len then some .invalidSize
  else none

/-- DCT2D and IDCT2D (R101, R102). -/
def State.checkDct2d (s : State) : Option ErrKind :=
  if s.badFrame then some .invalidConfig
  else if !ispow2 s.width || !ispow2 s.height then some .invalidSize
  else none

/-- BDCT2D and IBDCT2D (R103, R104). -/
def State.checkBlocks (s : State) : Option ErrKind :=
  if s.badFrame then some .invalidConfig
  else if s.tw < 1 ∨ Config.tmax < s.tw ∨ s.th < 1 ∨ Config.tmax < s.th then some .invalidConfig
  else if s.width % s.tw ≠ 0 ∨ s.height % s.th ≠ 0 then some .invalidBlockSize
  else if !ispow2 s.tw || !ispow2 s.th then some .invalidSize
  else none

/-- MEBLK (R111). -/
def State.checkMeblk (s : State) : Option ErrKind :=
  if s.badFrame then some .invalidConfig
  else if s.badMb then some .invalidConfig
  else if s.width < s.bx + s.mb ∨ s.height < s.blockY + s.mb then some .invalidConfig
  else none

/-- MEMAP, DPCMENC.V and DPCMDEC.V (R112, R132, R133). -/
def State.checkField (s : State) : Option ErrKind :=
  if s.badFrame then some .invalidConfig
  else if s.badMb then some .invalidConfig
  else if s.notMultiple s.mb then some .invalidBlockSize
  else none

/-- QCHECK: QUANT and DEQUANT (42_quantizer.md, before R121). -/
def State.qcheck (s : State) : Option ErrKind :=
  if s.badFrame then some .invalidConfig
  else if s.badDb then some .invalidConfig
  else if s.scale = 0 then some .invalidConfig
  else if s.zeroWeight then some .invalidConfig
  else if s.notMultiple s.db then some .invalidBlockSize
  else if !ispow2 s.db then some .invalidSize
  else none

/-- DPCMENC.C and DPCMDEC.C (R130, R131). -/
def State.checkRegion (s : State) : Option ErrKind := if s.badFrame then some .invalidConfig else none

/-- SCHECK: ENCFRM, and the first checks of DECFRM (R136). -/
def State.scheck (s : State) : Option ErrKind :=
  if s.badFrame then some .invalidConfig
  else if s.badMb then some .invalidConfig
  else if s.badDb then some .invalidConfig
  else if s.scale = 0 then some .invalidConfig
  else if s.zeroWeight then some .invalidConfig
  else if s.notMultiple s.mb || s.notMultiple s.db then some .invalidBlockSize
  else if !ispow2 s.db then some .invalidSize
  else none

/-- The frame type of DEC_FTYPE: tags 2 and 3 are none (R36, R37). -/
def frameTypeOf (tag : BitVec 2) : Option FrameType :=
  if tag = 0#2 then some .intra else if tag = 1#2 then some .predicted else none

/-- The tag of a frame type (R36). -/
def FrameType.tag : FrameType → BitVec 2
  | .intra => 0#2
  | .predicted => 1#2

/-- DECFRM, after SCHECK: the tag, the session, the decoded field, in the order of R141 and R161. -/
def State.checkDecfrm (s : State) : Option ErrKind :=
  match s.scheck with
  | some e => some e
  | none =>
    match frameTypeOf s.decFtype with
    | none => some .malformedInput
    | some .intra => none
    | some .predicted =>
      if !s.steadyD then some .sequenceError
      else if !fieldInFrame s.width s.height s.mb (decField s.field) then some .malformedInput
      else none

end Sys2Proof.Machine
end

