-- ==== Sys2Proof/Machine/Transform.lean ====
section
/-! DEFINITION. The transform commands (spec/40_transform.md R97 to R104). -/

namespace Sys2Proof.Machine

/-- A command on the first N = VLEN entries of VBUF, in place. -/
def State.onVector (s : State) (f : List Cplx → List Cplx) : State :=
  { s with mem := s.mem.putVector (f (s.vector s.len)) }

/-- A command on the W x H region of COEF, in place; the whole region is read first. -/
def State.onCoefs (s : State) (f : Grid F64 → Grid F64) : State :=
  { s with mem := s.mem.putCoefs (f s.coefs) }

/-- The DCT commands read the real parts and write imaginary parts +0.0 (R99, R100). -/
def onReal (f : List F64 → List F64) (v : List Cplx) : List Cplx := (f (v.map fun c => c.re)).map cplx

/-- FFT (R97). -/
def execFft (s : State) : Result :=
  finish s.checkFft (fun s => s.onVector (fft (Nat.log2 s.len))) s

/-- IFFT (R98). -/
def execIfft (s : State) : Result :=
  finish s.checkFft (fun s => s.onVector (ifft (Nat.log2 s.len))) s

/-- DCT1D (R99). -/
def execDct1d (s : State) : Result :=
  finish s.checkDct (fun s => s.onVector (onReal dct1d)) s

/-- IDCT1D (R100). -/
def execIdct1d (s : State) : Result :=
  finish s.checkDct (fun s => s.onVector (onReal idct1d)) s

/-- DCT2D (R101). -/
def execDct2d (s : State) : Result :=
  finish s.checkDct2d (fun s => s.onCoefs (dct2d s.height s.width)) s

/-- IDCT2D (R102). -/
def execIdct2d (s : State) : Result :=
  finish s.checkDct2d (fun s => s.onCoefs (idct2d s.height s.width)) s

/-- BDCT2D (R103). -/
def execBdct2d (s : State) : Result :=
  finish s.checkBlocks (fun s => s.onCoefs (bdct s.height s.width s.th s.tw)) s

/-- IBDCT2D (R104). -/
def execIbdct2d (s : State) : Result :=
  finish s.checkBlocks (fun s => s.onCoefs (ibdct s.height s.width s.th s.tw)) s

end Sys2Proof.Machine
end

