-- ==== Sys2Proof/Machine/Dpcm.lean ====
section
/-! DEFINITION. The DPCM commands (spec/43_dpcm.md R130 to R133). -/

namespace Sys2Proof.Machine

/-- A command on the MV field, in place; the whole field is read first. -/
def State.onField (s : State) (f : Grid Vec → Grid Vec) : State :=
  { s with mem := s.mem.putField (f s.field) }

/-- DPCMENC.C (R130). -/
def execDpcmencC (s : State) : Result := finish s.checkRegion (fun s => s.onCoefs encCoef) s

/-- DPCMDEC.C (R131). -/
def execDpcmdecC (s : State) : Result := finish s.checkRegion (fun s => s.onCoefs decCoef) s

/-- DPCMENC.V (R132). -/
def execDpcmencV (s : State) : Result := finish s.checkField (fun s => s.onField encField) s

/-- DPCMDEC.V (R133). -/
def execDpcmdecV (s : State) : Result := finish s.checkField (fun s => s.onField decField) s

end Sys2Proof.Machine
end

