-- ==== Sys2Proof/Machine/Motion.lean ====
section
/-! DEFINITION. The motion estimator commands (spec/41_motion.md R111, R112): reference REC_E, target FIN, METRIC as sampled
at acceptance. -/

namespace Sys2Proof.Machine

/-- The search MEBLK makes. -/
def State.searchBlock (s : State) : (Int × Int) × Nat :=
  meBlock (s.pixels .recE) (s.pixels .fin) s.width s.height s.bx s.blockY s.mb s.radius s.runMetric

/-- The map of MEMAP and of a Predicted ENCFRM (R112, R139). -/
def State.searchMap (s : State) : Grid Vec :=
  meMap (s.pixels .recE) (s.pixels .fin) s.width s.height s.mb s.radius s.runMetric

/-- MEBLK (R111). -/
def execMeblk (s : State) : Result :=
  finish s.checkMeblk (fun s =>
    { s with meVec := vecWord (vecOf s.searchBlock.1), meCost := BitVec.ofNat 32 s.searchBlock.2 }) s

/-- MEMAP (R112). -/
def execMemap (s : State) : Result :=
  finish s.checkField (fun s => { s with mem := s.mem.putField s.searchMap }) s

end Sys2Proof.Machine
end

