-- ==== Sys2Proof/Machine/Quantizer.lean ====
section
/-! DEFINITION. The quantizer commands (spec/42_quantizer.md R121 to R124). -/

namespace Sys2Proof.Machine

/-- `quantize` with the operands of the state (R117). -/
def State.quantized (s : State) (ft : FrameType) (rm : Grid Int) : Grid F64 :=
  quantize ft s.scale s.db s.height s.width s.weights rm

/-- `dequantize` with the operands of the state (R120). -/
def State.dequantized (s : State) (ft : FrameType) (q : Grid F64) : Grid Int :=
  dequantize ft s.scale s.db s.height s.width s.weights q

/-- RES to COEF (R121, R122). -/
def State.quant (s : State) (ft : FrameType) : State :=
  { s with mem := s.mem.putCoefs (s.quantized ft s.residuals) }

/-- COEF to RES (R123, R124). -/
def State.dequant (s : State) (ft : FrameType) : State :=
  { s with mem := s.mem.putResiduals (s.dequantized ft s.coefs) }

/-- QUANT.I (R121). -/
def execQuantI (s : State) : Result := finish s.qcheck (fun s => s.quant .intra) s

/-- QUANT.P (R122). -/
def execQuantP (s : State) : Result := finish s.qcheck (fun s => s.quant .predicted) s

/-- DEQUANT.I (R123). -/
def execDequantI (s : State) : Result := finish s.qcheck (fun s => s.dequant .intra) s

/-- DEQUANT.P (R124). -/
def execDequantP (s : State) : Result := finish s.qcheck (fun s => s.dequant .predicted) s

end Sys2Proof.Machine
end

