-- ==== Sys2Proof/Machine/Pipeline.lean ====
section
/-! DEFINITION. The frame pipeline (spec/44_pipeline.md R135 to R147). -/

namespace Sys2Proof.Machine

/-- The matrix of H rows and W columns whose element at row y and column x is f y x. -/
def gridOf {α : Type} (h w : Nat) (f : Nat → Nat → α) : Grid α :=
  (List.range h).map fun y => (List.range w).map fun x => f y x

/-- The frame F to encode, as integers (R137). -/
def State.frame (s : State) : Grid Int := (s.pixels .fin).map fun r => r.map fun p => (p.toNat : Int)

/-- Intra reconstruction from the decoded levels: dequantize, clamp (R138, R142). -/
def State.reconIntra (s : State) (q : Grid F64) : Grid Byte :=
  (s.dequantized .intra q).map fun r => r.map clampPixel

/-- Predicted reconstruction from the previous frame, the decoded field and the decoded levels (R139, R143). -/
def State.reconPred (s : State) (p : Grid Byte) (m : Grid Vec) (q : Grid F64) : Grid Byte :=
  let r := s.dequantized .predicted q
  gridOf s.height s.width fun y x => clampPixel (mc p m s.mb y x + gridAt r 0 y x)

/-- The residual against the motion-compensated previous frame (R139). -/
def State.residualOf (s : State) (p : Grid Byte) (m : Grid Vec) : Grid Int :=
  gridOf s.height s.width fun y x => gridAt s.frame 0 y x - mc p m s.mb y x

/-- What an encoding step produces: the tag, the coded coefficients, the coded field (of a Predicted frame), the
reconstruction. -/
structure Encoded where
  tag   : FrameType
  coefs : Grid F64
  field : Option (Grid Vec)
  recon : Grid Byte
deriving DecidableEq, Repr

/-- `enc_intra(F)` (R138). -/
def State.encIntra (s : State) : Encoded :=
  let cc := encCoef (s.quantized .intra s.frame)
  ⟨.intra, cc, none, s.reconIntra (decCoef cc)⟩

/-- `enc_pred(F, REC_E)` (R139): DPCM-decode first, then dequantize; the reconstruction reads the old frame. -/
def State.encPred (s : State) : Encoded :=
  let p := s.pixels .recE
  let m := s.searchMap
  let cc := encCoef (s.quantized .predicted (s.residualOf p m))
  let mcd := encField m
  ⟨.predicted, cc, some mcd, s.reconPred p (decField mcd) (decCoef cc)⟩

/-- The encoder "chooses the frame type from its own state" (R137). -/
def State.encoded (s : State) : Encoded := if s.steadyE then s.encPred else s.encIntra

/-- The coded field is written for a Predicted frame only (R137, R140). -/
def Memory.putCodedField (m : Memory) : Option (Grid Vec) → Memory
  | none => m
  | some g => m.putField g

/-- The commit of ENCFRM (R137, R145); the RES region becomes unspecified (R140; log 4). -/
def State.commitEnc (s : State) (e : Encoded) : State :=
  { s with
    mem := (((s.mem.putCoefs e.coefs).putCodedField e.field).putPixels .recE e.recon).forget s.draw
      (.res, s.height, s.width)
    encFtype := e.tag.tag, steadyE := true, encFcnt := s.encFcnt + 1#32, draw := s.draw + 1 }

/-- ENCFRM (R137). -/
def execEncfrm (s : State) : Result := finish s.scheck (fun s => s.commitEnc s.encoded) s

/-- `dec_intra()` (R142). -/
def State.decIntra (s : State) : Grid Byte := s.reconIntra (decCoef s.coefs)

/-- `dec_pred(REC_D)` (R143). -/
def State.decPred (s : State) : Grid Byte := s.reconPred (s.pixels .recD) (decField s.field) (decCoef s.coefs)

/-- The frame DECFRM produces, by the tag of DEC_FTYPE (R141). -/
def State.decoded (s : State) : Grid Byte :=
  match frameTypeOf s.decFtype with
  | some .predicted => s.decPred
  | _ => s.decIntra

/-- The commit of DECFRM (R141, R145); the RES region becomes unspecified (R141; log 4). -/
def State.commitDec (s : State) (recon : Grid Byte) : State :=
  { s with
    mem := (s.mem.putPixels .recD recon).forget s.draw (.res, s.height, s.width)
    steadyD := true, decFcnt := s.decFcnt + 1#32, draw := s.draw + 1 }

/-- DECFRM (R141). -/
def execDecfrm (s : State) : Result := finish s.checkDecfrm (fun s => s.commitDec s.decoded) s

/-- RSTENC: start a fresh encoding session (R146). -/
def execRstenc (s : State) : Result := finish none (fun s => s.freshEncoder) s

/-- RSTDEC: start a fresh decoding session (R147). -/
def execRstdec (s : State) : Result := finish none (fun s => s.freshDecoder) s

end Sys2Proof.Machine
end

