-- ==== Sys2Proof/Machine/System.lean ====
section
/-! DEFINITION. The system command (spec/45_system.md R150). -/

namespace Sys2Proof.Machine

/-- NOP: nothing beyond the completion handshake (R150). -/
def execNop (s : State) : Result := finish none (fun s => s) s

end Sys2Proof.Machine
end

