-- ==== Sys2Proof/Machine/Dispatch.lean ====
section
/-! DEFINITION. The meaning of every command: its whole effect with its completion or its error (spec/30_encoding.md R78). -/

namespace Sys2Proof.Machine

def exec (i : Instr) (s : State) : Host.Outcome State Fault Refusal :=
  match i with
  | .nop => Sys2Proof.Machine.execNop s
  | .fft => Sys2Proof.Machine.execFft s
  | .ifft => Sys2Proof.Machine.execIfft s
  | .dct1d => Sys2Proof.Machine.execDct1d s
  | .idct1d => Sys2Proof.Machine.execIdct1d s
  | .dct2d => Sys2Proof.Machine.execDct2d s
  | .idct2d => Sys2Proof.Machine.execIdct2d s
  | .bdct2d => Sys2Proof.Machine.execBdct2d s
  | .ibdct2d => Sys2Proof.Machine.execIbdct2d s
  | .meblk => Sys2Proof.Machine.execMeblk s
  | .memap => Sys2Proof.Machine.execMemap s
  | .quantI => Sys2Proof.Machine.execQuantI s
  | .quantP => Sys2Proof.Machine.execQuantP s
  | .dequantI => Sys2Proof.Machine.execDequantI s
  | .dequantP => Sys2Proof.Machine.execDequantP s
  | .dpcmencC => Sys2Proof.Machine.execDpcmencC s
  | .dpcmdecC => Sys2Proof.Machine.execDpcmdecC s
  | .dpcmencV => Sys2Proof.Machine.execDpcmencV s
  | .dpcmdecV => Sys2Proof.Machine.execDpcmdecV s
  | .encfrm => Sys2Proof.Machine.execEncfrm s
  | .decfrm => Sys2Proof.Machine.execDecfrm s
  | .rstenc => Sys2Proof.Machine.execRstenc s
  | .rstdec => Sys2Proof.Machine.execRstdec s

end Sys2Proof.Machine
end

