-- ==== Sys2Proof/Machine/Engine.lean ====
section
/-! DEFINITION. One turn of the machine: the engine performs the running command as one atomic step, or the host has a turn
(spec/00_scope.md R7, spec/60_exceptions.md R162; logs 1 and 2). -/

namespace Sys2Proof.Machine

/-- The engine's atomic step: `execute(decode(w))`; an illegal word ends with IllegalCommand (R80, R154, R162). -/
def runCommand (s : State) : Result :=
  match decode s.cmd with
  | .ok i => exec i s
  | .error _ => .next (s.raise .illegalCommand)

/-- One turn: while a command runs the host has the turns its duration leaves it, then the command takes effect. -/
def turn (s : State) : Result :=
  if s.busy then
    (if s.wait = 0 then runCommand s else hostTurn { s with wait := s.wait - 1 })
  else hostTurn s

/-- The state in which the command `w` has just been accepted and takes effect at once: the duration 0 is one R185 allows. -/
def State.withCommand (s : State) (w : Word) : State := s.accept w 0

end Sys2Proof.Machine
end

