-- ==== Sys2Proof/Machine/Step.lean ====
section
/-! DEFINITION. The step, and where it takes its next command from. -/

namespace Sys2Proof.Machine

/-- One step: one turn of the machine. -/
def step (s : State) : Host.Outcome State Fault Refusal := Sys2Proof.Machine.turn s

/-- `s` with the command of these bits accepted, so that the next step performs it (log 1). -/
def State.withFetchWord (s : State) (nbits w : Nat) : State := s.withCommand (BitVec.ofNat 32 (w % 2 ^ nbits))

end Sys2Proof.Machine
end

