-- ==== Sys2Proof/Safety.lean ====
section
/-! DEFINITION. The terms the claims are stated in: safe runs, the invariant of the machine, frames, the conditions under which
the commands complete, and what it is to round to nearest. -/

namespace Sys2Proof.Machine

/-! Runs. -/

/-- `k` steps of the machine. -/
def runFor (k : Nat) (s : State) : Result := Host.Core.run Sys2Proof.core k s

/-- A run without a hazard (R181): the one way this machine stops. -/
def hazardFree (k : Nat) (s : State) : Prop := ∀ off, runFor k s ≠ .fault (.hazard off)

/-- The next state of an outcome, if it has one. -/
def nextOf : Result → Option State
  | .next s => some s
  | _ => none

/-! The invariant. -/

/-- "A command never ends with both DONE and ERR set"; a running command has neither; ERRCODE is 0 after a command without
error, an error's code after one with ERR, and never one of 7 to 15 (R153, R162, R163). -/
abbrev State.flagsOk (s : State) : Prop :=
  ¬(s.done = true ∧ s.err = true) ∧
  (s.busy = true → s.done = false ∧ s.err = false ∧ s.errcode = 0#4) ∧
  (s.err = true → s.errcode ≠ 0#4) ∧ (s.done = true → s.errcode = 0#4) ∧ s.errcode.toNat ≤ 6

/-- A pipeline in AwaitingFirstFrame has its counter at 0 (R38, R48). -/
abbrev State.countersOk (s : State) : Prop :=
  (s.steadyE = false → s.encFcnt = 0#32) ∧ (s.steadyD = false → s.decFcnt = 0#32)

/-- A pipeline in Steady has a configuration its frames were coded with: the session checks pass (R49, R136). -/
abbrev State.sessionOk (s : State) : Prop :=
  (s.steadyE = true → s.scheck = none) ∧ (s.steadyD = true → s.scheck = none)

/-- The invariant: canonical memories, consistent flags, counters and sessions, and a frame type in ENC_FTYPE (R36). -/
abbrev State.Inv (s : State) : Prop :=
  s.mem.wf ∧ s.flagsOk ∧ s.countersOk ∧ s.sessionOk ∧ (s.encFtype = 0#2 ∨ s.encFtype = 1#2)

/-! Frames. -/

/-- `t` is `s` after a command that wrote memory alone and ended without error: every register, flag and field but DONE, BUSY
and the memories is unchanged. -/
def DoneAs (s t : State) : Prop := t = { s with mem := t.mem, done := true, busy := false }

/-- `s` after a command that ended with this error (R160, R162). -/
def failedWith (s : State) (e : ErrKind) : State := { s with err := true, errcode := e.code, busy := false }

/-- Every byte of every memory outside the listed regions (buffer, rows, columns) reads as before. -/
def KeptOutside (m m' : Memory) (regions : List (Buf × Nat × Nat)) : Prop :=
  ∀ (b : Buf) (off : Nat),
    (∀ r ∈ regions, r.1 = b → ∀ y < r.2.1, ∀ x < r.2.2, off < b.addr y x ∨ b.addr y x + b.elemSize ≤ off) →
    m'.byte b off = m.byte b off

/-! Conditions. -/

/-- The frame is in range (R101). -/
def FrameOk (s : State) : Prop := 1 ≤ s.width ∧ s.width ≤ 512 ∧ 1 ≤ s.height ∧ s.height ≤ 512

/-- The motion blocks fit the frame (R112). -/
def FieldOk (s : State) : Prop := FrameOk s ∧ 1 ≤ s.mb ∧ s.mb ≤ 64 ∧ s.mb ∣ s.width ∧ s.mb ∣ s.height

/-- QCHECK passes (42_quantizer.md, before R121). The weight of row v and column u is the byte at 0x1000 + 4*(32*v + u)
(R61). -/
def QuantOk (s : State) : Prop :=
  FrameOk s ∧ 1 ≤ s.scale ∧ (∃ k ≤ 5, s.db = 2 ^ k) ∧ s.db ∣ s.width ∧ s.db ∣ s.height ∧
  ∀ v < s.db, ∀ u < s.db, s.mem.byte .wmat (0x1000 + 4 * (32 * v + u)) ≠ 0#8

/-- SCHECK passes (R136). -/
def SessionOk (s : State) : Prop := FieldOk s ∧ QuantOk s

/-- R109's result: (0, 0) when the co-located blocks match; otherwise the candidate of least cost in the range of R108, the first
of them in the order i, then j. -/
def IsBestVector (c : Int → Int → Nat) (W H bx yb b R : Nat) (i j : Int) : Prop :=
  let inRange (i j : Int) : Prop :=
    max (-(R : Int)) ((bx : Int) + b - W) ≤ i ∧ i ≤ min (R : Int) bx ∧
    max (-(R : Int)) ((yb : Int) + b - H) ≤ j ∧ j ≤ min (R : Int) yb
  if c 0 0 = 0 then i = 0 ∧ j = 0
  else
    inRange i j ∧ ∀ i' j', inRange i' j' → c i j ≤ c i' j' ∧ (i' < i ∨ (i' = i ∧ j' < j) → c i j < c i' j')

/-! Rounding. -/

/-- The real number of a finite value. -/
def ratOf (x : F64) : ℚ := (value x : ℚ) / 2 ^ 1074

/-- `r` is `q` rounded to nearest, ties to even (R9): the nearest finite value, with an even last bit when another is as near;
an infinity of q's sign from half a unit in the last place beyond the greatest finite value on. -/
def IsRounding (q : ℚ) (r : F64) : Prop :=
  if |q| < 2 ^ 1024 - 2 ^ 970 then
    isFinite r = true ∧ ∀ c : F64, isFinite c = true →
      |ratOf r - q| ≤ |ratOf c - q| ∧ (|ratOf r - q| = |ratOf c - q| → ratOf c ≠ ratOf r → magBits r % 2 = 0)
  else isInf r = true ∧ (signBit r = true ↔ q < 0)

/-- `r` is the binary64 value nearest to a real number that no other is as near to; +0.0 for zero (R15). -/
def IsNearest (x : ℝ) (r : F64) : Prop :=
  isFinite r = true ∧ (x = 0 → r = posZero) ∧
  ∀ c : F64, isFinite c = true → ratOf c ≠ ratOf r → |(ratOf r : ℝ) - x| < |(ratOf c : ℝ) - x|

/-! Host accesses. -/

/-- The offsets of the seven buffers (R54). -/
def InBuffer (off : Nat) : Prop :=
  (0x010000 ≤ off ∧ off < 0x014000) ∨ (0x100000 ≤ off ∧ off < 0x1C0000) ∨ (0x200000 ≤ off ∧ off < 0x280000) ∨
  (0x400000 ≤ off ∧ off < 0x700000)

/-- An access that is no bus error (R62 to R65): 32 bits at a multiple of 4 in the register block and WMAT; 1, 2, 4 or 8 bytes at
a multiple of the size in a buffer. -/
def Accessible (off size : Nat) : Prop :=
  (off < 0x002000 ∧ size = 4 ∧ off % 4 = 0) ∨
  (InBuffer off ∧ (size = 1 ∨ size = 2 ∨ size = 4 ∨ size = 8) ∧ off % size = 0)

/-- What is permitted while BUSY = 1: R181's list (reads of ID; reads and writes of CTRL and STATUS; writes of CMD), and with it a
read of CMD, which is log 10 (DEDUCED: R164 says what CMD reads then, and U4 lists CMD without restriction). -/
def PermittedBusy (write : Bool) (off : Nat) : Prop :=
  off = 0x004 ∨ off = 0x008 ∨ off = 0x00C ∨ (off = 0x000 ∧ write = false)

/-- A host action that neither is a hazard while a command runs nor resets the engine (R181, R186; a read of CMD is none by
log 10). -/
def Quiet : HostOp → Prop
  | .read off size => Accessible off.toNat size → PermittedBusy false off.toNat
  | .write off size v =>
    Accessible off.toNat size → PermittedBusy true off.toNat ∧ ¬(off.toNat = 0x004 ∧ v.getLsbD 0 = true)
  | .wait => True
  | .idle => True

/-- The host waits for BUSY = 0 after each CMD write before its next access (R180, R187). `running` says that a command may be
running. -/
def waitsForEach : Bool → List HostOp → Bool
  | _, [] => true
  | running, .idle :: rest => waitsForEach running rest
  | _, .wait :: rest => waitsForEach false rest
  | running, .read _ _ :: rest => !running && waitsForEach false rest
  | running, .write off _ _ :: rest => !running && waitsForEach (off == 0x00C#24) rest

/-! The closed loop. -/

/-- One frame through both pipelines (R148): the host places it in FIN, an ENCFRM runs, the host copies ENC_FTYPE to DEC_FTYPE, a
DECFRM runs. `none` if a command stops or ends with an error. -/
def codeFrame (s : State) (frame : Grid Byte) : Option State :=
  let e := { s with mem := s.mem.putPixels .fin frame }.withCommand (encode .encfrm)
  match nextOf (exec .encfrm e) with
  | none => none
  | some t =>
    if t.err then none
    else
      match nextOf (exec .decfrm ((t.writeReg .decFtype (t.readReg .encFtype)).withCommand (encode .decfrm))) with
      | none => none
      | some u => if u.err then none else some u

/-- A sequence of frames through both pipelines. -/
def codeFrames (s : State) : List (Grid Byte) → Option State
  | [] => some s
  | f :: fs =>
    match codeFrame s f with
    | none => none
    | some t => codeFrames t fs

end Sys2Proof.Machine
end

