-- ==== Sys2Proof/Certificates/Slice0/Obligations.lean ====
section
/-! DEFINITION. The statements for the provers, in the order of OBLIGATIONS.json. `KeptOutside m m' l` says that every byte outside
the listed regions (buffer, rows, columns) reads as before; `DoneAs s t` says that t is s with DONE set, BUSY clear and the memories
of t; `failedWith s e` is s with ERR set, ERRCODE the code of e, BUSY clear and nothing else changed. -/

open Sys2Proof Sys2Proof.Machine

/-! Encoding. -/

/-- Each of the 23 words of R78, as a number, decodes to its command. -/
def Obligations.TableWordsDecode : Prop :=
  decodeTableWord 32 0x00000000 = some .nop ∧ decodeTableWord 32 0x00000001 = some .fft ∧
  decodeTableWord 32 0x00000002 = some .ifft ∧ decodeTableWord 32 0x00000003 = some .dct1d ∧
  decodeTableWord 32 0x00000004 = some .idct1d ∧ decodeTableWord 32 0x00000005 = some .dct2d ∧
  decodeTableWord 32 0x00000006 = some .idct2d ∧ decodeTableWord 32 0x00000007 = some .bdct2d ∧
  decodeTableWord 32 0x00000008 = some .ibdct2d ∧ decodeTableWord 32 0x00000010 = some .meblk ∧
  decodeTableWord 32 0x00000011 = some .memap ∧ decodeTableWord 32 0x00000020 = some .quantI ∧
  decodeTableWord 32 0x00000120 = some .quantP ∧ decodeTableWord 32 0x00000021 = some .dequantI ∧
  decodeTableWord 32 0x00000121 = some .dequantP ∧ decodeTableWord 32 0x00000030 = some .dpcmencC ∧
  decodeTableWord 32 0x00000031 = some .dpcmdecC ∧ decodeTableWord 32 0x00000032 = some .dpcmencV ∧
  decodeTableWord 32 0x00000033 = some .dpcmdecV ∧ decodeTableWord 32 0x00000040 = some .encfrm ∧
  decodeTableWord 32 0x00000041 = some .decfrm ∧ decodeTableWord 32 0x00000042 = some .rstenc ∧
  decodeTableWord 32 0x00000043 = some .rstdec

/-- R80 and R154: a word is a command exactly when it is one of the 23 words of R78; every other word is accepted like any command
and its step then ends with IllegalCommand (code 6), changing nothing else. -/
def Obligations.EveryOtherWordIsIllegal : Prop :=
  ∀ w : Word,
    ((∃ i, decode w = .ok i) ↔
      w.toNat ∈ [0x000, 0x001, 0x002, 0x003, 0x004, 0x005, 0x006, 0x007, 0x008, 0x010, 0x011, 0x020, 0x120, 0x021, 0x121,
        0x030, 0x031, 0x032, 0x033, 0x040, 0x041, 0x042, 0x043]) ∧
    (w.toNat ∉ [0x000, 0x001, 0x002, 0x003, 0x004, 0x005, 0x006, 0x007, 0x008, 0x010, 0x011, 0x020, 0x120, 0x021, 0x121,
        0x030, 0x031, 0x032, 0x033, 0x040, 0x041, 0x042, 0x043] →
      (∀ s : State, s.busy = false → (s.writeCmd w).busy = true ∧ (s.writeCmd w).cmd = w) ∧
      ∀ s : State, s.busy = true → s.wait = 0 → s.cmd = w →
        step s = .next { s with err := true, errcode := 6#4, busy := false })

/-- Decoding and encoding are inverse: every command is well formed and is the decoding of its word, and a word decodes to a
command only if it is that command's word; a word decodes exactly when its three fields pass the checks of R77, R79 and R80. -/
def Obligations.DecodeAndEncodeAgree : Prop :=
  (∀ i : Instr, i.wellFormed = true ∧ decode (encode i) = .ok i) ∧
  (∀ (w : Word) (i : Instr), decode w = .ok i → w = encode i) ∧
  ∀ w : Word, (∃ i, decode w = .ok i) ↔ (splitWord w).wellFormed = true

/-! The step. -/

/-- A step with a command running and no turn of the host left runs the decoded command: `exec`, and nothing around it (the turns
of the host are the model's, log 2). So a command's word placed where the step takes its next command from is run next, with every
memory as it was (log 1). -/
def Obligations.StepRunsTheDecodedCommand : Prop :=
  (∀ (s : State) (i : Instr), s.busy = true → s.wait = 0 → decode s.cmd = .ok i → step s = exec i s) ∧
  ∀ (s : State) (i : Instr),
    step (s.withFetchWord 32 (encode i).toNat) = exec i (s.withFetchWord 32 (encode i).toNat) ∧
    s.withFetchWord 32 (encode i).toNat =
      { s with
        cmd := encode i, busy := true, done := false, err := false, errcode := 0#4, runMetric := s.metric, wait := 0 }

/-- In every other state the step is the host's turn (the model's queue of host accesses, log 1; the turns a command's duration
leaves the host, log 2): its next access, in order; a WAIT reads STATUS (the response is the model's, log 8) and is over when BUSY is 0; an empty queue changes nothing. -/
def Obligations.StepGivesTheHostItsTurn : Prop :=
  ∀ s u : State,
    ((s.busy = false ∧ u = s) ∨ (s.busy = true ∧ 0 < s.wait ∧ u = { s with wait := s.wait - 1 })) →
    (s.host = [] → step s = .next u) ∧
    ∀ rest,
      (s.host = .idle :: rest → step s = .next { u with host := rest }) ∧
      (s.host = .wait :: rest →
        step s = .next { u with
          resp := .data (s.statusWord.setWidth 64)
          host := if s.busy then s.host else rest }) ∧
      (∀ off size, s.host = .read off size :: rest → step s = ({ u with host := rest } : State).busRead off size) ∧
      ∀ off size v, s.host = .write off size v :: rest → step s = ({ u with host := rest } : State).busWrite off size v

/-- The machine stops only with the hazard fault of R181, and exactly when the host's turn (logs 1 and 2) while a command runs is a
forbidden access that is no bus error; it never refuses. Forbidden is what R181 does not permit, but for a read of CMD: that it
passes is the model's reading (log 10, DEDUCED), not R181's list. -/
def Obligations.OnlyForbiddenAccessesStopTheMachine : Prop :=
  ∀ s : State,
    (∀ r, step s ≠ .refused r) ∧
    ∀ off : Offset,
      step s = .fault (.hazard off) ↔
        s.busy = true ∧ 0 < s.wait ∧
        ∃ size rest, Accessible off.toNat size ∧
          ((s.host = .read off size :: rest ∧ ¬PermittedBusy false off.toNat) ∨
           ∃ v, s.host = .write off size v :: rest ∧ ¬PermittedBusy true off.toNat)

/-! Every command. -/

/-- R162 and R160: a command that is run ends in exactly one of two ways, with BUSY = 0: DONE is set and the error fields are as
they were, or ERR and ERRCODE are set and nothing else changes at all. -/
def Obligations.CommandEndsInOneOfTwoWays : Prop :=
  ∀ (i : Instr) (s : State),
    (∃ t, exec i s = .next t ∧ t.busy = false ∧ t.done = true ∧ t.err = s.err ∧ t.errcode = s.errcode) ∨
    ∃ e, exec i s = .next (failedWith s e) ∧ failedWith s e = { s with err := true, errcode := e.code, busy := false }

/-- R84 and R68: a command changes no register and no flag but those of the completion (R162) and those its row of R84 lists as
written: ME_VEC and ME_COST (MEBLK); STEADY_E and ENC_FCNT (ENCFRM, RSTENC) and ENC_FTYPE (ENCFRM); STEADY_D and DEC_FCNT (DECFRM,
RSTDEC). Every byte outside the regions its row lists as written reads as before. The model's own counter of free values moves for
ENCFRM and DECFRM (log 11). -/
def Obligations.CommandWritesOnlyWhatItsRowLists : Prop :=
  ∀ (i : Instr) (s t : State), exec i s = .next t →
    t = { s with
      mem := t.mem, busy := t.busy, done := t.done, err := t.err, errcode := t.errcode
      meVec := if i = .meblk then t.meVec else s.meVec
      meCost := if i = .meblk then t.meCost else s.meCost
      steadyE := if i = .encfrm ∨ i = .rstenc then t.steadyE else s.steadyE
      encFcnt := if i = .encfrm ∨ i = .rstenc then t.encFcnt else s.encFcnt
      encFtype := if i = .encfrm then t.encFtype else s.encFtype
      steadyD := if i = .decfrm ∨ i = .rstdec then t.steadyD else s.steadyD
      decFcnt := if i = .decfrm ∨ i = .rstdec then t.decFcnt else s.decFcnt
      draw := if i = .encfrm ∨ i = .decfrm then t.draw else s.draw } ∧
    match i with
    | .nop | .meblk | .rstenc | .rstdec => t.mem = s.mem
    | .fft | .ifft | .dct1d | .idct1d => KeptOutside s.mem t.mem [(.vbuf, 1, 2 * s.len)]
    | .dct2d | .idct2d | .bdct2d | .ibdct2d | .quantI | .quantP | .dpcmencC | .dpcmdecC =>
      KeptOutside s.mem t.mem [(.coef, s.height, s.width)]
    | .memap | .dpcmencV | .dpcmdecV => KeptOutside s.mem t.mem [(.mv, s.height / s.mb, s.width / s.mb)]
    | .dequantI | .dequantP => KeptOutside s.mem t.mem [(.res, s.height, s.width)]
    | .encfrm =>
      KeptOutside s.mem t.mem
        ([(.coef, s.height, s.width), (.recE, s.height, s.width), (.res, s.height, s.width)] ++
          if s.steadyE then [(.mv, s.height / s.mb, s.width / s.mb)] else [])
    | .decfrm => KeptOutside s.mem t.mem [(.recD, s.height, s.width), (.res, s.height, s.width)]

/-! Reset and the invariant. -/

/-- R52 and R175: what every register and every WMAT entry reads as after power-on reset, and the interrupt line. -/
def Obligations.ResetHoldsTheTableOfValues : Prop :=
  let r := State.reset
  r.readReg .id = 0x48544931#32 ∧ r.readReg .ctrl = 0#32 ∧ r.readReg .status = 0#32 ∧ r.readReg .cmd = 0#32 ∧
  r.readReg .frameW = 0#32 ∧ r.readReg .frameH = 0#32 ∧ r.readReg .mbSize = 8#32 ∧ r.readReg .dbSize = 8#32 ∧
  r.readReg .qscale = 4#32 ∧ r.readReg .searchR = 16#32 ∧ r.readReg .vlen = 0#32 ∧ r.readReg .tileW = 8#32 ∧
  r.readReg .tileH = 8#32 ∧ r.readReg .meBx = 0#32 ∧ r.readReg .meBy = 0#32 ∧ r.readReg .meVec = 0#32 ∧
  r.readReg .meCost = 0#32 ∧ r.readReg .encFtype = 0#32 ∧ r.readReg .decFtype = 0#32 ∧ r.readReg .encFcnt = 0#32 ∧
  r.readReg .decFcnt = 0#32 ∧ r.irq = false ∧ r.metric = false ∧
  ∀ v u : Nat, v < 32 → u < 32 → r.mem.elem .wmat v u = 16

/-- The invariant holds after reset. -/
def Obligations.ResetMeetsTheInvariant : Prop := State.reset.Inv

/-- Every step keeps the invariant: memories in canonical form, flags and ERRCODE consistent (R153, R162, R163), counters 0 while
AwaitingFirstFrame (R38, R48), a configuration that passes the session checks while Steady (R49, R136), a frame type in ENC_FTYPE
(R36). -/
def Obligations.StepKeepsTheInvariant : Prop :=
  ∀ s t : State, s.Inv → step s = .next t → t.Inv

/-! System and session commands. -/

/-- R150: a word 0 written to CMD is accepted (BUSY set; DONE, ERR and ERRCODE cleared), and NOP completes without error and has no
other effect. -/
def Obligations.NopDoesNothingButComplete : Prop :=
  (∀ s : State, s.busy = false →
    let t := s.writeCmd 0#32
    t.busy = true ∧ t.done = false ∧ t.err = false ∧ t.errcode = 0#4) ∧
  ∀ s : State, exec .nop s = .next { s with done := true, busy := false }

/-- R146 and R147: RSTENC (RSTDEC) clears STEADY_E and ENC_FCNT (STEADY_D and DEC_FCNT), completes, and changes nothing else. The
next ENCFRM that succeeds is Intra; a Predicted DECFRM before the next Intra one fails with SequenceError. -/
def Obligations.SessionCommandsRestartOnePipeline : Prop :=
  (∀ s : State, exec .rstenc s = .next { s with steadyE := false, encFcnt := 0#32, done := true, busy := false }) ∧
  (∀ s : State, exec .rstdec s = .next { s with steadyD := false, decFcnt := 0#32, done := true, busy := false }) ∧
  (∀ s : State, SessionOk s → s.steadyE = false → ∃ t, exec .encfrm s = .next t ∧ t.encFtype = 0#2 ∧ t.done = true) ∧
  ∀ s : State, SessionOk s → s.steadyD = false → s.decFtype = 1#2 →
    exec .decfrm s = .next (failedWith s .sequenceError)

/-! Transforms. -/

/-- R97 and R98: FFT and IFFT, for every VLEN. With N = VLEN: N > 1024 is InvalidConfig; N no power of two (0 included) is
InvalidSize; N = 2^m replaces VBUF[0..N-1] by its transform, leaves every other byte and register as it was, and completes. -/
def Obligations.FftAndIfftTransformThePrefix : Prop :=
  ∀ s : State,
    (1024 < s.len → exec .fft s = .next (failedWith s .invalidConfig) ∧ exec .ifft s = .next (failedWith s .invalidConfig)) ∧
    (s.len ≤ 1024 → (∀ m, s.len ≠ 2 ^ m) →
      exec .fft s = .next (failedWith s .invalidSize) ∧ exec .ifft s = .next (failedWith s .invalidSize)) ∧
    ∀ m, m ≤ 10 → s.len = 2 ^ m → s.mem.wf →
      (∃ t, exec .fft s = .next t ∧ DoneAs s t ∧ t.vector (2 ^ m) = fft m (s.vector (2 ^ m)) ∧
        KeptOutside s.mem t.mem [(.vbuf, 1, 2 * 2 ^ m)]) ∧
      ∃ t, exec .ifft s = .next t ∧ DoneAs s t ∧ t.vector (2 ^ m) = ifft m (s.vector (2 ^ m)) ∧
        KeptOutside s.mem t.mem [(.vbuf, 1, 2 * 2 ^ m)]

/-- R99 and R100: DCT1D and IDCT1D, for every VLEN. With n = VLEN: 2n > 1024 is InvalidConfig; n no power of two is InvalidSize;
n = 2^m transforms the real parts of VBUF[0..n-1], writes imaginary parts +0.0, leaves every other byte and register, and
completes. -/
def Obligations.Dct1dAndIdct1dTransformThePrefix : Prop :=
  ∀ s : State,
    (512 < s.len →
      exec .dct1d s = .next (failedWith s .invalidConfig) ∧ exec .idct1d s = .next (failedWith s .invalidConfig)) ∧
    (s.len ≤ 512 → (∀ m, s.len ≠ 2 ^ m) →
      exec .dct1d s = .next (failedWith s .invalidSize) ∧ exec .idct1d s = .next (failedWith s .invalidSize)) ∧
    ∀ m, m ≤ 9 → s.len = 2 ^ m → s.mem.wf →
      (∃ t, exec .dct1d s = .next t ∧ DoneAs s t ∧
        t.vector (2 ^ m) = (dct1d ((s.vector (2 ^ m)).map fun c => c.re)).map (fun a => ⟨a, 0#64⟩) ∧
        KeptOutside s.mem t.mem [(.vbuf, 1, 2 * 2 ^ m)]) ∧
      ∃ t, exec .idct1d s = .next t ∧ DoneAs s t ∧
        t.vector (2 ^ m) = (idct1d ((s.vector (2 ^ m)).map fun c => c.re)).map (fun a => ⟨a, 0#64⟩) ∧
        KeptOutside s.mem t.mem [(.vbuf, 1, 2 * 2 ^ m)]

/-- R101 and R102: DCT2D and IDCT2D, for every frame size. Out of 1..512 is InvalidConfig; W or H no power of two is InvalidSize;
otherwise the W x H region of COEF is transformed in place, every other byte and register is left, and the command completes. -/
def Obligations.Dct2dAndIdct2dTransformTheRegion : Prop :=
  ∀ s : State,
    (¬FrameOk s →
      exec .dct2d s = .next (failedWith s .invalidConfig) ∧ exec .idct2d s = .next (failedWith s .invalidConfig)) ∧
    (FrameOk s → (∀ a, s.width ≠ 2 ^ a) ∨ (∀ b, s.height ≠ 2 ^ b) →
      exec .dct2d s = .next (failedWith s .invalidSize) ∧ exec .idct2d s = .next (failedWith s .invalidSize)) ∧
    ∀ a b, a ≤ 9 → b ≤ 9 → s.width = 2 ^ a → s.height = 2 ^ b → s.mem.wf →
      (∃ t, exec .dct2d s = .next t ∧ DoneAs s t ∧ t.coefs = dct2d s.height s.width s.coefs ∧
        KeptOutside s.mem t.mem [(.coef, s.height, s.width)]) ∧
      ∃ t, exec .idct2d s = .next t ∧ DoneAs s t ∧ t.coefs = idct2d s.height s.width s.coefs ∧
        KeptOutside s.mem t.mem [(.coef, s.height, s.width)]

/-- R103 and R104: BDCT2D and IBDCT2D, for every frame and tile size: the three errors in their order, and otherwise the tiles of
the W x H region of COEF transformed in place. -/
def Obligations.Bdct2dAndIbdct2dTransformTheTiles : Prop :=
  ∀ s : State,
    (¬(FrameOk s ∧ 1 ≤ s.tw ∧ s.tw ≤ 512 ∧ 1 ≤ s.th ∧ s.th ≤ 512) →
      exec .bdct2d s = .next (failedWith s .invalidConfig) ∧ exec .ibdct2d s = .next (failedWith s .invalidConfig)) ∧
    (FrameOk s → 1 ≤ s.tw → s.tw ≤ 512 → 1 ≤ s.th → s.th ≤ 512 →
      (¬(s.tw ∣ s.width ∧ s.th ∣ s.height) →
        exec .bdct2d s = .next (failedWith s .invalidBlockSize) ∧
        exec .ibdct2d s = .next (failedWith s .invalidBlockSize)) ∧
      (s.tw ∣ s.width → s.th ∣ s.height → (∀ a, s.tw ≠ 2 ^ a) ∨ (∀ b, s.th ≠ 2 ^ b) →
        exec .bdct2d s = .next (failedWith s .invalidSize) ∧ exec .ibdct2d s = .next (failedWith s .invalidSize)) ∧
      ∀ a b, s.tw = 2 ^ a → s.th = 2 ^ b → s.tw ∣ s.width → s.th ∣ s.height → s.mem.wf →
        (∃ t, exec .bdct2d s = .next t ∧ DoneAs s t ∧ t.coefs = bdct s.height s.width s.th s.tw s.coefs ∧
          KeptOutside s.mem t.mem [(.coef, s.height, s.width)]) ∧
        ∃ t, exec .ibdct2d s = .next t ∧ DoneAs s t ∧ t.coefs = ibdct s.height s.width s.th s.tw s.coefs ∧
          KeptOutside s.mem t.mem [(.coef, s.height, s.width)])

/-- R89: the outputs of `fft` on 2^(m+1) entries are the butterflies of the transforms E and O of the even- and odd-indexed
samples with the factors TW; a vector of length 1 is returned unchanged; the operand order of `cmul` does not matter. -/
def Obligations.FftIsTheRadixTwoRecursion : Prop :=
  (∀ x : Cplx, fft 0 [x] = [x]) ∧
  (∀ (m : Nat) (x E O : List Cplx), x.length = 2 ^ (m + 1) →
    E = fft m ((List.range (2 ^ m)).map fun j => x.getD (2 * j) czero) →
    O = fft m ((List.range (2 ^ m)).map fun j => x.getD (2 * j + 1) czero) →
    (fft (m + 1) x).length = 2 ^ (m + 1) ∧
    ∀ k < 2 ^ m,
      (fft (m + 1) x)[k]? = some (cadd (E.getD k czero) (cmul (twiddle (2 ^ (m + 1)) k) (O.getD k czero))) ∧
      (fft (m + 1) x)[k + 2 ^ m]? = some (csub (E.getD k czero) (cmul (twiddle (2 ^ (m + 1)) k) (O.getD k czero)))) ∧
  ∀ x y : Cplx, cmul x y = cmul y x

/-- R90: the iterative radix-2 pipeline (bit-reversed load, then stages of span 2, 4, ..., 2^m) gives the result of the recursion,
bit for bit, for every length 2^m. -/
def Obligations.IterativePipelineEqualsRecursion : Prop :=
  ∀ (m : Nat) (x : List Cplx), x.length = 2 ^ m → fftIter m x = fft m x

/-- R91, and the corner of R98: `ifft` is conjugate, transform, conjugate and multiply both parts by 2^-m; on one entry it changes
nothing, bit for bit. -/
def Obligations.IfftIsTheConjugateTrick : Prop :=
  (∀ (m : Nat) (x : List Cplx), x.length = 2 ^ m →
    (ifft m x).length = 2 ^ m ∧
    ∀ k < 2 ^ m, ∀ y, (fft m (x.map fun c => ⟨c.re, fneg c.im⟩))[k]? = some y →
      (ifft m x)[k]? = some ⟨fmul y.re (twoToMinus m), fmul (fneg y.im) (twoToMinus m)⟩) ∧
  (∀ m ≤ 10, isFinite (twoToMinus m) = true ∧ ratOf (twoToMinus m) = 1 / 2 ^ m) ∧
  ∀ x : Cplx, ifft 0 [x] = [x]

/-- R92 and R93, for n = 2^m values. Output k of `dct1d` is the real part of output k of the FFT of the reversed copy followed by the
original, times ROT(n, k). `idct1d` is the real part of the last n samples of the inverse FFT of the spectrum Z: Z[0] real, Z[n]
zero, Z[k] rotated by ROTC(n, k), Z[2n - k] its conjugate. -/
def Obligations.DctPairIsBuiltOnTheFft : Prop :=
  ∀ (m : Nat) (u : List F64), u.length = 2 ^ m →
    let n := 2 ^ m
    let y : List Cplx := (List.range (2 * n)).map fun p =>
      if p < n then ⟨u.getD (n - 1 - p) 0#64, 0#64⟩ else ⟨u.getD (p - n) 0#64, 0#64⟩
    let z : List Cplx := (List.range (2 * n)).map fun j =>
      if j = 0 then ⟨u.getD 0 0#64, 0#64⟩
      else if j < n then cmul ⟨u.getD j 0#64, 0#64⟩ (rotInv n j)
      else if j = n then ⟨0#64, 0#64⟩
      else conj (cmul ⟨u.getD (2 * n - j) 0#64, 0#64⟩ (rotInv n (2 * n - j)))
    (dct1d u).length = n ∧ (∀ k < n, (dct1d u)[k]? = some (cmul ((fft (m + 1) y).getD k czero) (rotFwd n k)).re) ∧
    (idct1d u).length = n ∧ ∀ p < n, (idct1d u)[p]? = some ((ifft (m + 1) z).getD (n + p) czero).re

/-- R95: a 2-D transform runs every row first, then every column, in both directions. -/
def Obligations.RowsAreTransformedBeforeColumns : Prop :=
  ∀ (a b : Nat) (M : Grid F64) (f : List F64 → List F64) (g : Grid F64 → Grid F64),
    (f = dct1d ∧ g = dct2d (2 ^ b) (2 ^ a) ∨ f = idct1d ∧ g = idct2d (2 ^ b) (2 ^ a)) →
    M.length = 2 ^ b → (∀ r ∈ M, r.length = 2 ^ a) →
    ∀ y < 2 ^ b, ∀ x < 2 ^ a,
      gridAt (g M) 0#64 y x =
        (f ((List.range (2 ^ b)).map fun r => (f (M.getD r [])).getD x 0#64)).getD y 0#64

/-- R96: element (y, x) of a block transform is element (y mod th, x mod tw) of the 2-D transform of its tile, which depends on
that tile's elements alone; with one tile of the whole frame, BDCT2D is DCT2D (R103). -/
def Obligations.TilesAreTransformedIndependently : Prop :=
  (∀ (h w th tw : Nat) (M : Grid F64), 0 < th → 0 < tw → th ∣ h → tw ∣ w → M.length = h → (∀ r ∈ M, r.length = w) →
    ∀ y < h, ∀ x < w,
      let T : Grid F64 := (List.range th).map fun v => (List.range tw).map fun u =>
        gridAt M 0#64 (y / th * th + v) (x / tw * tw + u)
      gridAt (bdct h w th tw M) 0#64 y x = gridAt (dct2d th tw T) 0#64 (y % th) (x % tw) ∧
      gridAt (ibdct h w th tw M) 0#64 y x = gridAt (idct2d th tw T) 0#64 (y % th) (x % tw)) ∧
  ∀ (h w : Nat) (M : Grid F64), 0 < h → 0 < w → M.length = h → (∀ r ∈ M, r.length = w) →
    bdct h w h w M = dct2d h w M ∧ ibdct h w h w M = idct2d h w M

/-! Motion. -/

/-- R107: the cost is the exact sum over the block of |a - c| (SAD) or (a - c)^2 (SSD), a the pixel of the target and c the pixel
of the reference displaced by (-i, -j); with b up to 64 it never exceeds 1044480 (SAD) or 266342400 (SSD), below 2^32. -/
def Obligations.CostIsTheBlockSum : Prop :=
  ∀ (ref tgt : Grid Byte) (bx yb b : Nat) (ssd : Bool) (i j : Int),
    (cost ref tgt bx yb b ssd i j : Int) =
      ∑ v ∈ Finset.range b, ∑ u ∈ Finset.range b,
        (let d := ((gridAt tgt 0#8 (yb + v) (bx + u)).toNat : Int) -
            ((gridAt ref 0#8 ((yb : Int) + v - j).toNat ((bx : Int) + u - i).toNat).toNat : Int)
          if ssd then d ^ 2 else |d|) ∧
    (b ≤ 64 → cost ref tgt bx yb b false i j ≤ 1044480 ∧ cost ref tgt bx yb b true i j ≤ 266342400)

/-- R108: the candidates are exactly the displacements in the range; for a block inside the frame (0, 0) is one of them, every
pixel a candidate's cost reads is inside the frame, and a block as wide as the frame has only i = 0. Each comes once, in the order
i, then j. -/
def Obligations.SearchRangeStaysInsideTheFrame : Prop :=
  ∀ W H R bx yb b : Nat, bx + b ≤ W → yb + b ≤ H →
    (∀ i j : Int, (i, j) ∈ candidates W H R bx yb b ↔
      max (-(R : Int)) ((bx : Int) + b - W) ≤ i ∧ i ≤ min (R : Int) bx ∧
      max (-(R : Int)) ((yb : Int) + b - H) ≤ j ∧ j ≤ min (R : Int) yb) ∧
    ((0 : Int), (0 : Int)) ∈ candidates W H R bx yb b ∧
    (∀ i j : Int, (i, j) ∈ candidates W H R bx yb b → ∀ v < b, ∀ u < b,
      0 ≤ (yb : Int) + v - j ∧ (yb : Int) + v - j < H ∧ 0 ≤ (bx : Int) + u - i ∧ (bx : Int) + u - i < W) ∧
    (b = W → ∀ i j : Int, (i, j) ∈ candidates W H R bx yb b → i = 0) ∧
    (candidates W H R bx yb b).Pairwise fun p q => p.1 < q.1 ∨ (p.1 = q.1 ∧ p.2 < q.2)

/-- R111: MEBLK, for every configuration: a block size or frame out of range or a block outside the frame is InvalidConfig;
otherwise ME_VEC holds the vector of R109 (dx low, dy high, both fitting in 16 bits), ME_COST its cost by the metric sampled at
acceptance, nothing else changes, and the command completes. -/
def Obligations.MeblkFindsTheFirstLeastCost : Prop :=
  ∀ s : State,
    (¬(FrameOk s ∧ 1 ≤ s.mb ∧ s.mb ≤ 64 ∧ s.bx + s.mb ≤ s.width ∧ s.blockY + s.mb ≤ s.height) →
      exec .meblk s = .next (failedWith s .invalidConfig)) ∧
    (FrameOk s → 1 ≤ s.mb → s.mb ≤ 64 → s.bx + s.mb ≤ s.width → s.blockY + s.mb ≤ s.height →
      ∃ (t : State) (i j : Int),
        exec .meblk s = .next t ∧
        t = { s with meVec := t.meVec, meCost := t.meCost, done := true, busy := false } ∧
        IsBestVector (cost (s.pixels .recE) (s.pixels .fin) s.bx s.blockY s.mb s.runMetric)
          s.width s.height s.bx s.blockY s.mb s.radius i j ∧
        (t.meVec.extractLsb' 0 16).toInt = i ∧ (t.meVec.extractLsb' 16 16).toInt = j ∧
        t.meCost.toNat = cost (s.pixels .recE) (s.pixels .fin) s.bx s.blockY s.mb s.runMetric i j)

/-- R112: MEMAP, for every configuration: the two errors in their order; otherwise every element of the MV field is the vector of
R109 of its block, no other byte changes, and the command completes. -/
def Obligations.MemapSearchesEveryBlock : Prop :=
  ∀ s : State,
    (¬(FrameOk s ∧ 1 ≤ s.mb ∧ s.mb ≤ 64) → exec .memap s = .next (failedWith s .invalidConfig)) ∧
    (FrameOk s → 1 ≤ s.mb → s.mb ≤ 64 → ¬(s.mb ∣ s.width ∧ s.mb ∣ s.height) →
      exec .memap s = .next (failedWith s .invalidBlockSize)) ∧
    (FieldOk s → s.mem.wf →
      ∃ t, exec .memap s = .next t ∧ DoneAs s t ∧
        KeptOutside s.mem t.mem [(.mv, s.height / s.mb, s.width / s.mb)] ∧
        ∀ y < s.height / s.mb, ∀ x < s.width / s.mb,
          IsBestVector (cost (s.pixels .recE) (s.pixels .fin) (x * s.mb) (y * s.mb) s.mb s.runMetric)
            s.width s.height (x * s.mb) (y * s.mb) s.mb s.radius
            (gridAt t.field ⟨0#16, 0#16⟩ y x).dx.toInt (gridAt t.field ⟨0#16, 0#16⟩ y x).dy.toInt)

/-! Quantizer. -/

/-- R121 and R122: QUANT.I and QUANT.P when QCHECK passes: the W x H region of COEF becomes the levels of the W x H region of RES,
RES and every other byte and register stay, and the command completes. -/
def Obligations.QuantWritesTheLevels : Prop :=
  ∀ s : State, s.mem.wf → QuantOk s →
    (∃ t, exec .quantI s = .next t ∧ DoneAs s t ∧
      t.coefs = quantize .intra s.scale s.db s.height s.width s.weights s.residuals ∧
      KeptOutside s.mem t.mem [(.coef, s.height, s.width)]) ∧
    ∃ t, exec .quantP s = .next t ∧ DoneAs s t ∧
      t.coefs = quantize .predicted s.scale s.db s.height s.width s.weights s.residuals ∧
      KeptOutside s.mem t.mem [(.coef, s.height, s.width)]

/-- R123 and R124: DEQUANT.I and DEQUANT.P when QCHECK passes: the W x H region of RES becomes the dequantized region of COEF,
each value in 0..255 (Intra) or -255..255 (Predicted) whatever COEF holds; COEF and every other byte and register stay. -/
def Obligations.DequantWritesResidualsInRange : Prop :=
  ∀ s : State, s.mem.wf → QuantOk s →
    (∃ t, exec .dequantI s = .next t ∧ DoneAs s t ∧
      t.residuals = dequantize .intra s.scale s.db s.height s.width s.weights s.coefs ∧
      (∀ r ∈ t.residuals, ∀ k ∈ r, 0 ≤ k ∧ k ≤ 255) ∧
      KeptOutside s.mem t.mem [(.res, s.height, s.width)]) ∧
    ∃ t, exec .dequantP s = .next t ∧ DoneAs s t ∧
      t.residuals = dequantize .predicted s.scale s.db s.height s.width s.weights s.coefs ∧
      (∀ r ∈ t.residuals, ∀ k ∈ r, -255 ≤ k ∧ k ≤ 255) ∧
      KeptOutside s.mem t.mem [(.res, s.height, s.width)]

/-- R114 to R120, element by element: the level of each coefficient from its weight and the scale, and the dequantized value
before the inverse transform, the clamp and the rounding. -/
def Obligations.LevelsFollowTheFormulas : Prop :=
  ∀ (sc db h w y x : Nat) (wt : Grid Nat) (rm : Grid Int) (q : Grid F64), y < h → x < w →
    let W := f64 ((gridAt wt 0 (y % db) (x % db) : Nat) : Int)
    let c := gridAt (bdct h w db db (rm.map fun r => r.map f64)) 0#64 y x
    let l := gridAt q 0#64 y x
    gridAt (quantize .intra sc db h w wt rm) 0#64 y x =
      fround (fdiv (fdiv (fmul c (f64 16)) W) (f64 (2 * sc))) ∧
    gridAt (quantize .predicted sc db h w wt rm) 0#64 y x =
      fround (fdiv (fsub (fdiv (fmul c (f64 16)) W) (fmul (fsign c) (f64 sc))) (f64 (2 * sc))) ∧
    gridAt (withWeights wt db h w (unlevel .intra sc) q) 0#64 y x =
      fdiv (fmul (fmul (fmul l (f64 2)) (f64 sc)) W) (f64 16) ∧
    gridAt (withWeights wt db h w (unlevel .predicted sc) q) 0#64 y x =
      fdiv (fmul (fadd (fmul (fmul l (f64 2)) (f64 sc)) (fmul (fsign l) (f64 sc))) W) (f64 16) ∧
    f64 (gridAt (dequantize .intra sc db h w wt q) 0 y x) =
      fround (fclamp (gridAt (ibdct h w db db (withWeights wt db h w (unlevel .intra sc) q)) 0#64 y x) 0#64 (f64 255)) ∧
    f64 (gridAt (dequantize .predicted sc db h w wt q) 0 y x) =
      fround (fclamp (gridAt (ibdct h w db db (withWeights wt db h w (unlevel .predicted sc) q)) 0#64 y x)
        (f64 (-255)) (f64 255))

/-- The zero corners of R122 and R124 (sign(0) = 0, R13): for every legal scale and weight a coefficient +0.0 or -0.0 has level
+0.0, Intra and Predicted, and the level +0.0 dequantizes to +0.0. -/
def Obligations.ZeroCoefficientHasLevelZero : Prop :=
  ∀ sc wt : Nat, 1 ≤ sc → sc ≤ 65535 → 1 ≤ wt → wt ≤ 255 → ∀ c : F64, isZero c = true →
    levelIntra sc c (f64 wt) = 0#64 ∧ levelPred sc c (f64 wt) = 0#64 ∧
    unlevelIntra sc 0#64 (f64 wt) = 0#64 ∧ unlevelPred sc 0#64 (f64 wt) = 0#64

/-! DPCM. -/

/-- R130 and R131: DPCMENC.C and DPCMDEC.C, for every frame size: out of range is InvalidConfig; otherwise the W x H region of
COEF is coded in place, the result being that of the old contents, and nothing else changes. -/
def Obligations.DpcmCodesTheCoefficients : Prop :=
  ∀ s : State,
    (¬FrameOk s →
      exec .dpcmencC s = .next (failedWith s .invalidConfig) ∧ exec .dpcmdecC s = .next (failedWith s .invalidConfig)) ∧
    (FrameOk s → s.mem.wf →
      (∃ t, exec .dpcmencC s = .next t ∧ DoneAs s t ∧ t.coefs = encCoef s.coefs ∧
        KeptOutside s.mem t.mem [(.coef, s.height, s.width)]) ∧
      ∃ t, exec .dpcmdecC s = .next t ∧ DoneAs s t ∧ t.coefs = decCoef s.coefs ∧
        KeptOutside s.mem t.mem [(.coef, s.height, s.width)])

/-- R132 and R133: DPCMENC.V and DPCMDEC.V, for every configuration: the two errors in their order; otherwise the MV field is
coded in place and nothing else changes. -/
def Obligations.DpcmCodesTheVectorField : Prop :=
  ∀ s : State,
    (¬(FrameOk s ∧ 1 ≤ s.mb ∧ s.mb ≤ 64) →
      exec .dpcmencV s = .next (failedWith s .invalidConfig) ∧ exec .dpcmdecV s = .next (failedWith s .invalidConfig)) ∧
    (FrameOk s → 1 ≤ s.mb → s.mb ≤ 64 → ¬(s.mb ∣ s.width ∧ s.mb ∣ s.height) →
      exec .dpcmencV s = .next (failedWith s .invalidBlockSize) ∧
      exec .dpcmdecV s = .next (failedWith s .invalidBlockSize)) ∧
    (FieldOk s → s.mem.wf →
      (∃ t, exec .dpcmencV s = .next t ∧ DoneAs s t ∧ t.field = encField s.field ∧
        KeptOutside s.mem t.mem [(.mv, s.height / s.mb, s.width / s.mb)]) ∧
      ∃ t, exec .dpcmdecV s = .next t ∧ DoneAs s t ∧ t.field = decField s.field ∧
        KeptOutside s.mem t.mem [(.mv, s.height / s.mb, s.width / s.mb)])

/-- R126 and R127: the recurrences of the two coders on coefficient rows. Encoding: the error of each element is the element minus
the predictor, which starts at +0.0 in each row and grows by the error. Decoding, for every row whatever wrote it: each element is the
error plus the predictor, which starts at +0.0 in each row and then is the element before. On an encoder's output the decoder's
predictor after each element is the encoder's. -/
def Obligations.DpcmFollowsTheRunningPredictor : Prop :=
  (∀ (m : Grid F64) (y : Nat) (row : List F64) (p : Nat → F64), m[y]? = some row →
    p 0 = 0#64 →
    (∀ c < row.length, p (c + 1) = fadd (p c) (fsub (row.getD c 0#64) (p c))) →
    (∀ c < row.length, gridAt (encCoef m) 0#64 y c = fsub (row.getD c 0#64) (p c)) ∧
    (∀ c < row.length, gridAt (decCoef (encCoef m)) 0#64 y c = p (c + 1)) ∧
    ((encCoef m).getD y []).length = row.length) ∧
  ∀ (e : Grid F64) (y : Nat) (row : List F64), e[y]? = some row →
    ((decCoef e).getD y []).length = row.length ∧
    ∀ c < row.length,
      gridAt (decCoef e) 0#64 y c =
        fadd (row.getD c 0#64) (if c = 0 then 0#64 else gridAt (decCoef e) 0#64 y (c - 1))

/-- R126 to R128 on motion vectors: an encoded component is the difference from the left neighbour modulo 2^16 (from zero in the
first column), a decoded one the sum of the row so far modulo 2^16. -/
def Obligations.VectorsAreCodedAsDifferences : Prop :=
  ∀ (m : Grid Vec) (y : Nat) (row : List Vec), m[y]? = some row → ∀ c < row.length,
    gridAt (encField m) ⟨0#16, 0#16⟩ y c =
      ⟨(row.getD c ⟨0#16, 0#16⟩).dx - (if c = 0 then 0#16 else (row.getD (c - 1) ⟨0#16, 0#16⟩).dx),
       (row.getD c ⟨0#16, 0#16⟩).dy - (if c = 0 then 0#16 else (row.getD (c - 1) ⟨0#16, 0#16⟩).dy)⟩ ∧
    gridAt (decField m) ⟨0#16, 0#16⟩ y c =
      ⟨((row.take (c + 1)).map fun v => v.dx).sum, ((row.take (c + 1)).map fun v => v.dy).sum⟩

/-- R134, vectors: decoding an encoded motion-vector field gives it back, for every field, bit for bit; and encoding a decoded
one. -/
def Obligations.VectorDpcmIsLossless : Prop :=
  ∀ m : Grid Vec, decField (encField m) = m ∧ encField (decField m) = m

/-- R134, coefficients: decoding an encoded matrix gives it back when every element is an integer of magnitude below 2^52, except
that an element -0.0 comes back as +0.0. -/
def Obligations.IntegerCoefficientDpcmIsLossless : Prop :=
  ∀ m : Grid F64,
    (∀ r ∈ m, ∀ x ∈ r, isFinite x = true ∧ ∃ k : Int, ratOf x = k ∧ |k| < 2 ^ 52) →
    decCoef (encCoef m) = m.map fun r => r.map fun x => if x = negZero then posZero else x

/-- R130, R131 and R134, in every row of every matrix. The first column is encoded unchanged, bit for bit, whatever it holds (-0.0
and NaN included); a -0.0 there decodes to +0.0, and the decoder never puts a -0.0 there. Of an encoded row, at every column: a NaN
element decodes as a NaN; an infinite element decodes as itself when every element before it has decoded to a finite value (a
difference that overflows makes the predictor infinite, of which R134 does not speak); and after either every later element of the
row decodes as a NaN. The bits of a NaN are free (log 6). -/
def Obligations.FirstColumnAndSpecialValues : Prop :=
  (∀ (m : Grid F64) (y : Nat), gridAt (encCoef m) 0#64 y 0 = gridAt m 0#64 y 0) ∧
  (∀ (m : Grid F64) (y : Nat), gridAt m 0#64 y 0 = negZero → gridAt (decCoef m) 0#64 y 0 = posZero) ∧
  (∀ (m : Grid F64) (y : Nat), gridAt (decCoef m) 0#64 y 0 ≠ negZero) ∧
  ∀ (m : Grid F64) (y : Nat) (row : List F64), m[y]? = some row → ∀ c < row.length,
    let decoded : Nat → F64 := gridAt (decCoef (encCoef m)) 0#64 y
    (isNaN (row.getD c 0#64) = true → isNaN (decoded c) = true) ∧
    (isInf (row.getD c 0#64) = true → (∀ k < c, isFinite (decoded k) = true) → decoded c = row.getD c 0#64) ∧
    (isNaN (row.getD c 0#64) = true ∨ isInf (row.getD c 0#64) = true →
      ∀ k, c < k → k < row.length → isNaN (decoded k) = true)

/-! The frame pipeline. -/

/-- R137 and R138: an ENCFRM in AwaitingFirstFrame whose session checks pass encodes FIN as an Intra frame: COEF holds the
DPCM-coded levels, REC_E the reconstruction from them, the tag is 0, STEADY_E is set, ENC_FCNT grows by 1; MV and every byte outside
COEF, REC_E and RES (whose region is unspecified, R140) stay. The counter of free values is the model's own (log 11). -/
def Obligations.EncfrmCodesAnIntraFrame : Prop :=
  ∀ s : State, s.mem.wf → SessionOk s → s.steadyE = false →
    let cc := encCoef (quantize .intra s.scale s.db s.height s.width s.weights
      ((s.pixels .fin).map fun r => r.map fun p => (p.toNat : Int)))
    let p2 := dequantize .intra s.scale s.db s.height s.width s.weights (decCoef cc)
    ∃ t, exec .encfrm s = .next t ∧
      t = { s with
        mem := t.mem, encFtype := 0#2, steadyE := true, encFcnt := s.encFcnt + 1#32
        draw := t.draw, done := true, busy := false } ∧
      t.coefs = cc ∧
      (∀ y < s.height, ∀ x < s.width,
        ((gridAt (t.pixels .recE) 0#8 y x).toNat : Int) = max 0 (min (gridAt p2 0 y x) 255)) ∧
      KeptOutside s.mem t.mem
        [(.coef, s.height, s.width), (.recE, s.height, s.width), (.res, s.height, s.width)]

/-- R137 and R139: an ENCFRM in Steady encodes FIN against the old REC_E: MV holds the DPCM-coded field of the search, COEF the
DPCM-coded levels of the residual, REC_E the reconstruction from the decoded field and levels and the old REC_E; the tag is 1 and
ENC_FCNT grows by 1. The counter of free values is the model's own (log 11). -/
def Obligations.EncfrmCodesAPredictedFrame : Prop :=
  ∀ s : State, s.mem.wf → SessionOk s → s.steadyE = true →
    let p := s.pixels .recE
    let m := meMap p (s.pixels .fin) s.width s.height s.mb s.radius s.runMetric
    let rs : Grid Int := (List.range s.height).map fun y => (List.range s.width).map fun x =>
      ((gridAt (s.pixels .fin) 0#8 y x).toNat : Int) - mc p m s.mb y x
    let cc := encCoef (quantize .predicted s.scale s.db s.height s.width s.weights rs)
    let rr := dequantize .predicted s.scale s.db s.height s.width s.weights (decCoef cc)
    ∃ t, exec .encfrm s = .next t ∧
      t = { s with
        mem := t.mem, encFtype := 1#2, steadyE := true, encFcnt := s.encFcnt + 1#32
        draw := t.draw, done := true, busy := false } ∧
      t.coefs = cc ∧ t.field = encField m ∧
      (∀ y < s.height, ∀ x < s.width,
        ((gridAt (t.pixels .recE) 0#8 y x).toNat : Int) =
          max 0 (min (mc p (decField (encField m)) s.mb y x + gridAt rr 0 y x) 255)) ∧
      KeptOutside s.mem t.mem
        [(.coef, s.height, s.width), (.recE, s.height, s.width), (.res, s.height, s.width),
         (.mv, s.height / s.mb, s.width / s.mb)]

/-- R141 and R142: a DECFRM with tag 0 whose session checks pass, in either state of the decoder: REC_D holds the dequantized
DPCM-decoded COEF, STEADY_D is set, DEC_FCNT grows by 1; COEF, MV and every byte outside REC_D and RES stay. The counter of free
values is the model's own (log 11). -/
def Obligations.DecfrmDecodesAnIntraFrame : Prop :=
  ∀ s : State, s.mem.wf → SessionOk s → s.decFtype = 0#2 →
    let p2 := dequantize .intra s.scale s.db s.height s.width s.weights (decCoef s.coefs)
    ∃ t, exec .decfrm s = .next t ∧
      t = { s with
        mem := t.mem, steadyD := true, decFcnt := s.decFcnt + 1#32, draw := t.draw, done := true, busy := false } ∧
      (∀ y < s.height, ∀ x < s.width,
        ((gridAt (t.pixels .recD) 0#8 y x).toNat : Int) = max 0 (min (gridAt p2 0 y x) 255)) ∧
      KeptOutside s.mem t.mem [(.recD, s.height, s.width), (.res, s.height, s.width)]

/-- R141, R143 and R144: a DECFRM with tag 1 in Steady whose decoded field keeps every block inside the frame: REC_D holds the
reconstruction from the old REC_D, the decoded field and the decoded levels. The counter of free values is the model's own
(log 11). -/
def Obligations.DecfrmDecodesAPredictedFrame : Prop :=
  ∀ s : State, s.mem.wf → SessionOk s → s.decFtype = 1#2 → s.steadyD = true →
    let m := decField s.field
    (∀ y < s.height / s.mb, ∀ x < s.width / s.mb,
      0 ≤ (x * s.mb : Int) - (gridAt m ⟨0#16, 0#16⟩ y x).dx.toInt ∧
      (x * s.mb : Int) + s.mb - 1 - (gridAt m ⟨0#16, 0#16⟩ y x).dx.toInt ≤ s.width - 1 ∧
      0 ≤ (y * s.mb : Int) - (gridAt m ⟨0#16, 0#16⟩ y x).dy.toInt ∧
      (y * s.mb : Int) + s.mb - 1 - (gridAt m ⟨0#16, 0#16⟩ y x).dy.toInt ≤ s.height - 1) →
    let rr := dequantize .predicted s.scale s.db s.height s.width s.weights (decCoef s.coefs)
    ∃ t, exec .decfrm s = .next t ∧
      t = { s with
        mem := t.mem, steadyD := true, decFcnt := s.decFcnt + 1#32, draw := t.draw, done := true, busy := false } ∧
      (∀ y < s.height, ∀ x < s.width,
        ((gridAt (t.pixels .recD) 0#8 y x).toNat : Int) =
          max 0 (min (mc (s.pixels .recD) m s.mb y x + gridAt rr 0 y x) 255)) ∧
      KeptOutside s.mem t.mem [(.recD, s.height, s.width), (.res, s.height, s.width)]

/-- The errors of DECFRM after the session checks, in the order of R141 and R161: a tag 2 or 3, then a Predicted frame in
AwaitingFirstFrame, then a decoded vector that reads outside the frame (R144). -/
def Obligations.DecfrmErrorsComeInOrder : Prop :=
  ∀ s : State, SessionOk s →
    (s.decFtype = 2#2 ∨ s.decFtype = 3#2 → exec .decfrm s = .next (failedWith s .malformedInput)) ∧
    (s.decFtype = 1#2 → s.steadyD = false → exec .decfrm s = .next (failedWith s .sequenceError)) ∧
    (s.decFtype = 1#2 → s.steadyD = true →
      (∃ y < s.height / s.mb, ∃ x < s.width / s.mb,
        ¬(0 ≤ (x * s.mb : Int) - (gridAt (decField s.field) ⟨0#16, 0#16⟩ y x).dx.toInt ∧
          (x * s.mb : Int) + s.mb - 1 - (gridAt (decField s.field) ⟨0#16, 0#16⟩ y x).dx.toInt ≤ s.width - 1 ∧
          0 ≤ (y * s.mb : Int) - (gridAt (decField s.field) ⟨0#16, 0#16⟩ y x).dy.toInt ∧
          (y * s.mb : Int) + s.mb - 1 - (gridAt (decField s.field) ⟨0#16, 0#16⟩ y x).dy.toInt ≤ s.height - 1)) →
      exec .decfrm s = .next (failedWith s .malformedInput))

/-- QCHECK (42_quantizer.md, before R121) and SCHECK (R136) with their order (R161): QUANT and DEQUANT, and ENCFRM and DECFRM
whatever the tag and the session state, report InvalidConfig, then InvalidBlockSize, then InvalidSize. -/
def Obligations.ConfigurationErrorsComeInOrder : Prop :=
  ∀ s : State,
    let quant := FrameOk s ∧ 1 ≤ s.db ∧ s.db ≤ 32 ∧ 1 ≤ s.scale ∧
      ∀ v < s.db, ∀ u < s.db, s.mem.byte .wmat (0x1000 + 4 * (32 * v + u)) ≠ 0#8
    let session := quant ∧ 1 ≤ s.mb ∧ s.mb ≤ 64
    let tiled := s.db ∣ s.width ∧ s.db ∣ s.height
    let exact := tiled ∧ s.mb ∣ s.width ∧ s.mb ∣ s.height
    (∀ i ∈ [Instr.quantI, .quantP, .dequantI, .dequantP],
      (¬quant → exec i s = .next (failedWith s .invalidConfig)) ∧
      (quant → ¬tiled → exec i s = .next (failedWith s .invalidBlockSize)) ∧
      (quant → tiled → (∀ k, s.db ≠ 2 ^ k) → exec i s = .next (failedWith s .invalidSize))) ∧
    ∀ i ∈ [Instr.encfrm, .decfrm],
      (¬session → exec i s = .next (failedWith s .invalidConfig)) ∧
      (session → ¬exact → exec i s = .next (failedWith s .invalidBlockSize)) ∧
      (session → exact → (∀ k, s.db ≠ 2 ^ k) → exec i s = .next (failedWith s .invalidSize))

/-- R144: a field that a Predicted ENCFRM produces always passes the check of DECFRM, for every search radius and metric. -/
def Obligations.EncodedFieldPassesTheDecoderCheck : Prop :=
  ∀ (ref tgt : Grid Byte) (W H MB R : Nat) (ssd : Bool), 1 ≤ MB → MB ∣ W → MB ∣ H → W ≤ 512 → H ≤ 512 →
    fieldInFrame W H MB (decField (encField (meMap ref tgt W H MB R ssd))) = true

/-- In every state that meets the invariant, an ENCFRM in Steady succeeds and codes a Predicted frame: a session cannot lose its
configuration (R49, R137). -/
def Obligations.SteadyEncoderNeverFails : Prop :=
  ∀ s : State, s.Inv → s.steadyE = true →
    ∃ t, exec .encfrm s = .next t ∧ t.done = true ∧ t.err = s.err ∧ t.encFtype = 1#2 ∧ t.steadyE = true

/-- R148: from a common start of both sessions, any sequence of frames, each encoded and at once decoded with DEC_FTYPE copied,
runs without error, and after the last frame REC_D equals REC_E over the whole frame; both counters have grown by the number of
frames. Each command is placed as just accepted, in the model's way (log 1). -/
def Obligations.ClosedLoopStaysConsistent : Prop :=
  ∀ (s : State) (frames : List (Grid Byte)), s.mem.wf → SessionOk s → s.busy = false →
    s.steadyE = false → s.steadyD = false →
    (∀ f ∈ frames, f.length = s.height ∧ ∀ r ∈ f, r.length = s.width) →
    ∃ t, codeFrames s frames = some t ∧
      (frames ≠ [] → t.pixels .recD = t.pixels .recE) ∧
      t.encFcnt = s.encFcnt + BitVec.ofNat 32 frames.length ∧ t.decFcnt = s.decFcnt + BitVec.ofNat 32 frames.length

/-! The host's accesses. -/

/-- R25 and R164: a CMD write while BUSY = 0 is accepted: CMD holds it, BUSY is set, DONE, ERR and ERRCODE are cleared, METRIC is
sampled (R23); while BUSY = 1 it is dropped and sets OVR, and nothing else changes. The duration drawn, the counter it is drawn with
and the response are the model's own (logs 2, 8, 11). -/
def Obligations.CmdWriteIsAcceptedOrDropped : Prop :=
  ∀ (s : State) (v : BitVec 64),
    (s.busy = false →
      ∃ t, s.busWrite 0x00C#24 4 v = .next t ∧
        t = { s with
          cmd := v.setWidth 32, busy := true, done := false, err := false, errcode := 0#4, runMetric := s.metric
          wait := t.wait, draw := t.draw, resp := .ack }) ∧
    (s.busy = true → s.busWrite 0x00C#24 4 v = .next { s with ovr := true, resp := .ack })

/-- R49 and R40: every write to a session-configuration register or a WMAT word, whatever it writes, restarts both sessions and
changes nothing else but what it writes; of a weight only bits 7:0 are kept (R61). The response is the model's own (log 8). -/
def Obligations.SessionWriteStartsFreshSessions : Prop :=
  ∀ (s : State) (v : BitVec 64), s.busy = false →
    let fresh : State := { s with
      steadyE := false, steadyD := false, encFcnt := 0#32, decFcnt := 0#32, resp := .ack }
    s.busWrite 0x010#24 4 v = .next { fresh with frameW := v.setWidth 16 } ∧
    s.busWrite 0x014#24 4 v = .next { fresh with frameH := v.setWidth 16 } ∧
    s.busWrite 0x018#24 4 v = .next { fresh with mbSize := v.setWidth 16 } ∧
    s.busWrite 0x01C#24 4 v = .next { fresh with dbSize := v.setWidth 16 } ∧
    s.busWrite 0x020#24 4 v = .next { fresh with qscale := v.setWidth 16 } ∧
    (s.mem.wf → ∀ off : Offset, 0x1000 ≤ off.toNat → off.toNat < 0x2000 → off.toNat % 4 = 0 →
      ∃ t, s.busWrite off 4 v = .next t ∧ t = { fresh with mem := t.mem } ∧
        t.mem.readLE .wmat 4 off.toNat = v.toNat % 256 ∧
        ∀ b a, b ≠ Buf.wmat ∨ a ≠ off.toNat → t.mem.byte b a = s.mem.byte b a)

/-- R21 to R39 and R51: in an idle engine every register reads as its field, zero-extended. The read-write registers that are no
session configuration keep exactly the bits of their fields as written, and a write to one changes no other; writes to read-only
registers and to the reserved offsets 0x054 to 0xFFC change nothing, and those offsets read 0. The response is the model's own
(log 8). -/
def Obligations.RegistersReadBackAsWritten : Prop :=
  ∀ (s : State) (v : BitVec 64), s.busy = false →
    (∀ p ∈ [(0x000, 0x48544931#32), (0x004, s.readReg .ctrl), (0x008, s.readReg .status), (0x00C, s.cmd),
        (0x010, s.frameW.setWidth 32), (0x014, s.frameH.setWidth 32), (0x018, s.mbSize.setWidth 32),
        (0x01C, s.dbSize.setWidth 32), (0x020, s.qscale.setWidth 32), (0x024, s.searchR.setWidth 32),
        (0x028, s.vlen.setWidth 32), (0x02C, s.tileW.setWidth 32), (0x030, s.tileH.setWidth 32),
        (0x034, s.meBx.setWidth 32), (0x038, s.meBy.setWidth 32), (0x03C, s.meVec), (0x040, s.meCost),
        (0x044, s.encFtype.setWidth 32), (0x048, s.decFtype.setWidth 32), (0x04C, s.encFcnt), (0x050, s.decFcnt)],
      s.busRead (BitVec.ofNat 24 p.1) 4 = .next { s with resp := .data (p.2.setWidth 64) }) ∧
    (∀ p ∈ [(0x024, 0xFFFF#64), (0x028, 0xFFFF#64), (0x02C, 0xFFFF#64), (0x030, 0xFFFF#64), (0x034, 0xFFFF#64),
        (0x038, 0xFFFF#64), (0x048, 0x3#64)],
      ∃ t, s.busWrite (BitVec.ofNat 24 p.1) 4 v = .next t ∧
        t.busRead (BitVec.ofNat 24 p.1) 4 = .next { t with resp := .data (v &&& p.2) } ∧ t.mem = s.mem ∧
        ∀ off < 0x1000, off % 4 = 0 → off ≠ p.1 → t.busValue off 4 = s.busValue off 4) ∧
    (∀ off : Offset, off.toNat % 4 = 0 → off.toNat < 0x1000 →
      (off.toNat ∈ [0x000, 0x03C, 0x040, 0x044, 0x04C, 0x050] ∨ 0x054 ≤ off.toNat →
        s.busWrite off 4 v = .next { s with resp := .ack }) ∧
      (0x054 ≤ off.toNat → s.busRead off 4 = .next { s with resp := .data 0#64 }))

/-- R24, R166 and R23: the fields of the STATUS and CTRL words, their reserved bits 0, and the level of the interrupt line. A STATUS
write clears DONE, ERR and OVR where it writes 1 and changes nothing else, ERRCODE included, whether or not a command runs (R163,
R165); a CTRL write with bit 0 clear sets the enables and METRIC and nothing else, not the metric of a running command. The response
is the model's own (log 8). -/
def Obligations.StatusAndCtrlWords : Prop :=
  (∀ s : State,
    let w := s.readReg .status
    let irq := (s.done && s.ieDone) || ((s.err || s.ovr) && s.ieErr)
    w.getLsbD 0 = s.busy ∧ w.getLsbD 1 = s.done ∧ w.getLsbD 2 = s.err ∧ w.getLsbD 3 = s.ovr ∧
    w.getLsbD 4 = s.steadyE ∧ w.getLsbD 5 = s.steadyD ∧ w.getLsbD 6 = irq ∧ s.irq = irq ∧ w.getLsbD 7 = false ∧
    w.extractLsb' 8 4 = s.errcode ∧ w.extractLsb' 12 20 = 0#20 ∧
    (s.readReg .ctrl).getLsbD 0 = false ∧ (s.readReg .ctrl).getLsbD 1 = s.ieDone ∧
    (s.readReg .ctrl).getLsbD 2 = s.ieErr ∧ (s.readReg .ctrl).getLsbD 3 = s.metric ∧
    (s.readReg .ctrl).extractLsb' 4 28 = 0#28) ∧
  ∀ (s : State) (v : BitVec 64),
    s.busWrite 0x008#24 4 v = .next { s with
      done := s.done && !v.getLsbD 1, err := s.err && !v.getLsbD 2, ovr := s.ovr && !v.getLsbD 3, resp := .ack } ∧
    (v.getLsbD 0 = false →
      s.busWrite 0x004#24 4 v = .next { s with
        ieDone := v.getLsbD 1, ieErr := v.getLsbD 2, metric := v.getLsbD 3, resp := .ack })

/-- R176, R177 and R178: a CTRL write with bit 0 set takes every register and every weight to its value of R52, discarding the
other bits, whether or not a command runs. While BUSY = 0 every buffer byte stays; while BUSY = 1 the command is aborted (neither
DONE nor ERR) and every buffer byte stays but those of the regions its row of R84 lists as written (none for an illegal word). The
model's own: the MV field has no rows and columns while MB_SIZE = 0, where R84 gives it no meaning (log 5); the sampled METRIC is
false (log 12) and no turn is left (log 2) afterwards; the host's queue goes on (log 1), the response (log 8), the counter of free
values moves (log 11). -/
def Obligations.SoftResetRestoresTheRegisters : Prop :=
  ∀ (s : State) (v : BitVec 64), v.getLsbD 0 = true →
    let m : Memory := { s.mem with wmat := [] }
    ∃ t, s.busWrite 0x004#24 4 v = .next t ∧
      t = { State.reset with mem := t.mem, draw := t.draw, host := s.host, resp := .ack } ∧
      (∀ y x : Nat, y < 32 → x < 32 → t.mem.elem .wmat y x = 16) ∧
      (s.busy = false → KeptOutside m t.mem []) ∧
      (s.busy = true →
        (∀ r, decode s.cmd = .error r → KeptOutside m t.mem []) ∧
        ∀ i, decode s.cmd = .ok i →
          match i with
          | .nop | .meblk | .rstenc | .rstdec => KeptOutside m t.mem []
          | .fft | .ifft | .dct1d | .idct1d => KeptOutside m t.mem [(.vbuf, 1, 2 * s.len)]
          | .dct2d | .idct2d | .bdct2d | .ibdct2d | .quantI | .quantP | .dpcmencC | .dpcmdecC =>
            KeptOutside m t.mem [(.coef, s.height, s.width)]
          | .memap | .dpcmencV | .dpcmdecV => KeptOutside m t.mem [(.mv, s.height / s.mb, s.width / s.mb)]
          | .dequantI | .dequantP => KeptOutside m t.mem [(.res, s.height, s.width)]
          | .encfrm =>
            KeptOutside m t.mem
              ([(.coef, s.height, s.width), (.recE, s.height, s.width), (.res, s.height, s.width)] ++
                if s.steadyE then [(.mv, s.height / s.mb, s.width / s.mb)] else [])
          | .decfrm => KeptOutside m t.mem [(.recD, s.height, s.width), (.res, s.height, s.width)])

/-- R62 to R65 and R181: an access of another width, at no multiple of its size, or to an unmapped offset is a bus error, whether or
not a command runs: nothing changes but the response (log 8). Every other access is performed while BUSY = 0, and a read of WMAT or a
buffer returns its bytes, little-endian (R55, R61). While BUSY = 1 an access is performed where it is permitted (a read returns the
register, a write writes it) and a hazard that stops the machine elsewhere. Permitted is R181's list, and with it a read of CMD,
which is the model's reading (log 10, DEDUCED), not R181's list. -/
def Obligations.AccessesAreErrorsHazardsOrPerformed : Prop :=
  ∀ (s : State) (off : Offset) (size : Nat) (v : BitVec 64),
    (¬Accessible off.toNat size →
      s.busRead off size = .next { s with resp := .busError } ∧
      s.busWrite off size v = .next { s with resp := .busError }) ∧
    (Accessible off.toNat size → s.busy = false →
      (∃ d, s.busRead off size = .next { s with resp := .data d } ∧ d.toNat < 256 ^ size ∧
        ∀ b : Buf, b.base ≤ off.toNat → off.toNat < b.base + b.size → ∀ k < size,
          d.extractLsb' (8 * k) 8 = s.mem.byte b (off.toNat + k)) ∧
      ∃ t, s.busWrite off size v = .next t ∧ t.resp = .ack) ∧
    (Accessible off.toNat size → s.busy = true →
      (¬PermittedBusy false off.toNat → s.busRead off size = .fault (.hazard off)) ∧
      (¬PermittedBusy true off.toNat → s.busWrite off size v = .fault (.hazard off)) ∧
      (PermittedBusy false off.toNat →
        ∃ r, regAt off.toNat = some r ∧
          s.busRead off size = .next { s with resp := .data ((s.readReg r).setWidth 64) }) ∧
      (PermittedBusy true off.toNat →
        ∃ r, regAt off.toNat = some r ∧
          s.busWrite off size v = .next { s.writeReg r (v.setWidth 32) with resp := .ack }))

/-- R63 and R55: in an idle engine a write of 1, 2, 4 or 8 bytes to a buffer, at a multiple of its size, stores byte k of the value
at offset + k and changes no other byte and nothing else; reading it back returns the value. The response is the model's own
(log 8). -/
def Obligations.BufferWritesReadBack : Prop :=
  ∀ (s : State) (off : Offset) (size : Nat) (v : BitVec 64), s.busy = false → s.mem.wf →
    InBuffer off.toNat → (size = 1 ∨ size = 2 ∨ size = 4 ∨ size = 8) → off.toNat % size = 0 →
    ∃ t b, s.busWrite off size v = .next t ∧ t = { s with mem := t.mem, resp := .ack } ∧
      (∀ k < size, t.mem.byte b (off.toNat + k) = v.extractLsb' (8 * k) 8) ∧
      (∀ b' a, b' ≠ b ∨ a < off.toNat ∨ off.toNat + size ≤ a → t.mem.byte b' a = s.mem.byte b' a) ∧
      t.busRead off size = .next { t with resp := .data (BitVec.ofNat 64 (v.toNat % 256 ^ size)) }

/-! Timing. -/

/-- R185 and R187: the result of a command is the same for every duration: a host that waits for BUSY = 0 is in the same state
after its wait however many turns the command takes (durations counted as log 2 says). -/
def Obligations.DurationDoesNotChangeTheResult : Prop :=
  ∀ (s : State) (d : Nat) (rest : List HostOp), s.busy = true → s.host = .wait :: rest →
    runFor (d + 2) { s with wait := d } = runFor 2 { s with wait := 0 } ∧
    ∃ t, runFor (d + 2) { s with wait := d } = .next t ∧ t.busy = false ∧ t.host = rest

/-- R186: an accepted command completes, after a finite number of turns, with DONE or ERR set, whatever the host does short of a
hazard or a soft reset; and CMD still reads its word (R164). A read of CMD meanwhile is no hazard by the model's reading (log 10,
DEDUCED), not by R181's list. Turns are those of log 2. -/
def Obligations.AcceptedCommandsComplete : Prop :=
  ∀ s : State, s.busy = true → (∀ op ∈ s.host, Quiet op) →
    ∃ t, runFor (s.wait + 1) s = .next t ∧ t.busy = false ∧ (t.done = true ∨ t.err = true) ∧ t.cmd = s.cmd

/-- R180 and R187: a host that waits for BUSY = 0 after each CMD write never meets a hazard and never has a CMD write dropped. -/
def Obligations.WaitingHostMeetsNoHazard : Prop :=
  ∀ (s : State) (k : Nat), waitsForEach s.busy s.host = true →
    hazardFree k s ∧ ∀ t, s.ovr = false → runFor k s = .next t → t.ovr = false

/-! Binary64. -/

/-- R9 and R12, the four operations of IEEE 754. On finite operands each is the exact result rounded once, to nearest, ties to even,
with subnormals and overflow; an exact zero sum or difference is +0.0 unless both its terms are negative zeros; a product or quotient,
zeros and infinities included, has the sign of exactly one negative operand; a nonzero value divided by a zero is an infinity. An
infinity plus or minus a finite value is that infinity, times a nonzero value an infinity, divided by a finite value an infinity, and
a finite value divided by it a zero. NaN is the result of exactly the invalid operations (infinities that cancel, zero times infinity,
zero by zero, infinity by infinity) and of a NaN operand; its bits are free (log 6). -/
def Obligations.ArithmeticRoundsToNearestEven : Prop :=
  ∀ a b : F64,
    let neg : Bool := signBit a != signBit b
    let inf : Bool → F64 := fun n => if n then 0xFFF0000000000000#64 else 0x7FF0000000000000#64
    let zero : Bool → F64 := fun n => if n then 0x8000000000000000#64 else 0#64
    (isFinite a = true → isFinite b = true →
      IsRounding (ratOf a + ratOf b) (fadd a b) ∧ IsRounding (ratOf a - ratOf b) (fsub a b) ∧
      IsRounding (ratOf a * ratOf b) (fmul a b) ∧ (ratOf b ≠ 0 → IsRounding (ratOf a / ratOf b) (fdiv a b)) ∧
      (ratOf a + ratOf b = 0 → fadd a b = zero (signBit a && signBit b)) ∧
      (ratOf a - ratOf b = 0 → fsub a b = zero (signBit a && !signBit b)) ∧
      signBit (fmul a b) = neg ∧ (ratOf b ≠ 0 → signBit (fdiv a b) = neg) ∧
      (ratOf a ≠ 0 → ratOf b = 0 → fdiv a b = inf neg) ∧ (ratOf a = 0 → ratOf b = 0 → isNaN (fdiv a b) = true)) ∧
    (isInf a = true → isFinite b = true →
      fadd a b = a ∧ fadd b a = a ∧ fsub a b = a ∧ fsub b a = fneg a ∧ fdiv a b = inf neg ∧ fdiv b a = zero neg ∧
      fmul b a = fmul a b ∧ (ratOf b ≠ 0 → fmul a b = inf neg) ∧ (ratOf b = 0 → isNaN (fmul a b) = true)) ∧
    (isInf a = true → isInf b = true →
      (neg = false → fadd a b = a ∧ isNaN (fsub a b) = true) ∧ (neg = true → isNaN (fadd a b) = true ∧ fsub a b = a) ∧
      fmul a b = inf neg ∧ isNaN (fdiv a b) = true) ∧
    (isNaN a = true ∨ isNaN b = true →
      isNaN (fadd a b) = true ∧ isNaN (fsub a b) = true ∧ isNaN (fmul a b) = true ∧ isNaN (fdiv a b) = true)

/-- R13: `round` gives the nearest integer, ties toward +Infinity, exactly, and never -0.0; NaN and the infinities stay. `sign` is
+1.0, -1.0 or +0.0 and `clamp` with finite bounds the value or a bound, NaN giving +0.0 and the lower bound. f64 is exact below 2^53
(R11); `ispow2` and `log2` on naturals. -/
def Obligations.HelperFunctionsFollowTheirRule : Prop :=
  (∀ v : F64, isFinite v = true → ∃ k : Int, isFinite (fround v) = true ∧ ratOf (fround v) = k ∧
    (k : ℚ) - 1 / 2 ≤ ratOf v ∧ ratOf v < k + 1 / 2 ∧ (k = 0 → fround v = posZero)) ∧
  (∀ v : F64, isFinite v = false → fround v = v) ∧
  (∀ v : F64, isFinite v = true →
    fsign v = if 0 < ratOf v then 0x3FF0000000000000#64 else if ratOf v < 0 then 0xBFF0000000000000#64 else 0#64) ∧
  (∀ v lo hi : F64, isNaN v = true → fsign v = 0#64 ∧ fclamp v lo hi = lo) ∧
  (∀ v lo hi : F64, isInf v = true → isFinite lo = true → isFinite hi = true →
    fsign v = (if signBit v then 0xBFF0000000000000#64 else 0x3FF0000000000000#64) ∧
    fclamp v lo hi = if signBit v then lo else hi) ∧
  (∀ v lo hi : F64, isFinite v = true → isFinite lo = true → isFinite hi = true →
    fclamp v lo hi = if ratOf v < ratOf lo then lo else if ratOf hi < ratOf v then hi else v) ∧
  (∀ k : Int, |k| < 2 ^ 53 → isFinite (f64 k) = true ∧ ratOf (f64 k) = k) ∧
  ∀ n : Nat, ispow2 n = true ↔ ∃ m, n = 2 ^ m ∧ Nat.log2 n = m

/-- R15: the factors TW, ROT and ROTC hold in each component the binary64 value nearest to the exact cosine or sine, for every
length the engine can use; an exactly zero component is +0.0. -/
def Obligations.FactorsAreCorrectlyRounded : Prop :=
  (∀ m k : Nat, m ≤ 10 → k < 2 ^ m / 2 →
    IsNearest (Real.cos (2 * Real.pi * k / 2 ^ m)) (twiddle (2 ^ m) k).re ∧
    IsNearest (-Real.sin (2 * Real.pi * k / 2 ^ m)) (twiddle (2 ^ m) k).im) ∧
  ∀ m k : Nat, m ≤ 9 → k < 2 ^ m →
    IsNearest (Real.cos (Real.pi * k / (2 * 2 ^ m))) (rotFwd (2 ^ m) k).re ∧
    IsNearest (-Real.sin (Real.pi * k / (2 * 2 ^ m))) (rotFwd (2 ^ m) k).im ∧
    IsNearest (Real.cos (Real.pi * k / (2 * 2 ^ m))) (rotInv (2 ^ m) k).re ∧
    IsNearest (Real.sin (Real.pi * k / (2 * 2 ^ m))) (rotInv (2 ^ m) k).im
end

