-- ==== Sys2Proof/Laws/Float.lean ====
section
/-! SUPPORT. Binary64 patterns and their values: the magnitude patterns in order are the representable magnitudes in order, and what
one rounding (`roundRatio`) can answer. -/

namespace Sys2Proof.Machine

/-! Patterns. -/

/-- The units of a magnitude pattern. -/
def magUnits (mag : Nat) : Nat :=
  if mag / 2 ^ 52 = 0 then mag % 2 ^ 52 else (2 ^ 52 + mag % 2 ^ 52) * 2 ^ (mag / 2 ^ 52 - 1)

theorem units_eq (a : F64) : units a = magUnits (magBits a) := rfl

/-- A significand of at most 53 bits scaled by 2^t, normalised unless t = 0, as a pattern. -/
theorem magUnits_scaled {t q : Nat} (hq : q ≤ 2 ^ 53) (hn : t = 0 ∨ 2 ^ 52 ≤ q) : magUnits (t * 2 ^ 52 + q) = q * 2 ^ t := by
  unfold magUnits
  have h53 : (2 : Nat) ^ 53 = 2 * 2 ^ 52 := by norm_num
  rcases Nat.lt_or_ge q (2 ^ 52) with h | h
  · have ht : t = 0 := by omega
    subst ht
    have : (0 * 2 ^ 52 + q) / 2 ^ 52 = 0 := by omega
    rw [if_pos this]; omega
  · rcases Nat.lt_or_ge q (2 ^ 53) with h' | h'
    · have e : (t * 2 ^ 52 + q) / 2 ^ 52 = t + 1 := by omega
      have f : (t * 2 ^ 52 + q) % 2 ^ 52 = q - 2 ^ 52 := by omega
      rw [e, f, if_neg (by omega), Nat.add_sub_cancel, Nat.add_sub_cancel' h]
    · have hq' : q = 2 ^ 53 := by omega
      have e : (t * 2 ^ 52 + q) / 2 ^ 52 = t + 2 := by omega
      have f : (t * 2 ^ 52 + q) % 2 ^ 52 = 0 := by omega
      rw [e, f, if_neg (by omega), hq', Nat.add_zero, show t + 2 - 1 = t + 1 from rfl, pow_succ, h53]
      ring

/-- Every pattern is of that form. -/
theorem mag_scaled (mag : Nat) : ∃ t q, mag = t * 2 ^ 52 + q ∧ q < 2 ^ 53 ∧ (t = 0 ∨ 2 ^ 52 ≤ q) := by
  have h53 : (2 : Nat) ^ 53 = 2 * 2 ^ 52 := by norm_num
  rcases Nat.lt_or_ge mag (2 ^ 52) with h | h
  · exact ⟨0, mag, by omega, by omega, .inl rfl⟩
  · exact ⟨mag / 2 ^ 52 - 1, mag % 2 ^ 52 + 2 ^ 52, by omega, by omega, .inr (by omega)⟩

theorem magUnits_lt_succ (mag : Nat) : magUnits mag < magUnits (mag + 1) := by
  obtain ⟨t, q, rfl, hq, hn⟩ := mag_scaled mag
  rw [magUnits_scaled hq.le hn, Nat.add_assoc, magUnits_scaled (by omega) (by omega)]
  exact Nat.mul_lt_mul_of_pos_right (by omega) (Nat.two_pow_pos t)

theorem magUnits_strictMono : StrictMono magUnits := strictMono_nat_of_lt_succ magUnits_lt_succ

theorem magUnits_le_iff {a b : Nat} : magUnits a ≤ magUnits b ↔ a ≤ b := magUnits_strictMono.le_iff_le

theorem magUnits_zero : magUnits 0 = 0 := by decide

theorem magUnits_inf : magUnits infBits = 2 ^ 2098 := by
  have h : infBits = 2046 * 2 ^ 52 + 2 ^ 52 := by decide
  rw [h, magUnits_scaled (by norm_num) (.inr (by norm_num)), ← pow_add]

theorem magBits_lt (a : F64) : magBits a < 2 ^ 63 := Nat.mod_lt _ (by norm_num)

theorem packBits_toNat (neg : Bool) {mag : Nat} (h : mag < 2 ^ 63) :
    (packBits neg mag).toNat = mag + if neg then 2 ^ 63 else 0 := by
  simp only [packBits, BitVec.toNat_ofNat]
  cases neg <;> simp <;> omega

@[simp] theorem magBits_packBits (neg : Bool) {mag : Nat} (h : mag < 2 ^ 63) : magBits (packBits neg mag) = mag := by
  rw [magBits, packBits_toNat neg h]; cases neg <;> simp <;> omega

@[simp] theorem signBit_packBits (neg : Bool) {mag : Nat} (h : mag < 2 ^ 63) : signBit (packBits neg mag) = neg := by
  rw [signBit, BitVec.msb_eq_decide, packBits_toNat neg h]
  cases neg <;> simp <;> omega

/-- A pattern is its sign and its magnitude. -/
theorem packBits_self (a : F64) : packBits (signBit a) (magBits a) = a := by
  apply BitVec.eq_of_toNat_eq
  rw [packBits_toNat _ (magBits_lt a), signBit, BitVec.msb_eq_decide, magBits]
  have := a.isLt
  by_cases h : 2 ^ 63 ≤ a.toNat
  · simp only [h, decide_true, if_true]; omega
  · simp only [h, decide_false, Bool.false_eq_true, if_false]; omega

theorem eq_of_sign_mag {a b : F64} (hs : signBit a = signBit b) (hm : magBits a = magBits b) : a = b := by
  rw [← packBits_self a, ← packBits_self b, hs, hm]

theorem infBits_lt : infBits < 2 ^ 63 := by decide

theorem isFinite_iff (a : F64) : isFinite a = true ↔ magBits a < infBits := by simp [isFinite]

theorem posZero_eq : posZero = 0#64 := by decide

theorem one_sign : signBit one = false := by decide

theorem posZero_finite : isFinite posZero = true := by decide

theorem isNaN_of_isFinite {a : F64} (h : isFinite a = true) : isNaN a = false := by
  rw [isFinite_iff] at h; simp [isNaN]; omega

theorem isInf_of_isFinite {a : F64} (h : isFinite a = true) : isInf a = false := by
  rw [isFinite_iff] at h; simp [isInf]; omega

theorem isFinite_of_not {a : F64} (hn : isNaN a = false) (hi : isInf a = false) : isFinite a = true := by
  rw [isFinite_iff]; simp [isNaN, isInf] at hn hi; omega

/-! Values. -/

theorem units_lt (a : F64) (h : isFinite a = true) : units a < 2 ^ 2098 := by
  rw [units_eq, ← magUnits_inf]; exact magUnits_strictMono ((isFinite_iff a).1 h)

theorem units_eq_zero_iff (a : F64) : units a = 0 ↔ magBits a = 0 := by
  rw [units_eq, ← magUnits_zero]; exact magUnits_strictMono.injective.eq_iff

theorem value_natAbs (a : F64) : (value a).natAbs = units a := by
  unfold value; split <;> simp

theorem value_neg_iff (a : F64) : value a < 0 ↔ signBit a = true ∧ magBits a ≠ 0 := by
  have := units_eq_zero_iff a
  unfold value; split <;> rename_i h <;> simp [h] <;> omega

theorem value_eq_zero_iff (a : F64) : value a = 0 ↔ magBits a = 0 := by
  have := units_eq_zero_iff a
  unfold value; split <;> simp [this]

theorem value_inj {a b : F64} (h : value a = value b) (hz : magBits a ≠ 0) : a = b := by
  have hm : magBits a = magBits b := by
    apply magUnits_strictMono.injective
    rw [← units_eq, ← units_eq, ← value_natAbs, ← value_natAbs, h]
  refine eq_of_sign_mag ?_ hm
  have h1 := value_neg_iff a; have h2 := value_neg_iff b
  rw [h, h2, ← hm] at h1
  simp only [hz, ne_eq, not_false_eq_true, and_true] at h1
  exact (Bool.eq_iff_iff.2 h1).symm

/-! One rounding. -/

/-- What `roundRatio` answers, from the two neighbouring patterns of the exact magnitude n/d: the pattern M at or below it, or the
next, whichever is nearer, the even one of two as near; an infinity from pattern `infBits` on. -/
theorem roundRatio_eq (neg : Bool) (n : Nat) {d : Nat} (hd : 0 < d) :
    ∃ M, d * magUnits M ≤ n ∧ n < d * magUnits (M + 1) ∧
      ∃ M', (M' = M ∨ M' = M + 1) ∧ roundRatio neg n d = packBits neg (if M' < infBits then M' else infBits) ∧
        (M' = M → 2 * n ≤ d * (magUnits M + magUnits (M + 1)) ∧
          (2 * n = d * (magUnits M + magUnits (M + 1)) → M % 2 = 0)) ∧
        (M' = M + 1 → d * (magUnits M + magUnits (M + 1)) ≤ 2 * n ∧
          (2 * n = d * (magUnits M + magUnits (M + 1)) → M % 2 = 1)) := by
  set t := Nat.log2 (n / d) - 52 with ht
  set u := d * 2 ^ t with hu
  have hu0 : 0 < u := Nat.mul_pos hd (Nat.two_pow_pos t)
  set q := n / u with hq
  have hq' : q = n / d / 2 ^ t := by rw [hq, hu, Nat.div_div_eq_div_mul]
  have hqlt : q < 2 ^ 53 := by
    rw [hq']
    apply Nat.div_lt_of_lt_mul
    rw [← pow_add]
    rcases Nat.eq_zero_or_pos (n / d) with h0 | h0
    · rw [h0]; positivity
    · exact lt_of_lt_of_le Nat.lt_log2_self (Nat.pow_le_pow_right (by norm_num) (by omega))
  have hqn : t = 0 ∨ 2 ^ 52 ≤ q := by
    by_cases h : t = 0
    · exact .inl h
    · right
      have hnz : n / d ≠ 0 := by rintro h0; rw [h0] at ht; simp at ht; omega
      rw [hq', Nat.le_div_iff_mul_le (Nat.two_pow_pos t), ← pow_add]
      exact le_trans (Nat.pow_le_pow_right (by norm_num) (by omega)) (Nat.log2_self_le hnz)
  have hM : magUnits (t * 2 ^ 52 + q) = q * 2 ^ t := magUnits_scaled hqlt.le hqn
  have hM1 : magUnits (t * 2 ^ 52 + q + 1) = (q + 1) * 2 ^ t := by
    rw [Nat.add_assoc]; exact magUnits_scaled (by omega) (by omega)
  have hdm := Nat.div_add_mod n u
  have hmod := Nat.mod_lt n hu0
  rw [← hq] at hdm
  have e1 : d * (q * 2 ^ t) = u * q := by rw [hu]; ring
  have e2 : d * ((q + 1) * 2 ^ t) = u * q + u := by rw [hu]; ring
  have e3 : d * (q * 2 ^ t + (q + 1) * 2 ^ t) = 2 * (u * q) + u := by rw [hu]; ring
  have hpar : (t * 2 ^ 52 + q) % 2 = q % 2 := by
    omega
  refine ⟨t * 2 ^ 52 + q, by rw [hM, e1]; omega, by rw [hM1, e2]; omega,
    t * 2 ^ 52 + (if u < 2 * (n % u) ∨ (2 * (n % u) = u ∧ q % 2 = 1) then q + 1 else q), ?_, ?_, ?_, ?_⟩
  · split <;> omega
  · simp only [roundRatio, ← ht, ← hu, ← hq]
  · intro h
    have hc : ¬(u < 2 * (n % u) ∨ (2 * (n % u) = u ∧ q % 2 = 1)) := by
      intro hc; rw [if_pos hc] at h; omega
    rw [hM, hM1, e3, hpar]; omega
  · intro h
    have hc : u < 2 * (n % u) ∨ (2 * (n % u) = u ∧ q % 2 = 1) := by
      by_contra hc; rw [if_neg hc] at h; omega
    rw [hM, hM1, e3, hpar]; omega

/-- The value of a pattern as a rational number. -/
theorem ratOf_packBits (neg : Bool) {mag : Nat} (h : mag < 2 ^ 63) :
    ratOf (packBits neg mag) = (if neg then -1 else 1) * (magUnits mag : ℚ) / 2 ^ 1074 := by
  unfold ratOf value
  rw [units_eq, magBits_packBits neg h, signBit_packBits neg h]
  cases neg <;> simp

theorem ratOf_eq (c : F64) : ratOf c = (if signBit c then -1 else 1) * (magUnits (magBits c) : ℚ) / 2 ^ 1074 := by
  conv_lhs => rw [← packBits_self c]
  exact ratOf_packBits _ (magBits_lt c)

/-- `roundRatio` rounds to nearest, ties to even: the one rounding that every operation makes. -/
theorem roundRatio_isRounding (neg : Bool) (n : Nat) {d : Nat} (hd : 0 < d) :
    IsRounding ((if neg then -1 else 1) * ((n : ℚ) / d) / 2 ^ 1074) (roundRatio neg n d) := by
  obtain ⟨M, h1, h2, M', hM', he, hlo, hhi⟩ := roundRatio_eq neg n hd
  have hd' : (0 : ℚ) < d := by exact_mod_cast hd
  obtain ⟨x, hx⟩ : ∃ x : ℚ, x = (n : ℚ) / d := ⟨_, rfl⟩
  have hn : (n : ℚ) = d * x := by rw [hx]; field_simp
  have cast : ∀ a : Nat, ((d * a : Nat) : ℚ) = d * (a : ℚ) := fun a => by push_cast; ring
  have g1 : (magUnits M : ℚ) ≤ x := by
    have : ((d * magUnits M : Nat) : ℚ) ≤ n := by exact_mod_cast h1
    rw [cast, hn] at this; exact le_of_mul_le_mul_left this hd'
  have g2 : x < (magUnits (M + 1) : ℚ) := by
    have : (n : ℚ) < ((d * magUnits (M + 1) : Nat) : ℚ) := by exact_mod_cast h2
    rw [cast, hn] at this; exact lt_of_mul_lt_mul_left this hd'.le
  have two : ((2 * n : Nat) : ℚ) = d * (2 * x) := by push_cast; rw [hn]; ring
  have sum : ((d * (magUnits M + magUnits (M + 1)) : Nat) : ℚ) = d * ((magUnits M : ℚ) + magUnits (M + 1)) := by
    push_cast; ring
  have g3 : M' = M → 2 * x ≤ magUnits M + magUnits (M + 1) ∧ (2 * x = magUnits M + magUnits (M + 1) → M % 2 = 0) := by
    intro h
    obtain ⟨a, b⟩ := hlo h
    constructor
    · have : ((2 * n : Nat) : ℚ) ≤ ((d * (magUnits M + magUnits (M + 1)) : Nat) : ℚ) := by exact_mod_cast a
      rw [two, sum] at this; exact le_of_mul_le_mul_left this hd'
    · intro hh; apply b
      have : ((2 * n : Nat) : ℚ) = ((d * (magUnits M + magUnits (M + 1)) : Nat) : ℚ) := by rw [two, sum, hh]
      exact_mod_cast this
  have g4 : M' = M + 1 →
      (magUnits M : ℚ) + magUnits (M + 1) ≤ 2 * x ∧ (2 * x = magUnits M + magUnits (M + 1) → M % 2 = 1) := by
    intro h
    obtain ⟨a, b⟩ := hhi h
    constructor
    · have : ((d * (magUnits M + magUnits (M + 1)) : Nat) : ℚ) ≤ ((2 * n : Nat) : ℚ) := by exact_mod_cast a
      rw [two, sum] at this; exact le_of_mul_le_mul_left this hd'
    · intro hh; apply b
      have : ((2 * n : Nat) : ℚ) = ((d * (magUnits M + magUnits (M + 1)) : Nat) : ℚ) := by rw [two, sum, hh]
      exact_mod_cast this
  have mono : ∀ {a b : Nat}, a ≤ b → (magUnits a : ℚ) ≤ magUnits b := fun h => by exact_mod_cast magUnits_le_iff.2 h
  have pos : ∀ a : Nat, (0 : ℚ) ≤ magUnits a := fun a => by positivity
  obtain ⟨K, hK⟩ : ∃ K : ℚ, K = 2 ^ 2044 := ⟨_, rfl⟩
  have K0 : 0 < K := by rw [hK]; positivity
  have p98 : (2 : ℚ) ^ 2098 = 2 ^ 54 * K := by rw [hK, ← pow_add]
  have p45 : (2 : ℚ) ^ 2045 = 2 * K := by rw [hK, ← pow_succ']
  have hinf : (magUnits infBits : ℚ) = 2 ^ 54 * K := by rw [magUnits_inf, ← p98]; push_cast; rfl
  have hinf1 : (magUnits (infBits - 1) : ℚ) = 2 ^ 54 * K - 2 * K := by
    have h : infBits - 1 = 2045 * 2 ^ 52 + (2 ^ 53 - 1) := by decide
    have h' : ((2 : Nat) ^ 53 - 1 : Nat) = 9007199254740991 := by norm_num
    rw [h, magUnits_scaled (by norm_num) (.inr (by norm_num)), h', Nat.cast_mul, Nat.cast_pow, Nat.cast_two, p45]
    push_cast
    ring
  have x0 : 0 ≤ x := le_trans (pos M) g1
  obtain ⟨P, hP⟩ : ∃ P : ℚ, P = 2 ^ 1074 := ⟨_, rfl⟩
  have hP0 : 0 < P := by rw [hP]; positivity
  have habs : |(if neg then -1 else 1 : ℚ) * x / P| = x / P := by
    rw [abs_div, abs_mul, abs_of_pos hP0, abs_of_nonneg x0]
    cases neg <;> simp
  have hbound : ((2 : ℚ) ^ 1024 - 2 ^ 970) * P = 2 ^ 54 * K - K := by
    rw [hP, sub_mul, ← pow_add, ← pow_add, ← p98, hK]
  have hiff : |(if neg then -1 else 1 : ℚ) * x / P| < 2 ^ 1024 - 2 ^ 970 ↔ x < 2 ^ 54 * K - K := by
    rw [habs, div_lt_iff₀ hP0, hbound]
  rw [← hx, ← hP]
  clear hbound habs p98 p45 hK
  by_cases hfin : M' < infBits
  · rw [if_pos hfin] at he
    have hM63 : M' < 2 ^ 63 := lt_trans hfin infBits_lt
    have hr : ratOf (roundRatio neg n d) = (if neg then -1 else 1) * (magUnits M' : ℚ) / P := by
      rw [he, ratOf_packBits neg hM63, hP]
    have hlt : x < 2 ^ 54 * K - K := by
      rcases hM' with h | h
      · obtain ⟨a, b⟩ := g3 h
        have m1 := mono (show M ≤ infBits - 1 by omega)
        have m2 := mono (show M + 1 ≤ infBits by omega)
        rw [hinf1] at m1; rw [hinf] at m2
        rcases lt_or_eq_of_le (show x ≤ 2 ^ 54 * K - K by linarith) with hh | hh
        · exact hh
        · exfalso
          have e1 : (magUnits M : ℚ) = magUnits (infBits - 1) := by rw [hinf1]; linarith
          have e2 : M = infBits - 1 := magUnits_strictMono.injective (by exact_mod_cast e1)
          have e3 := b (by linarith)
          rw [e2] at e3; exact absurd e3 (by decide)
      · have m1 := mono (show M + 1 ≤ infBits - 1 by omega)
        rw [hinf1] at m1; linarith
    unfold IsRounding
    rw [if_pos (hiff.2 hlt)]
    refine ⟨by rw [he, isFinite_iff, magBits_packBits neg hM63]; exact hfin, fun c _ => ?_⟩
    have dr : |ratOf (roundRatio neg n d) - (if neg then -1 else 1) * x / P| = |(magUnits M' : ℚ) - x| / P := by
      rw [hr, ← sub_div, abs_div, abs_of_pos hP0, ← mul_sub, abs_mul]
      cases neg <;> simp
    have dc : |ratOf c - (if neg then -1 else 1) * x / P| =
        |(if signBit c = neg then (magUnits (magBits c) : ℚ) - x else magUnits (magBits c) + x)| / P := by
      rw [ratOf_eq c, ← hP, ← sub_div, abs_div, abs_of_pos hP0]
      congr 1
      cases neg <;> cases signBit c <;> simp
      · rw [← abs_neg]; congr 1; ring
      · rw [← abs_neg]; congr 1; ring
    have hcr : signBit c = neg → magBits c = M' → ratOf c = ratOf (roundRatio neg n d) := by
      intro a b; rw [hr, ratOf_eq c, a, b, hP]
    have hcz : magUnits (magBits c) = 0 → magUnits M' = 0 → ratOf c = ratOf (roundRatio neg n d) := by
      intro a b; rw [hr, ratOf_eq c, a, b]; simp
    have hmag : magBits (roundRatio neg n d) = M' := by rw [he, magBits_packBits neg hM63]
    rw [dr, dc, hmag, div_le_div_iff_of_pos_right hP0, div_left_inj' hP0.ne']
    generalize magBits c = mc at *
    have pc := pos mc
    have pM := pos M
    by_cases hs : signBit c = neg
    · rw [if_pos hs]
      rcases hM' with h | h
      · obtain ⟨a, b⟩ := g3 h
        subst h
        rw [abs_of_nonpos (by linarith : (magUnits M' : ℚ) - x ≤ 0)]
        rcases Nat.lt_or_ge M' mc with hmc | hmc
        · have m1 := mono (show M' + 1 ≤ mc by omega)
          rw [abs_of_nonneg (by linarith : 0 ≤ (magUnits mc : ℚ) - x)]
          exact ⟨by linarith, fun hh _ => b (by linarith)⟩
        · have m1 := mono hmc
          rw [abs_of_nonpos (by linarith : (magUnits mc : ℚ) - x ≤ 0)]
          refine ⟨by linarith, fun hh hne => absurd (hcr hs ?_) hne⟩
          have : (magUnits mc : ℚ) = magUnits M' := by linarith
          exact magUnits_strictMono.injective (by exact_mod_cast this)
      · obtain ⟨a, b⟩ := g4 h
        subst h
        rw [abs_of_nonneg (by linarith : 0 ≤ (magUnits (M + 1) : ℚ) - x)]
        rcases Nat.lt_or_ge M mc with hmc | hmc
        · have m1 := mono (show M + 1 ≤ mc by omega)
          rw [abs_of_nonneg (by linarith : 0 ≤ (magUnits mc : ℚ) - x)]
          refine ⟨by linarith, fun hh hne => absurd (hcr hs ?_) hne⟩
          have : (magUnits mc : ℚ) = magUnits (M + 1) := by linarith
          exact magUnits_strictMono.injective (by exact_mod_cast this)
        · have m1 := mono hmc
          rw [abs_of_nonpos (by linarith : (magUnits mc : ℚ) - x ≤ 0)]
          refine ⟨by linarith, fun hh _ => ?_⟩
          have := b (by linarith)
          omega
    · rw [if_neg hs, abs_of_nonneg (by linarith : 0 ≤ (magUnits mc : ℚ) + x)]
      rcases hM' with h | h
      · obtain ⟨a, b⟩ := g3 h
        subst h
        rw [abs_of_nonpos (by linarith : (magUnits M' : ℚ) - x ≤ 0)]
        refine ⟨by linarith, fun hh hne => absurd (hcz ?_ ?_) hne⟩
        · have : (magUnits mc : ℚ) = 0 := by linarith
          exact_mod_cast this
        · have : (magUnits M' : ℚ) = 0 := by linarith
          exact_mod_cast this
      · obtain ⟨a, b⟩ := g4 h
        subst h
        rw [abs_of_nonneg (by linarith : 0 ≤ (magUnits (M + 1) : ℚ) - x)]
        refine ⟨by linarith, fun hh _ => ?_⟩
        have := b (by linarith)
        omega
  · rw [if_neg hfin] at he
    have hge : 2 ^ 54 * K - K ≤ x := by
      rcases Nat.lt_or_ge M infBits with h | h
      · have hM1 : M = infBits - 1 := by omega
        obtain ⟨a, -⟩ := g4 (by omega)
        rw [show M + 1 = infBits by omega, hM1, hinf, hinf1] at a
        linarith
      · have := mono h; rw [hinf] at this; linarith
    unfold IsRounding
    rw [if_neg (by rw [hiff]; exact not_lt.2 hge), he]
    refine ⟨by rw [isInf, magBits_packBits neg infBits_lt]; simp, ?_⟩
    rw [signBit_packBits neg infBits_lt]
    have xpos : 0 < x := by linarith
    have : 0 < x / P := div_pos xpos hP0
    cases neg
    · simp; exact this.le
    · simp only [if_true, true_iff, neg_mul, one_mul, neg_div]; linarith

/-- A representable magnitude is rounded to itself. -/
theorem roundRatio_exact (neg : Bool) {n d mag : Nat} (hd : 0 < d) (h : n = d * magUnits mag) (hm : mag < infBits) :
    roundRatio neg n d = packBits neg mag := by
  obtain ⟨M, h1, h2, M', hM', he, hlo, hhi⟩ := roundRatio_eq neg n hd
  subst h
  have h1 := magUnits_le_iff.1 (Nat.le_of_mul_le_mul_left h1 hd)
  have h2 : mag < M + 1 := by
    by_contra hc
    have := Nat.mul_le_mul_left d (magUnits_le_iff.2 (not_lt.1 hc))
    omega
  have hMm : M = mag := by omega
  subst hMm
  rcases hM' with rfl | rfl
  · rw [he, if_pos hm]
  · have h3 := (hhi rfl).1
    have h4 := Nat.mul_lt_mul_of_pos_left (magUnits_lt_succ M) hd
    rw [Nat.mul_add] at h3; omega

theorem roundRatio_zero (neg : Bool) {d : Nat} (hd : 0 < d) : roundRatio neg 0 d = packBits neg 0 :=
  roundRatio_exact neg hd (by rw [magUnits_zero, Nat.mul_zero]) (by decide)

/-- A finite value is rounded to itself. -/
theorem roundRatio_units (a : F64) (h : isFinite a = true) : roundRatio (signBit a) (units a) 1 = a := by
  rw [roundRatio_exact _ one_pos (by rw [Nat.one_mul, units_eq]) ((isFinite_iff a).1 h), packBits_self]

/-- No rounding gives a NaN. -/
theorem isNaN_roundRatio (neg : Bool) (n : Nat) {d : Nat} (hd : 0 < d) : isNaN (roundRatio neg n d) = false := by
  obtain ⟨M, -, -, M', -, he, -, -⟩ := roundRatio_eq neg n hd
  rw [he, isNaN, magBits_packBits]
  · split <;> simp; omega
  · have := infBits_lt; split <;> omega

/-! Operations. -/

theorem ratOf_eq_zero_iff (a : F64) : ratOf a = 0 ↔ magBits a = 0 := by
  rw [← value_eq_zero_iff, ratOf, div_eq_zero_iff]; simp

theorem ratOf_inj {a b : F64} (h : ratOf a = ratOf b) (hz : magBits a ≠ 0) : a = b := by
  refine value_inj ?_ hz
  unfold ratOf at h
  have : (value a : ℚ) = value b := by
    have hp : (2 : ℚ) ^ 1074 ≠ 0 := by positivity
    exact (div_left_inj' hp).1 h
  exact_mod_cast this

theorem oneUnits_pos : 0 < oneUnits := Nat.two_pow_pos 1074

theorem oneUnits_cast : ((oneUnits : Nat) : ℚ) = 2 ^ 1074 := by unfold oneUnits; push_cast; rfl

/-- A signed integer number of units as the sign and magnitude that `roundRatio` takes. -/
theorem signed_natAbs (v : Int) : ((if decide (v < 0) = true then -1 else 1 : ℚ)) * ((v.natAbs : Nat) : ℚ) = v := by
  have h : ((v.natAbs : Nat) : ℚ) = |(v : ℚ)| := by rw [Nat.cast_natAbs, Int.cast_abs]
  rw [h]
  by_cases hv : v < 0
  · have : (v : ℚ) < 0 := by exact_mod_cast hv
    simp [hv, abs_of_neg this]
  · have : (0 : ℚ) ≤ v := by exact_mod_cast not_lt.1 hv
    simp [hv, abs_of_nonneg this]

theorem fadd_finite {a b : F64} (ha : isFinite a = true) (hb : isFinite b = true) :
    fadd a b =
      if value a + value b = 0 then (if signBit a && signBit b then negZero else posZero)
      else roundRatio (decide (value a + value b < 0)) (value a + value b).natAbs 1 := by
  simp [fadd, isNaN_of_isFinite ha, isNaN_of_isFinite hb, isInf_of_isFinite ha, isInf_of_isFinite hb]

theorem fmul_finite {a b : F64} (ha : isFinite a = true) (hb : isFinite b = true) :
    fmul a b = roundRatio (signBit a != signBit b) (units a * units b) oneUnits := by
  simp [fmul, isNaN_of_isFinite ha, isNaN_of_isFinite hb, isInf_of_isFinite ha, isInf_of_isFinite hb]

theorem isNaN_iff (a : F64) : isNaN a = true ↔ infBits < magBits a := by simp [isNaN]

theorem isInf_iff (a : F64) : isInf a = true ↔ magBits a = infBits := by simp [isInf]

@[simp] theorem magBits_fneg (a : F64) : magBits (fneg a) = magBits a := by
  have h : (fneg a).toNat = a.toNat ^^^ 2 ^ 63 := by simp [fneg, BitVec.toNat_xor]
  have h' := Nat.xor_mod_two_pow (a := a.toNat) (b := 2 ^ 63) (n := 63)
  rw [magBits, h, h']
  simp [magBits]

@[simp] theorem signBit_fneg (a : F64) : signBit (fneg a) = !signBit a := by
  have h : (0x8000000000000000#64).msb = true := by decide
  rw [signBit, fneg, BitVec.msb_xor, h, Bool.xor_true, signBit]

@[simp] theorem isNaN_fneg (a : F64) : isNaN (fneg a) = isNaN a := by simp [isNaN]
@[simp] theorem isInf_fneg (a : F64) : isInf (fneg a) = isInf a := by simp [isInf]
@[simp] theorem isFinite_fneg (a : F64) : isFinite (fneg a) = isFinite a := by simp [isFinite]

@[simp] theorem value_fneg (a : F64) : value (fneg a) = -value a := by
  unfold value; rw [units_eq, units_eq, magBits_fneg, signBit_fneg]; cases signBit a <;> simp

@[simp] theorem ratOf_fneg (a : F64) : ratOf (fneg a) = -ratOf a := by
  unfold ratOf; rw [value_fneg]; push_cast; ring

@[simp] theorem fneg_fneg (a : F64) : fneg (fneg a) = a := eq_of_sign_mag (by simp) (by simp)

theorem isNaN_freeNaN (op : Config.FloatOp) (a b : F64) : isNaN (freeNaN op a b) = true := by
  rw [isNaN_iff]
  unfold freeNaN
  simp only
  generalize (if (op = Config.FloatOp.add ∨ op = Config.FloatOp.mul) ∧ b.toNat < a.toNat then Config.nanBits op b a
    else Config.nanBits op a b) = bits
  have hb := bits.isLt
  have h1 := (bits.extractLsb' 51 1).isLt
  have h2 := (bits.extractLsb' 0 51).isLt
  simp only [magBits, BitVec.toNat_append, infBits]
  generalize (bits.extractLsb' 51 1).toNat = x at *
  generalize (bits.extractLsb' 0 51).toNat = y at *
  simp only [Nat.shiftLeft_eq]
  have or_add : ∀ (k x y : Nat), y < 2 ^ k → x * 2 ^ k ||| y = x * 2 ^ k + y := fun k x y h => by
    rw [Nat.mul_comm, ← Nat.two_pow_add_eq_or_of_lt h]
  rw [or_add 11 x _ (by decide), or_add 1 _ _ (by decide), or_add 51 _ _ h2]
  have c1 : (2047#11).toNat = 2047 := rfl
  have c2 : (1#1).toNat = 1 := rfl
  rw [c1, c2]
  omega

theorem freeNaN_comm {op : Config.FloatOp} (h : op = .add ∨ op = .mul) (a b : F64) : freeNaN op a b = freeNaN op b a := by
  unfold freeNaN
  rcases Nat.lt_trichotomy a.toNat b.toNat with hab | hab | hab
  · simp only [h, hab, true_and, if_true, if_neg (Nat.lt_asymm hab)]
  · rw [BitVec.eq_of_toNat_eq hab]
  · simp only [h, hab, true_and, if_true, if_neg (Nat.lt_asymm hab)]

/-- `a - (+0.0)` is `a`, bit for bit (R130). -/
theorem fsub_posZero (a : F64) : fsub a posZero = a := by
  by_cases hn : isNaN a = true
  · simp [fsub, hn, nanResult]
  · rw [Bool.not_eq_true] at hn
    have h0 : isNaN posZero = false := by decide
    have h1 : isInf posZero = false := by decide
    have h2 : isInf (fneg posZero) = false := by decide
    have h3 : isNaN (fneg posZero) = false := by decide
    by_cases hi : isInf a = true
    · simp [fsub, fadd, hn, h0, h1, h2, h3, hi]
    · rw [Bool.not_eq_true] at hi
      have hf := isFinite_of_not hn hi
      have hv : value (fneg posZero) = 0 := by decide
      have hs : signBit (fneg posZero) = true := by decide
      simp only [fsub, hn, h0, hi, Bool.or_self, Bool.false_and, Bool.false_eq_true, if_false]
      rw [fadd_finite hf (by decide), hv, hs, Int.add_zero]
      by_cases hz : value a = 0
      · rw [if_pos hz]
        have hm := (value_eq_zero_iff a).1 hz
        rw [← packBits_self a, hm]
        cases signBit a <;> rfl
      · rw [if_neg hz, value_natAbs]
        have hm : magBits a ≠ 0 := fun h => hz ((value_eq_zero_iff a).2 h)
        have : decide (value a < 0) = signBit a := by
          have := value_neg_iff a
          cases h : signBit a <;> simp [h, hm] at this ⊢ <;> omega
        rw [this, roundRatio_units a hf]

theorem one_units : units one = oneUnits := by
  have h : magBits one = 1022 * 2 ^ 52 + 2 ^ 52 := by decide
  rw [units_eq, h, magUnits_scaled (by norm_num) (.inr (by norm_num)), ← pow_add]; rfl

/-- `a * 1.0` is `a`, bit for bit. -/
theorem fmul_one (a : F64) : fmul a one = a := by
  have h0 : isNaN one = false := by decide
  have h1 : isInf one = false := by decide
  have h2 : isZero one = false := by decide
  by_cases hn : isNaN a = true
  · have : one ≠ posZero := by decide
    simp [fmul, hn, nanResult]
  · rw [Bool.not_eq_true] at hn
    by_cases hi : isInf a = true
    · simp only [fmul, hn, h0, h1, h2, hi, one_sign, Bool.or_self, Bool.and_false, Bool.false_eq_true, if_false, Bool.or_false,
        if_true]
      conv_rhs => rw [← packBits_self a, (isInf_iff a).1 hi]
      cases signBit a <;> rfl
    · rw [Bool.not_eq_true] at hi
      have hf := isFinite_of_not hn hi
      rw [fmul_finite hf (by decide), one_units, one_sign, units_eq,
        roundRatio_exact _ oneUnits_pos (Nat.mul_comm _ _) ((isFinite_iff a).1 hf)]
      conv_rhs => rw [← packBits_self a]
      cases signBit a <;> rfl

/-- Binary64 addition is commutative bit for bit (R127). -/
theorem fadd_comm (a b : F64) : fadd a b = fadd b a := by
  unfold fadd
  have hnan : nanResult .add a b = nanResult .add b a := by simp [nanResult, freeNaN_comm (.inl rfl) a b]
  rw [hnan, Bool.or_comm (isNaN a), Int.add_comm (value a), Bool.and_comm (signBit a)]
  by_cases hn : (isNaN b || isNaN a) = true
  · simp [hn]
  rw [if_neg hn, if_neg hn]
  by_cases ha : isInf a = true <;> by_cases hb : isInf b = true <;> simp only [ha, hb, Bool.true_and, Bool.false_and,
    if_true, if_false, Bool.false_eq_true]
  rw [show (signBit a != signBit b) = (signBit b != signBit a) by cases signBit a <;> cases signBit b <;> rfl]
  by_cases hs : (signBit b != signBit a) = true
  · simp [hs]
  · have : signBit a = signBit b := by cases h1 : signBit a <;> cases h2 : signBit b <;> simp [h1, h2] at hs ⊢
    simp only [hs, Bool.false_eq_true, if_false]
    exact eq_of_sign_mag this (by rw [(isInf_iff a).1 ha, (isInf_iff b).1 hb])

/-- Binary64 multiplication is commutative bit for bit (R89). -/
theorem fmul_comm (a b : F64) : fmul a b = fmul b a := by
  have hnan : nanResult .mul a b = nanResult .mul b a := by
    simp only [nanResult, freeNaN_comm (.inr rfl) a b, reduceCtorEq, false_and, if_false, true_and]
    by_cases h1 : a = one <;> by_cases h2 : b = one <;> simp [h1, h2]
  unfold fmul
  rw [hnan, Bool.or_comm (isNaN a), Nat.mul_comm (units a), Bool.or_comm (isInf a) (isInf b),
    show (signBit a != signBit b) = (signBit b != signBit a) by cases signBit a <;> cases signBit b <;> rfl,
    show (isInf a && isZero b || isZero a && isInf b) = (isInf b && isZero a || isZero b && isInf a) by
      cases isInf a <;> cases isInf b <;> cases isZero a <;> cases isZero b <;> rfl]

/-- An exact sum of finite values is the sum; a zero sum is +0.0 unless both operands are negative. -/
theorem fadd_exact {a b r : F64} (ha : isFinite a = true) (hb : isFinite b = true) (hr : isFinite r = true)
    (h : value r = value a + value b) (hz : magBits r ≠ 0) : fadd a b = r := by
  rw [fadd_finite ha hb, ← h, if_neg (fun h0 => hz ((value_eq_zero_iff r).1 h0)), value_natAbs]
  have : decide (value r < 0) = signBit r := by
    have := value_neg_iff r
    cases h : signBit r <;> simp [h, hz] at this ⊢ <;> omega
  rw [this, roundRatio_units r hr]

/-! Integers. -/

theorem ratOf_posZero : ratOf posZero = 0 := (ratOf_eq_zero_iff _).2 (by decide)

/-- An integer below 2^53 is representable (R11). -/
theorem int_mag (n : Nat) (h : n < 2 ^ 53) : ∃ mag, mag < infBits ∧ magUnits mag = n * oneUnits := by
  rcases Nat.eq_zero_or_pos n with rfl | h0
  · exact ⟨0, by decide, by rw [magUnits_zero, Nat.zero_mul]⟩
  · have hl : Nat.log2 n ≤ 52 := by
      have := (Nat.log2_lt (by omega : n ≠ 0)).2 h
      omega
    have h1 := Nat.log2_self_le (by omega : n ≠ 0)
    have h2 : n < 2 ^ (Nat.log2 n + 1) := Nat.lt_log2_self
    refine ⟨(1022 + Nat.log2 n) * 2 ^ 52 + n * 2 ^ (52 - Nat.log2 n), ?_, ?_⟩
    · have : n * 2 ^ (52 - Nat.log2 n) < 2 ^ 53 := by
        calc n * 2 ^ (52 - Nat.log2 n) < 2 ^ (Nat.log2 n + 1) * 2 ^ (52 - Nat.log2 n) :=
              Nat.mul_lt_mul_of_pos_right h2 (Nat.two_pow_pos _)
          _ = 2 ^ 53 := by rw [← pow_add]; congr 1; omega
      have hi : infBits = 2047 * 2 ^ 52 := by decide
      rw [hi]
      omega
    · rw [magUnits_scaled]
      · rw [Nat.mul_assoc, ← pow_add]; unfold oneUnits; congr 2; omega
      · have : n * 2 ^ (52 - Nat.log2 n) < 2 ^ 53 := by
          calc n * 2 ^ (52 - Nat.log2 n) < 2 ^ (Nat.log2 n + 1) * 2 ^ (52 - Nat.log2 n) :=
                Nat.mul_lt_mul_of_pos_right h2 (Nat.two_pow_pos _)
            _ = 2 ^ 53 := by rw [← pow_add]; congr 1; omega
        omega
      · right
        calc 2 ^ 52 = 2 ^ Nat.log2 n * 2 ^ (52 - Nat.log2 n) := by rw [← pow_add]; congr 1; omega
          _ ≤ _ := Nat.mul_le_mul_right _ h1

/-- `f64` of a representable integer is that integer. -/
theorem f64_of_mag (k : Int) {mag : Nat} (hm : mag < infBits) (h : magUnits mag = k.natAbs * oneUnits) :
    f64 k = packBits (decide (k < 0)) mag ∧ isFinite (f64 k) = true ∧ ratOf (f64 k) = k := by
  have e : f64 k = packBits (decide (k < 0)) mag := roundRatio_exact _ one_pos (by rw [Nat.one_mul, h]) hm
  have h63 := lt_trans hm infBits_lt
  refine ⟨e, by rw [e, isFinite_iff, magBits_packBits _ h63]; exact hm, ?_⟩
  rw [e, ratOf_packBits _ h63, h, Nat.cast_mul, oneUnits_cast]
  have := signed_natAbs k
  have h2 : (2:ℚ)^1074 ≠ 0 := by positivity
  rw [← mul_assoc, mul_div_assoc, div_self h2, mul_one]
  exact this

/-- `f64` is exact below 2^53 (R11). -/
theorem f64_exact (k : Int) (h : |k| < 2 ^ 53) : isFinite (f64 k) = true ∧ ratOf (f64 k) = k := by
  obtain ⟨mag, h1, h2⟩ := int_mag k.natAbs (by rw [← Int.natCast_natAbs] at h; exact_mod_cast h)
  exact (f64_of_mag k h1 h2).2

/-- The comparison of finite values is that of the numbers they stand for (R12). -/
theorem flt_iff {a b : F64} (ha : isFinite a = true) (hb : isFinite b = true) :
    (flt a b = true ↔ ratOf a < ratOf b) := by
  have hk : ∀ a : F64, orderKey a = if signBit a then -(magBits a : Int) else magBits a := fun a => rfl
  have key : orderKey a < orderKey b ↔ value a < value b := by
    unfold orderKey value
    rw [units_eq, units_eq]
    have m : ∀ x y : Nat, magUnits x < magUnits y ↔ x < y := fun x y => magUnits_strictMono.lt_iff_lt
    have z := magUnits_zero
    have p : ∀ x, magUnits x = 0 ↔ x = 0 := fun x => by rw [← magUnits_strictMono.injective.eq_iff (a := x) (b := 0), z]
    have h1 := m (magBits a) (magBits b); have h2 := m (magBits b) (magBits a)
    have p1 := p (magBits a); have p2 := p (magBits b)
    cases signBit a <;> cases signBit b <;> simp only [Bool.false_eq_true, if_true, if_false] <;> omega
  simp only [flt, isNaN_of_isFinite ha, isNaN_of_isFinite hb, Bool.not_false, Bool.true_and, decide_eq_true_eq]
  rw [key]
  unfold ratOf
  have : (0:ℚ) < 2^1074 := by positivity
  rw [div_lt_div_iff_of_pos_right this]
  exact_mod_cast Iff.rfl

end Sys2Proof.Machine
end

