-- ==== Sys2Proof/Laws/Memory.lean ====
section
/-! SUPPORT. The laws of the memories: read after write, what a write leaves alone, and the canonical form, for a byte, an
element, a row and a region. -/

namespace Sys2Proof.Machine

/-! One list of cells. -/

/-- Read after write, where an unlisted byte reads as `r`, which is its known value `d` if it has one. -/
theorem Cells.read_write_same {d : Option Byte} {r : Byte} (hr : ∀ x, some x = d → r = x) (v : Byte) (a : Nat) :
    ∀ cs : Cells, cs.Pairwise (fun c c' => c.1 < c'.1) → Cells.read r (Cells.write d a v cs) a = v := by
  intro cs
  induction cs with
  | nil =>
    intro _
    by_cases h : some v = d
    · simp [Cells.write, Cells.read, h, hr v h]
    · simp [Cells.write, Cells.read, h]
  | cons c cs ih =>
    obtain ⟨k, w⟩ := c
    intro hp
    obtain ⟨hk, hp'⟩ := List.pairwise_cons.1 hp
    have miss : ∀ l : Cells, (∀ c ∈ l, a < c.1) → Cells.read r l a = r := by
      intro l
      induction l with
      | nil => intro _; rfl
      | cons c l ih' =>
        intro hl
        have := hl c (by simp)
        simp [Cells.read, show c.1 ≠ a by omega, ih' fun c hc => hl c (by simp [hc])]
    rcases Nat.lt_trichotomy k a with h | h | h
    · simp [Cells.write, h, Cells.read, show k ≠ a by omega, ih hp']
    · subst h
      by_cases hv : some v = d
      · simp [Cells.write, hv, (miss cs hk).trans (hr v hv)]
      · simp [Cells.write, hv, Cells.read]
    · by_cases hv : some v = d
      · simp [Cells.write, hv, show ¬ k < a by omega, show k ≠ a by omega, Cells.read,
          (miss cs fun c hc => Nat.lt_trans h (hk c hc)).trans (hr v hv)]
      · simp [Cells.write, hv, show ¬ k < a by omega, show k ≠ a by omega, Cells.read]

theorem Cells.read_write_other (d : Option Byte) (r v : Byte) {a b : Nat} (hab : a ≠ b) :
    ∀ cs : Cells, Cells.read r (Cells.write d a v cs) b = Cells.read r cs b := by
  intro cs
  induction cs with
  | nil => by_cases h : some v = d <;> simp [Cells.write, Cells.read, h, hab]
  | cons c cs ih =>
    obtain ⟨k, w⟩ := c
    rcases Nat.lt_trichotomy k a with h | h | h
    · simp [Cells.write, h, Cells.read, ih]
    · subst h
      by_cases hv : some v = d <;> simp [Cells.write, hv, Cells.read, hab]
    · by_cases hv : some v = d <;>
        simp [Cells.write, hv, show ¬ k < a by omega, show k ≠ a by omega, Cells.read, hab]

/-- Every cell of the written list is the new one or an old one. -/
theorem Cells.mem_write {d : Option Byte} {v : Byte} {a : Nat} {c : Host.Cell} :
    ∀ {cs : Cells}, c ∈ Cells.write d a v cs → (c = (a, v) ∧ some v ≠ d) ∨ c ∈ cs := by
  intro cs
  induction cs with
  | nil => by_cases hv : some v = d <;> simp [Cells.write, hv]
  | cons c' cs ih =>
    obtain ⟨k, w⟩ := c'
    intro hc
    simp only [Cells.write] at hc
    split at hc
    · rcases List.mem_cons.1 hc with h | h
      · exact .inr (by simp [h])
      · rcases ih h with h' | h'
        · exact .inl h'
        · exact .inr (by simp [h'])
    · split at hc
      · split at hc
        · exact .inr (by simp [hc])
        · rcases List.mem_cons.1 hc with h | h
          · exact .inl ⟨h, ‹_›⟩
          · exact .inr (by simp [h])
      · split at hc
        · exact .inr hc
        · rcases List.mem_cons.1 hc with h | h
          · exact .inl ⟨h, ‹_›⟩
          · exact .inr h

theorem Cells.write_rising (d : Option Byte) (v : Byte) (a : Nat) :
    ∀ cs : Cells, cs.Pairwise (fun c c' => c.1 < c'.1) → (Cells.write d a v cs).Pairwise (fun c c' => c.1 < c'.1) := by
  intro cs
  induction cs with
  | nil => intro _; by_cases hv : some v = d <;> simp [Cells.write, hv]
  | cons c cs ih =>
    obtain ⟨k, w⟩ := c
    intro hp
    obtain ⟨hk, hp'⟩ := List.pairwise_cons.1 hp
    simp only [Cells.write]
    split
    · refine List.pairwise_cons.2 ⟨fun c hc => ?_, ih hp'⟩
      rcases Cells.mem_write hc with h | h
      · simpa [h.1] using ‹k < a›
      · exact hk c h
    · split
      · subst k
        split
        · exact hp'
        · exact List.pairwise_cons.2 ⟨hk, hp'⟩
      · split
        · exact hp
        · refine List.pairwise_cons.2 ⟨fun c hc => ?_, hp⟩
          have : a < k := by omega
          rcases List.mem_cons.1 hc with h | h
          · simpa [h] using this
          · exact Nat.lt_trans this (hk c h)

theorem Cells.write_wf {b : Buf} {a : Nat} (v : Byte) {cs : Cells} (ha : b.holds a = true) (h : Cells.wf b cs) :
    Cells.wf b (Cells.write b.unlisted a v cs) := by
  refine ⟨Cells.write_rising _ _ _ _ h.1, fun c hc => ?_⟩
  rcases Cells.mem_write hc with ⟨rfl, hv⟩ | hc'
  · exact ⟨ha, hv⟩
  · exact h.2 c hc'

/-- A byte with a known unlisted value reads as that value. -/
theorem Buf.initial_of_unlisted {b : Buf} {v : Byte} (off : Nat) (h : some v = b.unlisted) : b.initial off = v := by
  simp [Buf.initial, ← h]

/-! The memories. -/

@[simp] theorem Memory.cells_setCells_same (m : Memory) (b : Buf) (cs : Cells) : (m.setCells b cs).cells b = cs := by
  cases b <;> rfl

@[simp] theorem Memory.cells_setCells_other (m : Memory) {b b' : Buf} (cs : Cells) (h : b ≠ b') :
    (m.setCells b cs).cells b' = m.cells b' := by
  cases b <;> cases b' <;> first | rfl | exact absurd rfl h

/-- Two memories with the same cells everywhere are equal. -/
theorem Memory.ext_cells {m m' : Memory} (h : ∀ b, m.cells b = m'.cells b) : m = m' := by
  cases m; cases m'
  have h1 := h .wmat; have h2 := h .vbuf; have h3 := h .fin; have h4 := h .recE
  have h5 := h .recD; have h6 := h .res; have h7 := h .coef; have h8 := h .mv
  simp only [Memory.cells] at h1 h2 h3 h4 h5 h6 h7 h8
  simp [*]

theorem Memory.wf_iff (m : Memory) : m.wf ↔ ∀ b, Cells.wf b (m.cells b) :=
  ⟨fun h b => h b (by cases b <;> simp [Buf.all]), fun h b _ => h b⟩

theorem Memory.reset_wf : Memory.reset.wf := by decide

/-- At power-on every byte of a buffer reads as its free value (R52, R175). -/
theorem Memory.byte_reset {b : Buf} (hb : b ≠ .wmat) {off : Nat} (ho : b.holds off = true) :
    Memory.reset.byte b off = Config.powerOnByte off := by
  cases b <;> first | exact absurd rfl hb | simp [Memory.byte, ho, Memory.reset, Memory.cells, Cells.read, Buf.initial, Buf.unlisted]

/-- What a byte write can do: one memory, and of it one byte. -/
theorem Memory.cells_setByte_other (m : Memory) {b b' : Buf} (off : Nat) (v : Byte) (h : b ≠ b') :
    (m.setByte b off v).cells b' = m.cells b' := by
  unfold Memory.setByte; split
  · exact Memory.cells_setCells_other m _ h
  · rfl

theorem Memory.byte_setByte_same {m : Memory} (hm : m.wf) {b : Buf} {off : Nat} (ho : b.holds off = true) (v : Byte) :
    (m.setByte b off v).byte b off = v := by
  have := ((Memory.wf_iff m).1 hm b).1
  simp [Memory.setByte, Memory.byte, ho, Cells.read_write_same (fun _ h => Buf.initial_of_unlisted off h) _ _ _ this]

theorem Memory.byte_setByte_other (m : Memory) (b b' : Buf) {off off' : Nat} (v : Byte) (h : b ≠ b' ∨ off ≠ off') :
    (m.setByte b off v).byte b' off' = m.byte b' off' := by
  by_cases hb : b = b'
  · subst hb
    have ho : off ≠ off' := by simpa using h
    unfold Memory.setByte Memory.byte
    by_cases hh : b.holds off = true
    · simp [hh, Cells.read_write_other _ _ _ ho]
    · simp [hh]
  · simp [Memory.byte, Memory.cells_setByte_other m off v hb]

theorem Memory.setByte_wf {m : Memory} (hm : m.wf) (b : Buf) (off : Nat) (v : Byte) : (m.setByte b off v).wf := by
  unfold Memory.setByte; split
  · rename_i ho
    rw [Memory.wf_iff] at hm ⊢
    intro b'
    by_cases hb : b = b'
    · subst hb; simpa using Cells.write_wf v ho (hm b)
    · simpa [hb] using hm b'
  · exact hm

/-! Little-endian elements. -/

theorem Memory.cells_writeLE_other {b b' : Buf} (h : b ≠ b') :
    ∀ (n off v : Nat) (m : Memory), (m.writeLE b n off v).cells b' = m.cells b' := by
  intro n
  induction n with
  | zero => intros; rfl
  | succ n ih => intro off v m; rw [Memory.writeLE, ih, Memory.cells_setByte_other m _ _ h]

theorem Memory.writeLE_wf (b : Buf) : ∀ (n off v : Nat) {m : Memory}, m.wf → (m.writeLE b n off v).wf := by
  intro n
  induction n with
  | zero => intro off v m h; exact h
  | succ n ih => intro off v m h; exact ih _ _ (Memory.setByte_wf h _ _ _)

theorem Memory.byte_writeLE_other (b b' : Buf) :
    ∀ (n off v : Nat) (m : Memory) (off' : Nat), (b ≠ b' ∨ off' < off ∨ off + n ≤ off') →
      (m.writeLE b n off v).byte b' off' = m.byte b' off' := by
  intro n
  induction n with
  | zero => intros; rfl
  | succ n ih =>
    intro off v m off' h
    have h1 : b ≠ b' ∨ off' < off + 1 ∨ off + 1 + n ≤ off' := h.imp id fun h => by omega
    have h2 : b ≠ b' ∨ off ≠ off' := h.imp id fun h => by omega
    rw [Memory.writeLE, ih _ _ _ _ h1, Memory.byte_setByte_other _ _ _ _ h2]

/-- A read depends on its bytes alone. -/
theorem Memory.readLE_congr (b : Buf) :
    ∀ (n off : Nat) {m m' : Memory}, (∀ k < n, m.byte b (off + k) = m'.byte b (off + k)) →
      m.readLE b n off = m'.readLE b n off := by
  intro n
  induction n with
  | zero => intros; rfl
  | succ n ih =>
    intro off m m' h
    have h0 : m.byte b off = m'.byte b off := h 0 (by omega)
    have ht : m.readLE b n (off + 1) = m'.readLE b n (off + 1) :=
      ih (off + 1) fun k hk => by have := h (k + 1) (by omega); rwa [← Nat.add_assoc, Nat.add_right_comm] at this
    rw [Memory.readLE, Memory.readLE, h0, ht]

/-- Read after write of `n` bytes that all hold storage: the number modulo 256^n (R55). -/
theorem Memory.readLE_writeLE_same (b : Buf) :
    ∀ (n off v : Nat) {m : Memory}, m.wf → (∀ k < n, b.holds (off + k) = true) →
      (m.writeLE b n off v).readLE b n off = v % 256 ^ n := by
  intro n
  induction n with
  | zero => intro off v m _ _; simp [Memory.readLE, Nat.mod_one]
  | succ n ih =>
    intro off v m hm hh
    have h0 : b.holds off = true := hh 0 (by omega)
    rw [Memory.writeLE, Memory.readLE, ih _ _ (Memory.setByte_wf hm _ _ _) fun k hk => by
        have := hh (k + 1) (by omega); rwa [← Nat.add_assoc, Nat.add_right_comm] at this,
      Memory.byte_writeLE_other _ _ _ _ _ _ _ (.inr (.inl (by omega))), Memory.byte_setByte_same hm h0]
    rw [BitVec.toNat_ofNat, Nat.pow_succ 256 n, Nat.mul_comm (256 ^ n) 256, Nat.mod_mul]

theorem Memory.readLE_lt (m : Memory) (b : Buf) : ∀ n off : Nat, m.readLE b n off < 256 ^ n := by
  intro n
  induction n with
  | zero => intro off; simp [Memory.readLE]
  | succ n ih =>
    intro off
    have h1 := ih (off + 1)
    have h2 : (m.byte b off).toNat < 256 := (m.byte b off).isLt
    rw [Memory.readLE, pow_succ]; omega

/-! Elements. `b.fits y x` says that element (y, x) is one of the buffer's. -/

/-- Element (row y, column x) lies in the buffer. -/
abbrev Buf.fits (b : Buf) (y x : Nat) : Prop := y < b.rows ∧ x < b.stride

theorem Buf.holds_addr {b : Buf} (hb : b ≠ .wmat) {y x k : Nat} (h : b.fits y x) (hk : k < b.elemSize) :
    b.holds (b.addr y x + k) = true := by
  obtain ⟨hy, hx⟩ := h
  simp only [Buf.holds, Bool.and_eq_true, Bool.or_eq_true, decide_eq_true_eq, bne_iff_ne]
  refine ⟨⟨by unfold Buf.addr; omega, ?_⟩, .inl hb⟩
  cases b <;> first | exact absurd rfl hb |
    (simp only [Buf.addr, Buf.base, Buf.size, Buf.elemSize, Buf.stride, Buf.rows, Config.wmax, Config.hmax,
      Config.nmax] at *
     omega)

/-- Distinct elements of a buffer share no byte. -/
theorem Buf.addr_disjoint {b : Buf} {y x y' x' : Nat} (hx : x < b.stride) (hx' : x' < b.stride)
    (h : y ≠ y' ∨ x ≠ x') : b.addr y x + b.elemSize ≤ b.addr y' x' ∨ b.addr y' x' + b.elemSize ≤ b.addr y x := by
  have key : b.stride * y + x + 1 ≤ b.stride * y' + x' ∨ b.stride * y' + x' + 1 ≤ b.stride * y + x := by
    rcases Nat.lt_trichotomy y y' with hy | hy | hy
    · left
      have : b.stride * (y + 1) ≤ b.stride * y' := Nat.mul_le_mul_left _ hy
      rw [Nat.mul_succ] at this; omega
    · subst hy; omega
    · right
      have : b.stride * (y' + 1) ≤ b.stride * y := Nat.mul_le_mul_left _ hy
      rw [Nat.mul_succ] at this; omega
  unfold Buf.addr
  rcases key with h | h
  · left
    have := Nat.mul_le_mul_left b.elemSize h
    rw [Nat.mul_succ] at this; omega
  · right
    have := Nat.mul_le_mul_left b.elemSize h
    rw [Nat.mul_succ] at this; omega

theorem Memory.elem_setElem_same {m : Memory} (hm : m.wf) {b : Buf} (hb : b ≠ .wmat) {y x : Nat} (h : b.fits y x)
    (v : Nat) : (m.setElem b y x v).elem b y x = v % 256 ^ b.elemSize :=
  Memory.readLE_writeLE_same b _ _ _ hm fun _ hk => Buf.holds_addr hb h hk

theorem Memory.elem_setElem_other (m : Memory) (b : Buf) {y x y' x' : Nat} (v : Nat) (hx : x < b.stride)
    (hx' : x' < b.stride) (h : y ≠ y' ∨ x ≠ x') : (m.setElem b y x v).elem b y' x' = m.elem b y' x' := by
  refine Memory.readLE_congr b _ _ fun k hk => Memory.byte_writeLE_other _ _ _ _ _ _ _ (.inr ?_)
  rcases Buf.addr_disjoint hx hx' h with h | h <;> omega

theorem Memory.setElem_wf {m : Memory} (hm : m.wf) (b : Buf) (y x v : Nat) : (m.setElem b y x v).wf :=
  Memory.writeLE_wf b _ _ _ hm

theorem Memory.elem_lt (m : Memory) (b : Buf) (y x : Nat) : m.elem b y x < 256 ^ b.elemSize := Memory.readLE_lt m b _ _

/-! Rows and regions. -/

theorem Memory.putRow_wf (b : Buf) (y : Nat) : ∀ (vs : List Nat) (x : Nat) {m : Memory}, m.wf → (m.putRow b y x vs).wf := by
  intro vs
  induction vs with
  | nil => intro x m h; exact h
  | cons v vs ih => intro x m h; exact ih _ (Memory.setElem_wf h _ _ _ _)

theorem Memory.putRows_wf (b : Buf) : ∀ (rs : Grid Nat) (y : Nat) {m : Memory}, m.wf → (m.putRows b y rs).wf := by
  intro rs
  induction rs with
  | nil => intro y m h; exact h
  | cons r rs ih => intro y m h; exact ih _ (Memory.putRow_wf b y r 0 h)

theorem Memory.cells_putRow_other {b b' : Buf} (h : b ≠ b') (y : Nat) :
    ∀ (vs : List Nat) (x : Nat) (m : Memory), (m.putRow b y x vs).cells b' = m.cells b' := by
  intro vs
  induction vs with
  | nil => intros; rfl
  | cons v vs ih => intro x m; rw [Memory.putRow, ih]; exact Memory.cells_writeLE_other h _ _ _ m

theorem Memory.cells_putRows_other {b b' : Buf} (h : b ≠ b') :
    ∀ (rs : Grid Nat) (y : Nat) (m : Memory), (m.putRows b y rs).cells b' = m.cells b' := by
  intro rs
  induction rs with
  | nil => intros; rfl
  | cons r rs ih => intro y m; rw [Memory.putRows, ih, Memory.cells_putRow_other h]

/-- A row write leaves alone every byte outside its elements. -/
theorem Memory.byte_putRow_other (b : Buf) (y : Nat) :
    ∀ (vs : List Nat) (x : Nat) (m : Memory) (off : Nat),
      (∀ x', x ≤ x' → x' < x + vs.length → off < b.addr y x' ∨ b.addr y x' + b.elemSize ≤ off) →
      (m.putRow b y x vs).byte b off = m.byte b off := by
  intro vs
  induction vs with
  | nil => intros; rfl
  | cons v vs ih =>
    intro x m off h
    rw [Memory.putRow, ih _ _ _ fun x' h1 h2 => h x' (by omega) (by simp only [List.length_cons]; omega)]
    exact Memory.byte_writeLE_other _ _ _ _ _ _ _ (.inr (h x (by omega) (by simp)))

/-- A region write leaves alone every byte outside its elements. -/
theorem Memory.byte_putRows_other (b : Buf) (w : Nat) :
    ∀ (rs : Grid Nat) (y : Nat) (m : Memory) (off : Nat), (∀ r ∈ rs, r.length ≤ w) →
      (∀ y', y ≤ y' → y' < y + rs.length → ∀ x' < w, off < b.addr y' x' ∨ b.addr y' x' + b.elemSize ≤ off) →
      (m.putRows b y rs).byte b off = m.byte b off := by
  intro rs
  induction rs with
  | nil => intros; rfl
  | cons r rs ih =>
    intro y m off hl h
    rw [Memory.putRows, ih _ _ _ (fun r hr => hl r (by simp [hr]))
        fun y' h1 h2 => h y' (by omega) (by simp only [List.length_cons]; omega)]
    have hr := hl r (by simp)
    exact Memory.byte_putRow_other b y r 0 m off fun x' _ h2 => h y (by omega) (by simp) x' (by omega)

theorem Memory.elem_putRow_other (b : Buf) (y : Nat) :
    ∀ (vs : List Nat) (x : Nat) (m : Memory) (y' x' : Nat), x + vs.length ≤ b.stride → x' < b.stride →
      (y ≠ y' ∨ x' < x ∨ x + vs.length ≤ x') → (m.putRow b y x vs).elem b y' x' = m.elem b y' x' := by
  intro vs
  induction vs with
  | nil => intros; rfl
  | cons v vs ih =>
    intro x m y' x' hl hx' h
    simp only [List.length_cons] at hl h
    rw [Memory.putRow, ih _ _ _ _ (by omega) hx' (by omega),
      Memory.elem_setElem_other m b v (by omega) hx' (by omega)]

theorem Memory.elem_putRow_same {b : Buf} (hb : b ≠ .wmat) {y : Nat} (hy : y < b.rows) :
    ∀ (vs : List Nat) (x : Nat) {m : Memory}, m.wf → x + vs.length ≤ b.stride → ∀ k (hk : k < vs.length),
      (m.putRow b y x vs).elem b y (x + k) = vs[k] % 256 ^ b.elemSize := by
  intro vs
  induction vs with
  | nil => intro x m _ _ k hk; simp at hk
  | cons v vs ih =>
    intro x m hm hl k hk
    simp only [List.length_cons] at hl hk
    rw [Memory.putRow]
    cases k with
    | zero =>
      rw [Memory.elem_putRow_other b y vs _ _ _ _ (by omega) (by omega) (.inr (.inl (by omega)))]
      exact Memory.elem_setElem_same hm hb ⟨hy, by omega⟩ v
    | succ k =>
      have := ih (x + 1) (Memory.setElem_wf hm b y x v) (by omega) k (by omega)
      simpa [Nat.add_assoc, Nat.add_comm 1 k] using this

theorem Memory.elem_putRows_other (b : Buf) {w : Nat} (hw : w ≤ b.stride) :
    ∀ (rs : Grid Nat) (y : Nat) (m : Memory) (y' x' : Nat), (∀ r ∈ rs, r.length ≤ w) → x' < b.stride →
      (y' < y ∨ y + rs.length ≤ y' ∨ w ≤ x') → (m.putRows b y rs).elem b y' x' = m.elem b y' x' := by
  intro rs
  induction rs with
  | nil => intros; rfl
  | cons r rs ih =>
    intro y m y' x' hl hx' h
    have hr := hl r (by simp)
    simp only [List.length_cons] at h
    rw [Memory.putRows, ih _ _ _ _ (fun r hr => hl r (by simp [hr])) hx' (by omega),
      Memory.elem_putRow_other b y r 0 m y' x' (by omega) hx' (by omega)]

theorem Memory.elem_putRows_same {b : Buf} (hb : b ≠ .wmat) {w : Nat} (hw : w ≤ b.stride) :
    ∀ (rs : Grid Nat) (y : Nat) {m : Memory}, m.wf → (∀ r ∈ rs, r.length = w) → y + rs.length ≤ b.rows →
      ∀ j (hj : j < rs.length), ∀ x (hx : x < rs[j].length),
        (m.putRows b y rs).elem b (y + j) x = rs[j][x] % 256 ^ b.elemSize := by
  intro rs
  induction rs with
  | nil => intro y m _ _ _ j hj; simp at hj
  | cons r rs ih =>
    intro y m hm hl hy j hj x hx
    have hr := hl r (by simp)
    simp only [List.length_cons] at hy hj
    rw [Memory.putRows]
    cases j with
    | zero =>
      simp only [List.getElem_cons_zero] at hx ⊢
      rw [Memory.elem_putRows_other b hw rs (y + 1) _ _ _ (fun r' h' => (hl r' (by simp [h'])).le) (by omega)
        (.inl (by omega))]
      simpa using Memory.elem_putRow_same hb (by omega) r 0 hm (by omega) x hx
    | succ j =>
      simp only [List.getElem_cons_succ] at hx ⊢
      have := ih (y + 1) (Memory.putRow_wf b y r 0 hm) (fun r' h' => hl r' (by simp [h'])) (by omega) j (by omega) x hx
      simpa [Nat.add_assoc, Nat.add_comm 1 j] using this

/-- The region read back after a region write is what was written (R63, R68). -/
theorem Memory.region_putRows {b : Buf} (hb : b ≠ .wmat) {h w : Nat} (hw : w ≤ b.stride) (hh : h ≤ b.rows) {m : Memory}
    (hm : m.wf) {rs : Grid Nat} (hl : rs.length = h) (hr : ∀ r ∈ rs, r.length = w)
    (hv : ∀ r ∈ rs, ∀ v ∈ r, v < 256 ^ b.elemSize) : (m.putRows b 0 rs).region b h w = rs := by
  apply List.ext_getElem
  · simp [Memory.region, hl]
  intro j h1 h2
  have hj := hr rs[j] (List.getElem_mem h2)
  apply List.ext_getElem
  · simp [Memory.region, hj]
  intro x h3 h4
  have := Memory.elem_putRows_same hb hw rs 0 hm hr (by omega) j h2 x h4
  simp only [Memory.region, List.getElem_map, List.getElem_range]
  rw [Nat.zero_add] at this
  rw [this, Nat.mod_eq_of_lt (hv _ (List.getElem_mem h2) _ (List.getElem_mem h4))]

/-- A region depends on the cells of its buffer alone. -/
theorem Memory.region_congr {b : Buf} {m m' : Memory} (h : m.cells b = m'.cells b) (r c : Nat) :
    m.region b r c = m'.region b r c := by
  have hb : ∀ off, m.byte b off = m'.byte b off := fun off => by simp [Memory.byte, h]
  simp only [Memory.region, Memory.elem]
  refine List.map_congr_left fun y _ => List.map_congr_left fun x _ => Memory.readLE_congr b _ _ fun k _ => hb _

/-! Unspecified contents. -/

theorem Memory.cells_scramble_other {b b' : Buf} (h : b ≠ b') (m : Memory) (r c draw : Nat) :
    (m.scramble b r c draw).cells b' = m.cells b' := by
  unfold Memory.scramble
  generalize (List.range r).flatMap _ = l
  induction l generalizing m with
  | nil => rfl
  | cons off l ih => rw [List.foldl_cons, ih, Memory.cells_setByte_other m _ _ h]

theorem Memory.scramble_wf {m : Memory} (hm : m.wf) (b : Buf) (r c draw : Nat) : (m.scramble b r c draw).wf := by
  unfold Memory.scramble
  generalize (List.range r).flatMap _ = l
  induction l generalizing m with
  | nil => exact hm
  | cons off l ih => exact ih (Memory.setByte_wf hm _ _ _)

/-- A scrambled region leaves alone every byte outside its elements. -/
theorem Memory.byte_scramble_other (m : Memory) (b : Buf) (r c draw off : Nat)
    (h : ∀ y < r, ∀ x < c, off < b.addr y x ∨ b.addr y x + b.elemSize ≤ off) :
    (m.scramble b r c draw).byte b off = m.byte b off := by
  unfold Memory.scramble
  have hl : ∀ o ∈ (List.range r).flatMap (fun y => (List.range c).flatMap fun x =>
      (List.range b.elemSize).map fun k => b.addr y x + k), o ≠ off := by
    intro o ho
    simp only [List.mem_flatMap, List.mem_range, List.mem_map] at ho
    obtain ⟨y, hy, x, hx, k, hk, rfl⟩ := ho
    rcases h y hy x hx with h | h <;> omega
  revert hl
  generalize (List.range r).flatMap _ = l
  intro hl
  induction l generalizing m with
  | nil => rfl
  | cons o l ih =>
    rw [List.foldl_cons, ih _ fun o' h' => hl o' (by simp [h']),
      Memory.byte_setByte_other m b b _ (.inr (hl o (by simp)))]

theorem Memory.cells_forget_other {m : Memory} {draw : Nat} {r : Buf × Nat × Nat} {b : Buf} (h : r.1 ≠ b) :
    (m.forget draw r).cells b = m.cells b := Memory.cells_scramble_other h m _ _ _

theorem Memory.forget_wf {m : Memory} (hm : m.wf) (draw : Nat) (r : Buf × Nat × Nat) : (m.forget draw r).wf :=
  Memory.scramble_wf hm _ _ _ _

end Sys2Proof.Machine
end

