-- ==== Sys2Proof/Laws/Grid.lean ====
section
/-! SUPPORT. Shapes of the matrices the commands compute, and typed regions read back after they are written. -/

namespace Sys2Proof.Machine

/-- A matrix of h rows of w elements. -/
abbrev Shaped {α : Type} (h w : Nat) (g : Grid α) : Prop := g.length = h ∧ ∀ r ∈ g, r.length = w

theorem shaped_range {α : Type} (h w : Nat) (f : Nat → Nat → α) :
    Shaped h w ((List.range h).map fun y => (List.range w).map fun x => f y x) := by
  refine ⟨by simp, fun r hr => ?_⟩
  obtain ⟨y, _, rfl⟩ := List.mem_map.1 hr
  simp

theorem shaped_gridOf {α : Type} (h w : Nat) (f : Nat → Nat → α) : Shaped h w (gridOf h w f) := shaped_range h w f

theorem shaped_map {α β : Type} {h w : Nat} {g : Grid α} (f : α → β) (hg : Shaped h w g) :
    Shaped h w (g.map fun r => r.map f) := by
  refine ⟨by simp [hg.1], fun r hr => ?_⟩
  obtain ⟨r', hr', rfl⟩ := List.mem_map.1 hr
  simp [hg.2 r' hr']

theorem shaped_mapRows {α β : Type} {h w : Nat} {g : Grid α} (f : List α → List β) (hf : ∀ r, (f r).length = r.length)
    (hg : Shaped h w g) : Shaped h w (g.map f) := by
  refine ⟨by simp [hg.1], fun r hr => ?_⟩
  obtain ⟨r', hr', rfl⟩ := List.mem_map.1 hr
  rw [hf, hg.2 r' hr']

theorem shaped_region (m : Memory) (b : Buf) (h w : Nat) : Shaped h w (m.region b h w) := shaped_range h w _

theorem shaped_blk (g : Grid F64 → Grid F64) (h w th tw : Nat) (m : Grid F64) : Shaped h w (blk g h w th tw m) :=
  shaped_range h w _

theorem shaped_withWeights (wt : Grid Nat) (DB h w : Nat) (f : F64 → F64 → F64) (m : Grid F64) :
    Shaped h w (withWeights wt DB h w f m) := shaped_range h w _

theorem shaped_t2d (f : List F64 → List F64) (h w : Nat) (m : Grid F64) : Shaped h w (t2d f h w m) := by
  refine ⟨by simp [t2d, columns], fun r hr => ?_⟩
  obtain ⟨x, _, rfl⟩ := List.mem_map.1 hr
  simp [columns]

theorem shaped_quantize (ft : FrameType) (s DB h w : Nat) (wt : Grid Nat) (rm : Grid Int) :
    Shaped h w (quantize ft s DB h w wt rm) := shaped_withWeights _ _ _ _ _ _

theorem shaped_dequantize (ft : FrameType) (s DB h w : Nat) (wt : Grid Nat) (q : Grid F64) :
    Shaped h w (dequantize ft s DB h w wt q) := shaped_map _ (shaped_blk _ _ _ _ _ _)

theorem dpcmEncRow_length {α : Type} (add sub : α → α → α) :
    ∀ (l : List α) (p : α), (dpcmEncRow add sub p l).length = l.length := by
  intro l
  induction l with
  | nil => intro p; rfl
  | cons a l ih => intro p; simp [dpcmEncRow, ih]

theorem dpcmDecRow_length {α : Type} (add : α → α → α) :
    ∀ (l : List α) (p : α), (dpcmDecRow add p l).length = l.length := by
  intro l
  induction l with
  | nil => intro p; rfl
  | cons a l ih => intro p; simp [dpcmDecRow, ih]

theorem shaped_dpcmEnc {α : Type} {h w : Nat} {g : Grid α} (z : α) (add sub : α → α → α) (hg : Shaped h w g) :
    Shaped h w (dpcmEnc z add sub g) := shaped_mapRows _ (fun r => dpcmEncRow_length add sub r z) hg

theorem shaped_dpcmDec {α : Type} {h w : Nat} {g : Grid α} (z : α) (add : α → α → α) (hg : Shaped h w g) :
    Shaped h w (dpcmDec z add g) := shaped_mapRows _ (fun r => dpcmDecRow_length add r z) hg

theorem shaped_meMap (ref tgt : Grid Byte) (W H MB R : Nat) (ssd : Bool) :
    Shaped (H / MB) (W / MB) (meMap ref tgt W H MB R ssd) := shaped_range _ _ _

theorem shaped_coefs (s : State) : Shaped s.height s.width s.coefs := shaped_map _ (shaped_region _ _ _ _)

theorem shaped_field (s : State) : Shaped s.fieldRows s.fieldCols s.field := shaped_map _ (shaped_region _ _ _ _)

theorem shaped_pixels (s : State) (b : Buf) : Shaped s.height s.width (s.pixels b) := shaped_map _ (shaped_region _ _ _ _)

theorem shaped_residuals (s : State) : Shaped s.height s.width s.residuals := shaped_map _ (shaped_region _ _ _ _)

/-- An element inside a matrix given element by element. -/
theorem gridAt_range {α : Type} (z : α) {h w y x : Nat} (f : Nat → Nat → α) (hy : y < h) (hx : x < w) :
    gridAt ((List.range h).map fun y => (List.range w).map fun x => f y x) z y x = f y x := by
  simp [gridAt, hy, hx]

theorem gridAt_gridOf {α : Type} (z : α) {h w y x : Nat} (f : Nat → Nat → α) (hy : y < h) (hx : x < w) :
    gridAt (gridOf h w f) z y x = f y x := gridAt_range z f hy hx

/-! The transform functions keep lengths. -/

theorem evens_length {α : Type} : ∀ l : List α, (evens l).length = (l.length + 1) / 2
  | [] => by simp [evens]
  | [_] => by simp [evens]
  | _ :: _ :: l => by simp only [evens, List.length_cons, evens_length l]; omega

theorem odds_length {α : Type} : ∀ l : List α, (odds l).length = l.length / 2
  | [] => by simp [odds]
  | [_] => by simp [odds]
  | _ :: _ :: l => by simp only [odds, List.length_cons, odds_length l]; omega

theorem twiddled_length (N : Nat) : ∀ (l : List Cplx) (k : Nat), (twiddled N k l).length = l.length := by
  intro l
  induction l with
  | nil => intro k; rfl
  | cons a l ih => intro k; simp [twiddled, ih]

theorem rotated_length (n : Nat) : ∀ (l : List Cplx) (k : Nat), (rotated n k l).length = l.length := by
  intro l
  induction l with
  | nil => intro k; rfl
  | cons a l ih => intro k; simp [rotated, ih]

theorem unrotated_length (n : Nat) : ∀ (l : List F64) (k : Nat), (unrotated n k l).length = l.length := by
  intro l
  induction l with
  | nil => intro k; rfl
  | cons a l ih => intro k; simp [unrotated, ih]

theorem fft_length : ∀ (m : Nat) (l : List Cplx), l.length = 2 ^ m → (fft m l).length = 2 ^ m := by
  intro m
  induction m with
  | zero => intro l h; exact h
  | succ m ih =>
    intro l h
    have he := ih (evens l) (by rw [evens_length, h, pow_succ]; omega)
    have ho := ih (odds l) (by rw [odds_length, h, pow_succ]; omega)
    simp [fft, twiddled_length, he, ho, pow_succ]; omega

theorem ifft_length (m : Nat) (l : List Cplx) (h : l.length = 2 ^ m) : (ifft m l).length = 2 ^ m := by
  simp [ifft, fft_length m (l.map conj) (by simpa using h)]

theorem dct1d_length (m : Nat) (u : List F64) (h : u.length = 2 ^ m) : (dct1d u).length = 2 ^ m := by
  simp only [dct1d, h, Nat.log2_two_pow, rotated_length, List.length_take]
  rw [fft_length (m + 1) _ (by simp [h, pow_succ]; omega), pow_succ]; omega

theorem spectrum_length (x : List F64) : (spectrum x).length = 2 * x.length := by
  cases x with
  | nil => rfl
  | cons a l => simp [spectrum, unrotated_length]; omega

theorem idct1d_length (m : Nat) (x : List F64) (h : x.length = 2 ^ m) : (idct1d x).length = 2 ^ m := by
  simp only [idct1d, h, Nat.log2_two_pow, List.length_map, List.length_drop]
  rw [ifft_length (m + 1) _ (by rw [spectrum_length, h, pow_succ]; omega), pow_succ]; omega

/-! Typed regions read back. -/

@[simp] theorem vecOfWord_vecWord (v : Vec) : vecOfWord (vecWord v) = v := by
  cases v with
  | mk dx dy =>
    simp only [vecOfWord, vecWord, Vec.mk.injEq]
    constructor <;> (apply BitVec.eq_of_getLsbD_eq; intro i hi; rw [BitVec.getLsbD_extractLsb', BitVec.getLsbD_append]; simp [hi])

theorem Memory.pixels_putPixels {m : Memory} (hm : m.wf) {b : Buf} (hb : b.elemSize = 1) {h w : Nat} (hh : h ≤ b.rows)
    (hw : w ≤ b.stride) {g : Grid Byte} (hg : Shaped h w g) :
    ((m.putPixels b g).region b h w).map (fun r => r.map (BitVec.ofNat 8)) = g := by
  have hb' : b ≠ .wmat := by rintro rfl; simp [Buf.elemSize] at hb
  have hs := shaped_map (fun v : Byte => v.toNat) hg
  rw [Memory.putPixels, Memory.region_putRows hb' hw hh hm hs.1 hs.2]
  · simp [Function.comp_def]
  · intro r hr v hv
    obtain ⟨r', _, rfl⟩ := List.mem_map.1 hr
    obtain ⟨p, _, rfl⟩ := List.mem_map.1 hv
    simpa [hb] using p.isLt

theorem Memory.coefs_putCoefs {m : Memory} (hm : m.wf) {h w : Nat} (hh : h ≤ Config.hmax) (hw : w ≤ Config.wmax)
    {g : Grid F64} (hg : Shaped h w g) :
    ((m.putCoefs g).region .coef h w).map (fun r => r.map (BitVec.ofNat 64)) = g := by
  have hs := shaped_map (fun v : F64 => v.toNat) hg
  rw [Memory.putCoefs, Memory.region_putRows (by decide) hw hh hm hs.1 hs.2]
  · simp [Function.comp_def]
  · intro r hr v hv
    obtain ⟨r', _, rfl⟩ := List.mem_map.1 hr
    obtain ⟨p, _, rfl⟩ := List.mem_map.1 hv
    exact p.isLt

theorem Memory.field_putField {m : Memory} (hm : m.wf) {h w : Nat} (hh : h ≤ Config.hmax) (hw : w ≤ Config.wmax)
    {g : Grid Vec} (hg : Shaped h w g) :
    ((m.putField g).region .mv h w).map (fun r => r.map fun n => vecOfWord (BitVec.ofNat 32 n)) = g := by
  have hs := shaped_map (fun v : Vec => (vecWord v).toNat) hg
  rw [Memory.putField, Memory.region_putRows (by decide) hw hh hm hs.1 hs.2]
  · simp [Function.comp_def]
  · intro r hr v hv
    obtain ⟨r', _, rfl⟩ := List.mem_map.1 hr
    obtain ⟨p, _, rfl⟩ := List.mem_map.1 hv
    exact (vecWord p).isLt

/-- Residuals read back as their 16-bit two's complement values. -/
theorem Memory.residuals_putResiduals {m : Memory} (hm : m.wf) {h w : Nat} (hh : h ≤ Config.hmax) (hw : w ≤ Config.wmax)
    {g : Grid Int} (hg : Shaped h w g) :
    ((m.putResiduals g).region .res h w).map (fun r => r.map fun n => (BitVec.ofNat 16 n).toInt) =
      g.map fun r => r.map fun k => (BitVec.ofInt 16 k).toInt := by
  have hs := shaped_map (fun k : Int => (BitVec.ofInt 16 k).toNat) hg
  rw [Memory.putResiduals, Memory.region_putRows (by decide) hw hh hm hs.1 hs.2]
  · simp only [List.map_map, Function.comp_def, BitVec.ofNat_toNat, BitVec.setWidth_eq]
  · intro r hr v hv
    obtain ⟨r', _, rfl⟩ := List.mem_map.1 hr
    obtain ⟨p, _, rfl⟩ := List.mem_map.1 hv
    exact (BitVec.ofInt 16 p).isLt

theorem Memory.putPixels_wf {m : Memory} (hm : m.wf) (b : Buf) (g : Grid Byte) : (m.putPixels b g).wf :=
  Memory.putRows_wf _ _ _ hm

theorem Memory.putCoefs_wf {m : Memory} (hm : m.wf) (g : Grid F64) : (m.putCoefs g).wf := Memory.putRows_wf _ _ _ hm

theorem Memory.putField_wf {m : Memory} (hm : m.wf) (g : Grid Vec) : (m.putField g).wf := Memory.putRows_wf _ _ _ hm

theorem Memory.putResiduals_wf {m : Memory} (hm : m.wf) (g : Grid Int) : (m.putResiduals g).wf :=
  Memory.putRows_wf _ _ _ hm

theorem Memory.putVector_wf {m : Memory} (hm : m.wf) (v : List Cplx) : (m.putVector v).wf := Memory.putRow_wf _ _ _ _ hm

theorem Memory.putCodedField_wf {m : Memory} (hm : m.wf) (g : Option (Grid Vec)) : (m.putCodedField g).wf := by
  cases g with
  | none => exact hm
  | some g => exact Memory.putField_wf hm g

theorem Memory.cells_putPixels_other {b b' : Buf} (h : b ≠ b') (m : Memory) (g : Grid Byte) :
    (m.putPixels b g).cells b' = m.cells b' := Memory.cells_putRows_other h _ _ m

theorem Memory.cells_putCoefs_other {b : Buf} (h : .coef ≠ b) (m : Memory) (g : Grid F64) :
    (m.putCoefs g).cells b = m.cells b := Memory.cells_putRows_other h _ _ m

theorem Memory.cells_putField_other {b : Buf} (h : .mv ≠ b) (m : Memory) (g : Grid Vec) :
    (m.putField g).cells b = m.cells b := Memory.cells_putRows_other h _ _ m

theorem Memory.cells_putResiduals_other {b : Buf} (h : .res ≠ b) (m : Memory) (g : Grid Int) :
    (m.putResiduals g).cells b = m.cells b := Memory.cells_putRows_other h _ _ m

theorem Memory.cells_putVector_other {b : Buf} (h : .vbuf ≠ b) (m : Memory) (v : List Cplx) :
    (m.putVector v).cells b = m.cells b := Memory.cells_putRow_other h _ _ _ m

theorem Memory.cells_putCodedField_other {b : Buf} (h : .mv ≠ b) (m : Memory) (g : Option (Grid Vec)) :
    (m.putCodedField g).cells b = m.cells b := by
  cases g with
  | none => rfl
  | some g => exact Memory.cells_putField_other h m g

/-- The parts of a vector, in the order they are stored. -/
theorem flatMap_parts_getElem (v : List Cplx) :
    ∀ k (hk : k < v.length),
      (v.flatMap fun c => [c.re.toNat, c.im.toNat])[2 * k]? = some v[k].re.toNat ∧
      (v.flatMap fun c => [c.re.toNat, c.im.toNat])[2 * k + 1]? = some v[k].im.toNat := by
  induction v with
  | nil => intro k hk; simp at hk
  | cons c v ih =>
    intro k hk
    cases k with
    | zero => simp
    | succ k =>
      have := ih k (by simpa using hk)
      simpa [Nat.mul_succ, List.flatMap_cons] using this

/-- The prefix of VBUF read back after it is written (R60). -/
theorem Memory.vector_putVector {m : Memory} (hm : m.wf) {v : List Cplx} {n : Nat} (hl : v.length = n)
    (hn : n ≤ Config.nmax) :
    ((List.range n).map fun k => (⟨BitVec.ofNat 64 ((m.putVector v).elem .vbuf 0 (2 * k)),
      BitVec.ofNat 64 ((m.putVector v).elem .vbuf 0 (2 * k + 1))⟩ : Cplx)) = v := by
  have hlen : (v.flatMap fun c => [c.re.toNat, c.im.toNat]).length = 2 * n := by
    simp [List.length_flatMap, hl]; omega
  apply List.ext_getElem
  · simp [hl]
  intro k h1 h2
  obtain ⟨e1, e2⟩ := flatMap_parts_getElem v k h2
  have hs : (0 : Nat) + (v.flatMap fun c => [c.re.toNat, c.im.toNat]).length ≤ Buf.stride .vbuf := by
    rw [hlen]; simp only [Buf.stride]; omega
  have r1 := Memory.elem_putRow_same (b := .vbuf) (by decide) (y := 0) (by decide) _ 0 hm hs (2 * k) (by omega)
  have r2 := Memory.elem_putRow_same (b := .vbuf) (by decide) (y := 0) (by decide) _ 0 hm hs (2 * k + 1) (by omega)
  rw [List.getElem?_eq_getElem (by omega)] at e1 e2
  simp only [Option.some.injEq] at e1 e2
  simp only [Nat.zero_add, e1, e2] at r1 r2
  simp only [List.getElem_map, List.getElem_range, Memory.putVector, r1, r2]
  simp only [Buf.elemSize]
  rw [Nat.mod_eq_of_lt (by exact v[k].re.isLt), Nat.mod_eq_of_lt (by exact v[k].im.isLt)]
  simp

end Sys2Proof.Machine
end

