-- ==== Sys2Proof/Laws/State.lean ====
section
/-! SUPPORT. For every shared update of the state, what each field and each operand shorthand is after it: one lemma each, so
that no proof unfolds a record update. -/

namespace Sys2Proof.Machine

@[simp] theorem State.accept_ieDone (s : State) (w : Word) (n : Nat) : (s.accept w n).ieDone = s.ieDone := rfl
@[simp] theorem State.accept_ieErr (s : State) (w : Word) (n : Nat) : (s.accept w n).ieErr = s.ieErr := rfl
@[simp] theorem State.accept_metric (s : State) (w : Word) (n : Nat) : (s.accept w n).metric = s.metric := rfl
@[simp] theorem State.accept_busy (s : State) (w : Word) (n : Nat) : (s.accept w n).busy = true := rfl
@[simp] theorem State.accept_done (s : State) (w : Word) (n : Nat) : (s.accept w n).done = false := rfl
@[simp] theorem State.accept_err (s : State) (w : Word) (n : Nat) : (s.accept w n).err = false := rfl
@[simp] theorem State.accept_ovr (s : State) (w : Word) (n : Nat) : (s.accept w n).ovr = s.ovr := rfl
@[simp] theorem State.accept_steadyE (s : State) (w : Word) (n : Nat) : (s.accept w n).steadyE = s.steadyE := rfl
@[simp] theorem State.accept_steadyD (s : State) (w : Word) (n : Nat) : (s.accept w n).steadyD = s.steadyD := rfl
@[simp] theorem State.accept_errcode (s : State) (w : Word) (n : Nat) : (s.accept w n).errcode = 0#4 := rfl
@[simp] theorem State.accept_cmd (s : State) (w : Word) (n : Nat) : (s.accept w n).cmd = w := rfl
@[simp] theorem State.accept_frameW (s : State) (w : Word) (n : Nat) : (s.accept w n).frameW = s.frameW := rfl
@[simp] theorem State.accept_frameH (s : State) (w : Word) (n : Nat) : (s.accept w n).frameH = s.frameH := rfl
@[simp] theorem State.accept_mbSize (s : State) (w : Word) (n : Nat) : (s.accept w n).mbSize = s.mbSize := rfl
@[simp] theorem State.accept_dbSize (s : State) (w : Word) (n : Nat) : (s.accept w n).dbSize = s.dbSize := rfl
@[simp] theorem State.accept_qscale (s : State) (w : Word) (n : Nat) : (s.accept w n).qscale = s.qscale := rfl
@[simp] theorem State.accept_searchR (s : State) (w : Word) (n : Nat) : (s.accept w n).searchR = s.searchR := rfl
@[simp] theorem State.accept_vlen (s : State) (w : Word) (n : Nat) : (s.accept w n).vlen = s.vlen := rfl
@[simp] theorem State.accept_tileW (s : State) (w : Word) (n : Nat) : (s.accept w n).tileW = s.tileW := rfl
@[simp] theorem State.accept_tileH (s : State) (w : Word) (n : Nat) : (s.accept w n).tileH = s.tileH := rfl
@[simp] theorem State.accept_meBx (s : State) (w : Word) (n : Nat) : (s.accept w n).meBx = s.meBx := rfl
@[simp] theorem State.accept_meBy (s : State) (w : Word) (n : Nat) : (s.accept w n).meBy = s.meBy := rfl
@[simp] theorem State.accept_meVec (s : State) (w : Word) (n : Nat) : (s.accept w n).meVec = s.meVec := rfl
@[simp] theorem State.accept_meCost (s : State) (w : Word) (n : Nat) : (s.accept w n).meCost = s.meCost := rfl
@[simp] theorem State.accept_encFtype (s : State) (w : Word) (n : Nat) : (s.accept w n).encFtype = s.encFtype := rfl
@[simp] theorem State.accept_decFtype (s : State) (w : Word) (n : Nat) : (s.accept w n).decFtype = s.decFtype := rfl
@[simp] theorem State.accept_encFcnt (s : State) (w : Word) (n : Nat) : (s.accept w n).encFcnt = s.encFcnt := rfl
@[simp] theorem State.accept_decFcnt (s : State) (w : Word) (n : Nat) : (s.accept w n).decFcnt = s.decFcnt := rfl
@[simp] theorem State.accept_mem (s : State) (w : Word) (n : Nat) : (s.accept w n).mem = s.mem := rfl
@[simp] theorem State.accept_runMetric (s : State) (w : Word) (n : Nat) : (s.accept w n).runMetric = s.metric := rfl
@[simp] theorem State.accept_wait (s : State) (w : Word) (n : Nat) : (s.accept w n).wait = n := rfl
@[simp] theorem State.accept_draw (s : State) (w : Word) (n : Nat) : (s.accept w n).draw = s.draw := rfl
@[simp] theorem State.accept_host (s : State) (w : Word) (n : Nat) : (s.accept w n).host = s.host := rfl
@[simp] theorem State.accept_resp (s : State) (w : Word) (n : Nat) : (s.accept w n).resp = s.resp := rfl
@[simp] theorem State.accept_width (s : State) (w : Word) (n : Nat) : (s.accept w n).width = s.width := rfl
@[simp] theorem State.accept_height (s : State) (w : Word) (n : Nat) : (s.accept w n).height = s.height := rfl
@[simp] theorem State.accept_mb (s : State) (w : Word) (n : Nat) : (s.accept w n).mb = s.mb := rfl
@[simp] theorem State.accept_db (s : State) (w : Word) (n : Nat) : (s.accept w n).db = s.db := rfl
@[simp] theorem State.accept_scale (s : State) (w : Word) (n : Nat) : (s.accept w n).scale = s.scale := rfl
@[simp] theorem State.accept_radius (s : State) (w : Word) (n : Nat) : (s.accept w n).radius = s.radius := rfl
@[simp] theorem State.accept_len (s : State) (w : Word) (n : Nat) : (s.accept w n).len = s.len := rfl
@[simp] theorem State.accept_tw (s : State) (w : Word) (n : Nat) : (s.accept w n).tw = s.tw := rfl
@[simp] theorem State.accept_th (s : State) (w : Word) (n : Nat) : (s.accept w n).th = s.th := rfl
@[simp] theorem State.accept_bx (s : State) (w : Word) (n : Nat) : (s.accept w n).bx = s.bx := rfl
@[simp] theorem State.accept_blockY (s : State) (w : Word) (n : Nat) : (s.accept w n).blockY = s.blockY := rfl
@[simp] theorem State.accept_fieldRows (s : State) (w : Word) (n : Nat) : (s.accept w n).fieldRows = s.fieldRows := rfl
@[simp] theorem State.accept_fieldCols (s : State) (w : Word) (n : Nat) : (s.accept w n).fieldCols = s.fieldCols := rfl

@[simp] theorem State.withCommand_ieDone (s : State) (w : Word) : (s.withCommand w).ieDone = s.ieDone := rfl
@[simp] theorem State.withCommand_ieErr (s : State) (w : Word) : (s.withCommand w).ieErr = s.ieErr := rfl
@[simp] theorem State.withCommand_metric (s : State) (w : Word) : (s.withCommand w).metric = s.metric := rfl
@[simp] theorem State.withCommand_busy (s : State) (w : Word) : (s.withCommand w).busy = true := rfl
@[simp] theorem State.withCommand_done (s : State) (w : Word) : (s.withCommand w).done = false := rfl
@[simp] theorem State.withCommand_err (s : State) (w : Word) : (s.withCommand w).err = false := rfl
@[simp] theorem State.withCommand_ovr (s : State) (w : Word) : (s.withCommand w).ovr = s.ovr := rfl
@[simp] theorem State.withCommand_steadyE (s : State) (w : Word) : (s.withCommand w).steadyE = s.steadyE := rfl
@[simp] theorem State.withCommand_steadyD (s : State) (w : Word) : (s.withCommand w).steadyD = s.steadyD := rfl
@[simp] theorem State.withCommand_errcode (s : State) (w : Word) : (s.withCommand w).errcode = 0#4 := rfl
@[simp] theorem State.withCommand_cmd (s : State) (w : Word) : (s.withCommand w).cmd = w := rfl
@[simp] theorem State.withCommand_frameW (s : State) (w : Word) : (s.withCommand w).frameW = s.frameW := rfl
@[simp] theorem State.withCommand_frameH (s : State) (w : Word) : (s.withCommand w).frameH = s.frameH := rfl
@[simp] theorem State.withCommand_mbSize (s : State) (w : Word) : (s.withCommand w).mbSize = s.mbSize := rfl
@[simp] theorem State.withCommand_dbSize (s : State) (w : Word) : (s.withCommand w).dbSize = s.dbSize := rfl
@[simp] theorem State.withCommand_qscale (s : State) (w : Word) : (s.withCommand w).qscale = s.qscale := rfl
@[simp] theorem State.withCommand_searchR (s : State) (w : Word) : (s.withCommand w).searchR = s.searchR := rfl
@[simp] theorem State.withCommand_vlen (s : State) (w : Word) : (s.withCommand w).vlen = s.vlen := rfl
@[simp] theorem State.withCommand_tileW (s : State) (w : Word) : (s.withCommand w).tileW = s.tileW := rfl
@[simp] theorem State.withCommand_tileH (s : State) (w : Word) : (s.withCommand w).tileH = s.tileH := rfl
@[simp] theorem State.withCommand_meBx (s : State) (w : Word) : (s.withCommand w).meBx = s.meBx := rfl
@[simp] theorem State.withCommand_meBy (s : State) (w : Word) : (s.withCommand w).meBy = s.meBy := rfl
@[simp] theorem State.withCommand_meVec (s : State) (w : Word) : (s.withCommand w).meVec = s.meVec := rfl
@[simp] theorem State.withCommand_meCost (s : State) (w : Word) : (s.withCommand w).meCost = s.meCost := rfl
@[simp] theorem State.withCommand_encFtype (s : State) (w : Word) : (s.withCommand w).encFtype = s.encFtype := rfl
@[simp] theorem State.withCommand_decFtype (s : State) (w : Word) : (s.withCommand w).decFtype = s.decFtype := rfl
@[simp] theorem State.withCommand_encFcnt (s : State) (w : Word) : (s.withCommand w).encFcnt = s.encFcnt := rfl
@[simp] theorem State.withCommand_decFcnt (s : State) (w : Word) : (s.withCommand w).decFcnt = s.decFcnt := rfl
@[simp] theorem State.withCommand_mem (s : State) (w : Word) : (s.withCommand w).mem = s.mem := rfl
@[simp] theorem State.withCommand_runMetric (s : State) (w : Word) : (s.withCommand w).runMetric = s.metric := rfl
@[simp] theorem State.withCommand_wait (s : State) (w : Word) : (s.withCommand w).wait = 0 := rfl
@[simp] theorem State.withCommand_draw (s : State) (w : Word) : (s.withCommand w).draw = s.draw := rfl
@[simp] theorem State.withCommand_host (s : State) (w : Word) : (s.withCommand w).host = s.host := rfl
@[simp] theorem State.withCommand_resp (s : State) (w : Word) : (s.withCommand w).resp = s.resp := rfl
@[simp] theorem State.withCommand_width (s : State) (w : Word) : (s.withCommand w).width = s.width := rfl
@[simp] theorem State.withCommand_height (s : State) (w : Word) : (s.withCommand w).height = s.height := rfl
@[simp] theorem State.withCommand_mb (s : State) (w : Word) : (s.withCommand w).mb = s.mb := rfl
@[simp] theorem State.withCommand_db (s : State) (w : Word) : (s.withCommand w).db = s.db := rfl
@[simp] theorem State.withCommand_scale (s : State) (w : Word) : (s.withCommand w).scale = s.scale := rfl
@[simp] theorem State.withCommand_radius (s : State) (w : Word) : (s.withCommand w).radius = s.radius := rfl
@[simp] theorem State.withCommand_len (s : State) (w : Word) : (s.withCommand w).len = s.len := rfl
@[simp] theorem State.withCommand_tw (s : State) (w : Word) : (s.withCommand w).tw = s.tw := rfl
@[simp] theorem State.withCommand_th (s : State) (w : Word) : (s.withCommand w).th = s.th := rfl
@[simp] theorem State.withCommand_bx (s : State) (w : Word) : (s.withCommand w).bx = s.bx := rfl
@[simp] theorem State.withCommand_blockY (s : State) (w : Word) : (s.withCommand w).blockY = s.blockY := rfl
@[simp] theorem State.withCommand_fieldRows (s : State) (w : Word) : (s.withCommand w).fieldRows = s.fieldRows := rfl
@[simp] theorem State.withCommand_fieldCols (s : State) (w : Word) : (s.withCommand w).fieldCols = s.fieldCols := rfl

@[simp] theorem State.complete_ieDone (s : State) : s.complete.ieDone = s.ieDone := rfl
@[simp] theorem State.complete_ieErr (s : State) : s.complete.ieErr = s.ieErr := rfl
@[simp] theorem State.complete_metric (s : State) : s.complete.metric = s.metric := rfl
@[simp] theorem State.complete_busy (s : State) : s.complete.busy = false := rfl
@[simp] theorem State.complete_done (s : State) : s.complete.done = true := rfl
@[simp] theorem State.complete_err (s : State) : s.complete.err = s.err := rfl
@[simp] theorem State.complete_ovr (s : State) : s.complete.ovr = s.ovr := rfl
@[simp] theorem State.complete_steadyE (s : State) : s.complete.steadyE = s.steadyE := rfl
@[simp] theorem State.complete_steadyD (s : State) : s.complete.steadyD = s.steadyD := rfl
@[simp] theorem State.complete_errcode (s : State) : s.complete.errcode = s.errcode := rfl
@[simp] theorem State.complete_cmd (s : State) : s.complete.cmd = s.cmd := rfl
@[simp] theorem State.complete_frameW (s : State) : s.complete.frameW = s.frameW := rfl
@[simp] theorem State.complete_frameH (s : State) : s.complete.frameH = s.frameH := rfl
@[simp] theorem State.complete_mbSize (s : State) : s.complete.mbSize = s.mbSize := rfl
@[simp] theorem State.complete_dbSize (s : State) : s.complete.dbSize = s.dbSize := rfl
@[simp] theorem State.complete_qscale (s : State) : s.complete.qscale = s.qscale := rfl
@[simp] theorem State.complete_searchR (s : State) : s.complete.searchR = s.searchR := rfl
@[simp] theorem State.complete_vlen (s : State) : s.complete.vlen = s.vlen := rfl
@[simp] theorem State.complete_tileW (s : State) : s.complete.tileW = s.tileW := rfl
@[simp] theorem State.complete_tileH (s : State) : s.complete.tileH = s.tileH := rfl
@[simp] theorem State.complete_meBx (s : State) : s.complete.meBx = s.meBx := rfl
@[simp] theorem State.complete_meBy (s : State) : s.complete.meBy = s.meBy := rfl
@[simp] theorem State.complete_meVec (s : State) : s.complete.meVec = s.meVec := rfl
@[simp] theorem State.complete_meCost (s : State) : s.complete.meCost = s.meCost := rfl
@[simp] theorem State.complete_encFtype (s : State) : s.complete.encFtype = s.encFtype := rfl
@[simp] theorem State.complete_decFtype (s : State) : s.complete.decFtype = s.decFtype := rfl
@[simp] theorem State.complete_encFcnt (s : State) : s.complete.encFcnt = s.encFcnt := rfl
@[simp] theorem State.complete_decFcnt (s : State) : s.complete.decFcnt = s.decFcnt := rfl
@[simp] theorem State.complete_mem (s : State) : s.complete.mem = s.mem := rfl
@[simp] theorem State.complete_runMetric (s : State) : s.complete.runMetric = s.runMetric := rfl
@[simp] theorem State.complete_wait (s : State) : s.complete.wait = s.wait := rfl
@[simp] theorem State.complete_draw (s : State) : s.complete.draw = s.draw := rfl
@[simp] theorem State.complete_host (s : State) : s.complete.host = s.host := rfl
@[simp] theorem State.complete_resp (s : State) : s.complete.resp = s.resp := rfl
@[simp] theorem State.complete_width (s : State) : s.complete.width = s.width := rfl
@[simp] theorem State.complete_height (s : State) : s.complete.height = s.height := rfl
@[simp] theorem State.complete_mb (s : State) : s.complete.mb = s.mb := rfl
@[simp] theorem State.complete_db (s : State) : s.complete.db = s.db := rfl
@[simp] theorem State.complete_scale (s : State) : s.complete.scale = s.scale := rfl
@[simp] theorem State.complete_radius (s : State) : s.complete.radius = s.radius := rfl
@[simp] theorem State.complete_len (s : State) : s.complete.len = s.len := rfl
@[simp] theorem State.complete_tw (s : State) : s.complete.tw = s.tw := rfl
@[simp] theorem State.complete_th (s : State) : s.complete.th = s.th := rfl
@[simp] theorem State.complete_bx (s : State) : s.complete.bx = s.bx := rfl
@[simp] theorem State.complete_blockY (s : State) : s.complete.blockY = s.blockY := rfl
@[simp] theorem State.complete_fieldRows (s : State) : s.complete.fieldRows = s.fieldRows := rfl
@[simp] theorem State.complete_fieldCols (s : State) : s.complete.fieldCols = s.fieldCols := rfl

@[simp] theorem State.raise_ieDone (s : State) (e : ErrKind) : (s.raise e).ieDone = s.ieDone := rfl
@[simp] theorem State.raise_ieErr (s : State) (e : ErrKind) : (s.raise e).ieErr = s.ieErr := rfl
@[simp] theorem State.raise_metric (s : State) (e : ErrKind) : (s.raise e).metric = s.metric := rfl
@[simp] theorem State.raise_busy (s : State) (e : ErrKind) : (s.raise e).busy = false := rfl
@[simp] theorem State.raise_done (s : State) (e : ErrKind) : (s.raise e).done = s.done := rfl
@[simp] theorem State.raise_err (s : State) (e : ErrKind) : (s.raise e).err = true := rfl
@[simp] theorem State.raise_ovr (s : State) (e : ErrKind) : (s.raise e).ovr = s.ovr := rfl
@[simp] theorem State.raise_steadyE (s : State) (e : ErrKind) : (s.raise e).steadyE = s.steadyE := rfl
@[simp] theorem State.raise_steadyD (s : State) (e : ErrKind) : (s.raise e).steadyD = s.steadyD := rfl
@[simp] theorem State.raise_errcode (s : State) (e : ErrKind) : (s.raise e).errcode = e.code := rfl
@[simp] theorem State.raise_cmd (s : State) (e : ErrKind) : (s.raise e).cmd = s.cmd := rfl
@[simp] theorem State.raise_frameW (s : State) (e : ErrKind) : (s.raise e).frameW = s.frameW := rfl
@[simp] theorem State.raise_frameH (s : State) (e : ErrKind) : (s.raise e).frameH = s.frameH := rfl
@[simp] theorem State.raise_mbSize (s : State) (e : ErrKind) : (s.raise e).mbSize = s.mbSize := rfl
@[simp] theorem State.raise_dbSize (s : State) (e : ErrKind) : (s.raise e).dbSize = s.dbSize := rfl
@[simp] theorem State.raise_qscale (s : State) (e : ErrKind) : (s.raise e).qscale = s.qscale := rfl
@[simp] theorem State.raise_searchR (s : State) (e : ErrKind) : (s.raise e).searchR = s.searchR := rfl
@[simp] theorem State.raise_vlen (s : State) (e : ErrKind) : (s.raise e).vlen = s.vlen := rfl
@[simp] theorem State.raise_tileW (s : State) (e : ErrKind) : (s.raise e).tileW = s.tileW := rfl
@[simp] theorem State.raise_tileH (s : State) (e : ErrKind) : (s.raise e).tileH = s.tileH := rfl
@[simp] theorem State.raise_meBx (s : State) (e : ErrKind) : (s.raise e).meBx = s.meBx := rfl
@[simp] theorem State.raise_meBy (s : State) (e : ErrKind) : (s.raise e).meBy = s.meBy := rfl
@[simp] theorem State.raise_meVec (s : State) (e : ErrKind) : (s.raise e).meVec = s.meVec := rfl
@[simp] theorem State.raise_meCost (s : State) (e : ErrKind) : (s.raise e).meCost = s.meCost := rfl
@[simp] theorem State.raise_encFtype (s : State) (e : ErrKind) : (s.raise e).encFtype = s.encFtype := rfl
@[simp] theorem State.raise_decFtype (s : State) (e : ErrKind) : (s.raise e).decFtype = s.decFtype := rfl
@[simp] theorem State.raise_encFcnt (s : State) (e : ErrKind) : (s.raise e).encFcnt = s.encFcnt := rfl
@[simp] theorem State.raise_decFcnt (s : State) (e : ErrKind) : (s.raise e).decFcnt = s.decFcnt := rfl
@[simp] theorem State.raise_mem (s : State) (e : ErrKind) : (s.raise e).mem = s.mem := rfl
@[simp] theorem State.raise_runMetric (s : State) (e : ErrKind) : (s.raise e).runMetric = s.runMetric := rfl
@[simp] theorem State.raise_wait (s : State) (e : ErrKind) : (s.raise e).wait = s.wait := rfl
@[simp] theorem State.raise_draw (s : State) (e : ErrKind) : (s.raise e).draw = s.draw := rfl
@[simp] theorem State.raise_host (s : State) (e : ErrKind) : (s.raise e).host = s.host := rfl
@[simp] theorem State.raise_resp (s : State) (e : ErrKind) : (s.raise e).resp = s.resp := rfl
@[simp] theorem State.raise_width (s : State) (e : ErrKind) : (s.raise e).width = s.width := rfl
@[simp] theorem State.raise_height (s : State) (e : ErrKind) : (s.raise e).height = s.height := rfl
@[simp] theorem State.raise_mb (s : State) (e : ErrKind) : (s.raise e).mb = s.mb := rfl
@[simp] theorem State.raise_db (s : State) (e : ErrKind) : (s.raise e).db = s.db := rfl
@[simp] theorem State.raise_scale (s : State) (e : ErrKind) : (s.raise e).scale = s.scale := rfl
@[simp] theorem State.raise_radius (s : State) (e : ErrKind) : (s.raise e).radius = s.radius := rfl
@[simp] theorem State.raise_len (s : State) (e : ErrKind) : (s.raise e).len = s.len := rfl
@[simp] theorem State.raise_tw (s : State) (e : ErrKind) : (s.raise e).tw = s.tw := rfl
@[simp] theorem State.raise_th (s : State) (e : ErrKind) : (s.raise e).th = s.th := rfl
@[simp] theorem State.raise_bx (s : State) (e : ErrKind) : (s.raise e).bx = s.bx := rfl
@[simp] theorem State.raise_blockY (s : State) (e : ErrKind) : (s.raise e).blockY = s.blockY := rfl
@[simp] theorem State.raise_fieldRows (s : State) (e : ErrKind) : (s.raise e).fieldRows = s.fieldRows := rfl
@[simp] theorem State.raise_fieldCols (s : State) (e : ErrKind) : (s.raise e).fieldCols = s.fieldCols := rfl

@[simp] theorem State.freshEncoder_ieDone (s : State) : s.freshEncoder.ieDone = s.ieDone := rfl
@[simp] theorem State.freshEncoder_ieErr (s : State) : s.freshEncoder.ieErr = s.ieErr := rfl
@[simp] theorem State.freshEncoder_metric (s : State) : s.freshEncoder.metric = s.metric := rfl
@[simp] theorem State.freshEncoder_busy (s : State) : s.freshEncoder.busy = s.busy := rfl
@[simp] theorem State.freshEncoder_done (s : State) : s.freshEncoder.done = s.done := rfl
@[simp] theorem State.freshEncoder_err (s : State) : s.freshEncoder.err = s.err := rfl
@[simp] theorem State.freshEncoder_ovr (s : State) : s.freshEncoder.ovr = s.ovr := rfl
@[simp] theorem State.freshEncoder_steadyE (s : State) : s.freshEncoder.steadyE = false := rfl
@[simp] theorem State.freshEncoder_steadyD (s : State) : s.freshEncoder.steadyD = s.steadyD := rfl
@[simp] theorem State.freshEncoder_errcode (s : State) : s.freshEncoder.errcode = s.errcode := rfl
@[simp] theorem State.freshEncoder_cmd (s : State) : s.freshEncoder.cmd = s.cmd := rfl
@[simp] theorem State.freshEncoder_frameW (s : State) : s.freshEncoder.frameW = s.frameW := rfl
@[simp] theorem State.freshEncoder_frameH (s : State) : s.freshEncoder.frameH = s.frameH := rfl
@[simp] theorem State.freshEncoder_mbSize (s : State) : s.freshEncoder.mbSize = s.mbSize := rfl
@[simp] theorem State.freshEncoder_dbSize (s : State) : s.freshEncoder.dbSize = s.dbSize := rfl
@[simp] theorem State.freshEncoder_qscale (s : State) : s.freshEncoder.qscale = s.qscale := rfl
@[simp] theorem State.freshEncoder_searchR (s : State) : s.freshEncoder.searchR = s.searchR := rfl
@[simp] theorem State.freshEncoder_vlen (s : State) : s.freshEncoder.vlen = s.vlen := rfl
@[simp] theorem State.freshEncoder_tileW (s : State) : s.freshEncoder.tileW = s.tileW := rfl
@[simp] theorem State.freshEncoder_tileH (s : State) : s.freshEncoder.tileH = s.tileH := rfl
@[simp] theorem State.freshEncoder_meBx (s : State) : s.freshEncoder.meBx = s.meBx := rfl
@[simp] theorem State.freshEncoder_meBy (s : State) : s.freshEncoder.meBy = s.meBy := rfl
@[simp] theorem State.freshEncoder_meVec (s : State) : s.freshEncoder.meVec = s.meVec := rfl
@[simp] theorem State.freshEncoder_meCost (s : State) : s.freshEncoder.meCost = s.meCost := rfl
@[simp] theorem State.freshEncoder_encFtype (s : State) : s.freshEncoder.encFtype = s.encFtype := rfl
@[simp] theorem State.freshEncoder_decFtype (s : State) : s.freshEncoder.decFtype = s.decFtype := rfl
@[simp] theorem State.freshEncoder_encFcnt (s : State) : s.freshEncoder.encFcnt = 0#32 := rfl
@[simp] theorem State.freshEncoder_decFcnt (s : State) : s.freshEncoder.decFcnt = s.decFcnt := rfl
@[simp] theorem State.freshEncoder_mem (s : State) : s.freshEncoder.mem = s.mem := rfl
@[simp] theorem State.freshEncoder_runMetric (s : State) : s.freshEncoder.runMetric = s.runMetric := rfl
@[simp] theorem State.freshEncoder_wait (s : State) : s.freshEncoder.wait = s.wait := rfl
@[simp] theorem State.freshEncoder_draw (s : State) : s.freshEncoder.draw = s.draw := rfl
@[simp] theorem State.freshEncoder_host (s : State) : s.freshEncoder.host = s.host := rfl
@[simp] theorem State.freshEncoder_resp (s : State) : s.freshEncoder.resp = s.resp := rfl
@[simp] theorem State.freshEncoder_width (s : State) : s.freshEncoder.width = s.width := rfl
@[simp] theorem State.freshEncoder_height (s : State) : s.freshEncoder.height = s.height := rfl
@[simp] theorem State.freshEncoder_mb (s : State) : s.freshEncoder.mb = s.mb := rfl
@[simp] theorem State.freshEncoder_db (s : State) : s.freshEncoder.db = s.db := rfl
@[simp] theorem State.freshEncoder_scale (s : State) : s.freshEncoder.scale = s.scale := rfl
@[simp] theorem State.freshEncoder_radius (s : State) : s.freshEncoder.radius = s.radius := rfl
@[simp] theorem State.freshEncoder_len (s : State) : s.freshEncoder.len = s.len := rfl
@[simp] theorem State.freshEncoder_tw (s : State) : s.freshEncoder.tw = s.tw := rfl
@[simp] theorem State.freshEncoder_th (s : State) : s.freshEncoder.th = s.th := rfl
@[simp] theorem State.freshEncoder_bx (s : State) : s.freshEncoder.bx = s.bx := rfl
@[simp] theorem State.freshEncoder_blockY (s : State) : s.freshEncoder.blockY = s.blockY := rfl
@[simp] theorem State.freshEncoder_fieldRows (s : State) : s.freshEncoder.fieldRows = s.fieldRows := rfl
@[simp] theorem State.freshEncoder_fieldCols (s : State) : s.freshEncoder.fieldCols = s.fieldCols := rfl

@[simp] theorem State.freshDecoder_ieDone (s : State) : s.freshDecoder.ieDone = s.ieDone := rfl
@[simp] theorem State.freshDecoder_ieErr (s : State) : s.freshDecoder.ieErr = s.ieErr := rfl
@[simp] theorem State.freshDecoder_metric (s : State) : s.freshDecoder.metric = s.metric := rfl
@[simp] theorem State.freshDecoder_busy (s : State) : s.freshDecoder.busy = s.busy := rfl
@[simp] theorem State.freshDecoder_done (s : State) : s.freshDecoder.done = s.done := rfl
@[simp] theorem State.freshDecoder_err (s : State) : s.freshDecoder.err = s.err := rfl
@[simp] theorem State.freshDecoder_ovr (s : State) : s.freshDecoder.ovr = s.ovr := rfl
@[simp] theorem State.freshDecoder_steadyE (s : State) : s.freshDecoder.steadyE = s.steadyE := rfl
@[simp] theorem State.freshDecoder_steadyD (s : State) : s.freshDecoder.steadyD = false := rfl
@[simp] theorem State.freshDecoder_errcode (s : State) : s.freshDecoder.errcode = s.errcode := rfl
@[simp] theorem State.freshDecoder_cmd (s : State) : s.freshDecoder.cmd = s.cmd := rfl
@[simp] theorem State.freshDecoder_frameW (s : State) : s.freshDecoder.frameW = s.frameW := rfl
@[simp] theorem State.freshDecoder_frameH (s : State) : s.freshDecoder.frameH = s.frameH := rfl
@[simp] theorem State.freshDecoder_mbSize (s : State) : s.freshDecoder.mbSize = s.mbSize := rfl
@[simp] theorem State.freshDecoder_dbSize (s : State) : s.freshDecoder.dbSize = s.dbSize := rfl
@[simp] theorem State.freshDecoder_qscale (s : State) : s.freshDecoder.qscale = s.qscale := rfl
@[simp] theorem State.freshDecoder_searchR (s : State) : s.freshDecoder.searchR = s.searchR := rfl
@[simp] theorem State.freshDecoder_vlen (s : State) : s.freshDecoder.vlen = s.vlen := rfl
@[simp] theorem State.freshDecoder_tileW (s : State) : s.freshDecoder.tileW = s.tileW := rfl
@[simp] theorem State.freshDecoder_tileH (s : State) : s.freshDecoder.tileH = s.tileH := rfl
@[simp] theorem State.freshDecoder_meBx (s : State) : s.freshDecoder.meBx = s.meBx := rfl
@[simp] theorem State.freshDecoder_meBy (s : State) : s.freshDecoder.meBy = s.meBy := rfl
@[simp] theorem State.freshDecoder_meVec (s : State) : s.freshDecoder.meVec = s.meVec := rfl
@[simp] theorem State.freshDecoder_meCost (s : State) : s.freshDecoder.meCost = s.meCost := rfl
@[simp] theorem State.freshDecoder_encFtype (s : State) : s.freshDecoder.encFtype = s.encFtype := rfl
@[simp] theorem State.freshDecoder_decFtype (s : State) : s.freshDecoder.decFtype = s.decFtype := rfl
@[simp] theorem State.freshDecoder_encFcnt (s : State) : s.freshDecoder.encFcnt = s.encFcnt := rfl
@[simp] theorem State.freshDecoder_decFcnt (s : State) : s.freshDecoder.decFcnt = 0#32 := rfl
@[simp] theorem State.freshDecoder_mem (s : State) : s.freshDecoder.mem = s.mem := rfl
@[simp] theorem State.freshDecoder_runMetric (s : State) : s.freshDecoder.runMetric = s.runMetric := rfl
@[simp] theorem State.freshDecoder_wait (s : State) : s.freshDecoder.wait = s.wait := rfl
@[simp] theorem State.freshDecoder_draw (s : State) : s.freshDecoder.draw = s.draw := rfl
@[simp] theorem State.freshDecoder_host (s : State) : s.freshDecoder.host = s.host := rfl
@[simp] theorem State.freshDecoder_resp (s : State) : s.freshDecoder.resp = s.resp := rfl
@[simp] theorem State.freshDecoder_width (s : State) : s.freshDecoder.width = s.width := rfl
@[simp] theorem State.freshDecoder_height (s : State) : s.freshDecoder.height = s.height := rfl
@[simp] theorem State.freshDecoder_mb (s : State) : s.freshDecoder.mb = s.mb := rfl
@[simp] theorem State.freshDecoder_db (s : State) : s.freshDecoder.db = s.db := rfl
@[simp] theorem State.freshDecoder_scale (s : State) : s.freshDecoder.scale = s.scale := rfl
@[simp] theorem State.freshDecoder_radius (s : State) : s.freshDecoder.radius = s.radius := rfl
@[simp] theorem State.freshDecoder_len (s : State) : s.freshDecoder.len = s.len := rfl
@[simp] theorem State.freshDecoder_tw (s : State) : s.freshDecoder.tw = s.tw := rfl
@[simp] theorem State.freshDecoder_th (s : State) : s.freshDecoder.th = s.th := rfl
@[simp] theorem State.freshDecoder_bx (s : State) : s.freshDecoder.bx = s.bx := rfl
@[simp] theorem State.freshDecoder_blockY (s : State) : s.freshDecoder.blockY = s.blockY := rfl
@[simp] theorem State.freshDecoder_fieldRows (s : State) : s.freshDecoder.fieldRows = s.fieldRows := rfl
@[simp] theorem State.freshDecoder_fieldCols (s : State) : s.freshDecoder.fieldCols = s.fieldCols := rfl

@[simp] theorem State.freshSession_ieDone (s : State) : s.freshSession.ieDone = s.ieDone := rfl
@[simp] theorem State.freshSession_ieErr (s : State) : s.freshSession.ieErr = s.ieErr := rfl
@[simp] theorem State.freshSession_metric (s : State) : s.freshSession.metric = s.metric := rfl
@[simp] theorem State.freshSession_busy (s : State) : s.freshSession.busy = s.busy := rfl
@[simp] theorem State.freshSession_done (s : State) : s.freshSession.done = s.done := rfl
@[simp] theorem State.freshSession_err (s : State) : s.freshSession.err = s.err := rfl
@[simp] theorem State.freshSession_ovr (s : State) : s.freshSession.ovr = s.ovr := rfl
@[simp] theorem State.freshSession_steadyE (s : State) : s.freshSession.steadyE = false := rfl
@[simp] theorem State.freshSession_steadyD (s : State) : s.freshSession.steadyD = false := rfl
@[simp] theorem State.freshSession_errcode (s : State) : s.freshSession.errcode = s.errcode := rfl
@[simp] theorem State.freshSession_cmd (s : State) : s.freshSession.cmd = s.cmd := rfl
@[simp] theorem State.freshSession_frameW (s : State) : s.freshSession.frameW = s.frameW := rfl
@[simp] theorem State.freshSession_frameH (s : State) : s.freshSession.frameH = s.frameH := rfl
@[simp] theorem State.freshSession_mbSize (s : State) : s.freshSession.mbSize = s.mbSize := rfl
@[simp] theorem State.freshSession_dbSize (s : State) : s.freshSession.dbSize = s.dbSize := rfl
@[simp] theorem State.freshSession_qscale (s : State) : s.freshSession.qscale = s.qscale := rfl
@[simp] theorem State.freshSession_searchR (s : State) : s.freshSession.searchR = s.searchR := rfl
@[simp] theorem State.freshSession_vlen (s : State) : s.freshSession.vlen = s.vlen := rfl
@[simp] theorem State.freshSession_tileW (s : State) : s.freshSession.tileW = s.tileW := rfl
@[simp] theorem State.freshSession_tileH (s : State) : s.freshSession.tileH = s.tileH := rfl
@[simp] theorem State.freshSession_meBx (s : State) : s.freshSession.meBx = s.meBx := rfl
@[simp] theorem State.freshSession_meBy (s : State) : s.freshSession.meBy = s.meBy := rfl
@[simp] theorem State.freshSession_meVec (s : State) : s.freshSession.meVec = s.meVec := rfl
@[simp] theorem State.freshSession_meCost (s : State) : s.freshSession.meCost = s.meCost := rfl
@[simp] theorem State.freshSession_encFtype (s : State) : s.freshSession.encFtype = s.encFtype := rfl
@[simp] theorem State.freshSession_decFtype (s : State) : s.freshSession.decFtype = s.decFtype := rfl
@[simp] theorem State.freshSession_encFcnt (s : State) : s.freshSession.encFcnt = 0#32 := rfl
@[simp] theorem State.freshSession_decFcnt (s : State) : s.freshSession.decFcnt = 0#32 := rfl
@[simp] theorem State.freshSession_mem (s : State) : s.freshSession.mem = s.mem := rfl
@[simp] theorem State.freshSession_runMetric (s : State) : s.freshSession.runMetric = s.runMetric := rfl
@[simp] theorem State.freshSession_wait (s : State) : s.freshSession.wait = s.wait := rfl
@[simp] theorem State.freshSession_draw (s : State) : s.freshSession.draw = s.draw := rfl
@[simp] theorem State.freshSession_host (s : State) : s.freshSession.host = s.host := rfl
@[simp] theorem State.freshSession_resp (s : State) : s.freshSession.resp = s.resp := rfl
@[simp] theorem State.freshSession_width (s : State) : s.freshSession.width = s.width := rfl
@[simp] theorem State.freshSession_height (s : State) : s.freshSession.height = s.height := rfl
@[simp] theorem State.freshSession_mb (s : State) : s.freshSession.mb = s.mb := rfl
@[simp] theorem State.freshSession_db (s : State) : s.freshSession.db = s.db := rfl
@[simp] theorem State.freshSession_scale (s : State) : s.freshSession.scale = s.scale := rfl
@[simp] theorem State.freshSession_radius (s : State) : s.freshSession.radius = s.radius := rfl
@[simp] theorem State.freshSession_len (s : State) : s.freshSession.len = s.len := rfl
@[simp] theorem State.freshSession_tw (s : State) : s.freshSession.tw = s.tw := rfl
@[simp] theorem State.freshSession_th (s : State) : s.freshSession.th = s.th := rfl
@[simp] theorem State.freshSession_bx (s : State) : s.freshSession.bx = s.bx := rfl
@[simp] theorem State.freshSession_blockY (s : State) : s.freshSession.blockY = s.blockY := rfl
@[simp] theorem State.freshSession_fieldRows (s : State) : s.freshSession.fieldRows = s.fieldRows := rfl
@[simp] theorem State.freshSession_fieldCols (s : State) : s.freshSession.fieldCols = s.fieldCols := rfl

@[simp] theorem State.ackStatus_ieDone (s : State) (v : Word) : (s.ackStatus v).ieDone = s.ieDone := rfl
@[simp] theorem State.ackStatus_ieErr (s : State) (v : Word) : (s.ackStatus v).ieErr = s.ieErr := rfl
@[simp] theorem State.ackStatus_metric (s : State) (v : Word) : (s.ackStatus v).metric = s.metric := rfl
@[simp] theorem State.ackStatus_busy (s : State) (v : Word) : (s.ackStatus v).busy = s.busy := rfl
@[simp] theorem State.ackStatus_done (s : State) (v : Word) : (s.ackStatus v).done = (s.done && !v.getLsbD 1) := rfl
@[simp] theorem State.ackStatus_err (s : State) (v : Word) : (s.ackStatus v).err = (s.err && !v.getLsbD 2) := rfl
@[simp] theorem State.ackStatus_ovr (s : State) (v : Word) : (s.ackStatus v).ovr = (s.ovr && !v.getLsbD 3) := rfl
@[simp] theorem State.ackStatus_steadyE (s : State) (v : Word) : (s.ackStatus v).steadyE = s.steadyE := rfl
@[simp] theorem State.ackStatus_steadyD (s : State) (v : Word) : (s.ackStatus v).steadyD = s.steadyD := rfl
@[simp] theorem State.ackStatus_errcode (s : State) (v : Word) : (s.ackStatus v).errcode = s.errcode := rfl
@[simp] theorem State.ackStatus_cmd (s : State) (v : Word) : (s.ackStatus v).cmd = s.cmd := rfl
@[simp] theorem State.ackStatus_frameW (s : State) (v : Word) : (s.ackStatus v).frameW = s.frameW := rfl
@[simp] theorem State.ackStatus_frameH (s : State) (v : Word) : (s.ackStatus v).frameH = s.frameH := rfl
@[simp] theorem State.ackStatus_mbSize (s : State) (v : Word) : (s.ackStatus v).mbSize = s.mbSize := rfl
@[simp] theorem State.ackStatus_dbSize (s : State) (v : Word) : (s.ackStatus v).dbSize = s.dbSize := rfl
@[simp] theorem State.ackStatus_qscale (s : State) (v : Word) : (s.ackStatus v).qscale = s.qscale := rfl
@[simp] theorem State.ackStatus_searchR (s : State) (v : Word) : (s.ackStatus v).searchR = s.searchR := rfl
@[simp] theorem State.ackStatus_vlen (s : State) (v : Word) : (s.ackStatus v).vlen = s.vlen := rfl
@[simp] theorem State.ackStatus_tileW (s : State) (v : Word) : (s.ackStatus v).tileW = s.tileW := rfl
@[simp] theorem State.ackStatus_tileH (s : State) (v : Word) : (s.ackStatus v).tileH = s.tileH := rfl
@[simp] theorem State.ackStatus_meBx (s : State) (v : Word) : (s.ackStatus v).meBx = s.meBx := rfl
@[simp] theorem State.ackStatus_meBy (s : State) (v : Word) : (s.ackStatus v).meBy = s.meBy := rfl
@[simp] theorem State.ackStatus_meVec (s : State) (v : Word) : (s.ackStatus v).meVec = s.meVec := rfl
@[simp] theorem State.ackStatus_meCost (s : State) (v : Word) : (s.ackStatus v).meCost = s.meCost := rfl
@[simp] theorem State.ackStatus_encFtype (s : State) (v : Word) : (s.ackStatus v).encFtype = s.encFtype := rfl
@[simp] theorem State.ackStatus_decFtype (s : State) (v : Word) : (s.ackStatus v).decFtype = s.decFtype := rfl
@[simp] theorem State.ackStatus_encFcnt (s : State) (v : Word) : (s.ackStatus v).encFcnt = s.encFcnt := rfl
@[simp] theorem State.ackStatus_decFcnt (s : State) (v : Word) : (s.ackStatus v).decFcnt = s.decFcnt := rfl
@[simp] theorem State.ackStatus_mem (s : State) (v : Word) : (s.ackStatus v).mem = s.mem := rfl
@[simp] theorem State.ackStatus_runMetric (s : State) (v : Word) : (s.ackStatus v).runMetric = s.runMetric := rfl
@[simp] theorem State.ackStatus_wait (s : State) (v : Word) : (s.ackStatus v).wait = s.wait := rfl
@[simp] theorem State.ackStatus_draw (s : State) (v : Word) : (s.ackStatus v).draw = s.draw := rfl
@[simp] theorem State.ackStatus_host (s : State) (v : Word) : (s.ackStatus v).host = s.host := rfl
@[simp] theorem State.ackStatus_resp (s : State) (v : Word) : (s.ackStatus v).resp = s.resp := rfl
@[simp] theorem State.ackStatus_width (s : State) (v : Word) : (s.ackStatus v).width = s.width := rfl
@[simp] theorem State.ackStatus_height (s : State) (v : Word) : (s.ackStatus v).height = s.height := rfl
@[simp] theorem State.ackStatus_mb (s : State) (v : Word) : (s.ackStatus v).mb = s.mb := rfl
@[simp] theorem State.ackStatus_db (s : State) (v : Word) : (s.ackStatus v).db = s.db := rfl
@[simp] theorem State.ackStatus_scale (s : State) (v : Word) : (s.ackStatus v).scale = s.scale := rfl
@[simp] theorem State.ackStatus_radius (s : State) (v : Word) : (s.ackStatus v).radius = s.radius := rfl
@[simp] theorem State.ackStatus_len (s : State) (v : Word) : (s.ackStatus v).len = s.len := rfl
@[simp] theorem State.ackStatus_tw (s : State) (v : Word) : (s.ackStatus v).tw = s.tw := rfl
@[simp] theorem State.ackStatus_th (s : State) (v : Word) : (s.ackStatus v).th = s.th := rfl
@[simp] theorem State.ackStatus_bx (s : State) (v : Word) : (s.ackStatus v).bx = s.bx := rfl
@[simp] theorem State.ackStatus_blockY (s : State) (v : Word) : (s.ackStatus v).blockY = s.blockY := rfl
@[simp] theorem State.ackStatus_fieldRows (s : State) (v : Word) : (s.ackStatus v).fieldRows = s.fieldRows := rfl
@[simp] theorem State.ackStatus_fieldCols (s : State) (v : Word) : (s.ackStatus v).fieldCols = s.fieldCols := rfl

@[simp] theorem State.setCtrl_ieDone (s : State) (v : Word) : (s.setCtrl v).ieDone = v.getLsbD 1 := rfl
@[simp] theorem State.setCtrl_ieErr (s : State) (v : Word) : (s.setCtrl v).ieErr = v.getLsbD 2 := rfl
@[simp] theorem State.setCtrl_metric (s : State) (v : Word) : (s.setCtrl v).metric = v.getLsbD 3 := rfl
@[simp] theorem State.setCtrl_busy (s : State) (v : Word) : (s.setCtrl v).busy = s.busy := rfl
@[simp] theorem State.setCtrl_done (s : State) (v : Word) : (s.setCtrl v).done = s.done := rfl
@[simp] theorem State.setCtrl_err (s : State) (v : Word) : (s.setCtrl v).err = s.err := rfl
@[simp] theorem State.setCtrl_ovr (s : State) (v : Word) : (s.setCtrl v).ovr = s.ovr := rfl
@[simp] theorem State.setCtrl_steadyE (s : State) (v : Word) : (s.setCtrl v).steadyE = s.steadyE := rfl
@[simp] theorem State.setCtrl_steadyD (s : State) (v : Word) : (s.setCtrl v).steadyD = s.steadyD := rfl
@[simp] theorem State.setCtrl_errcode (s : State) (v : Word) : (s.setCtrl v).errcode = s.errcode := rfl
@[simp] theorem State.setCtrl_cmd (s : State) (v : Word) : (s.setCtrl v).cmd = s.cmd := rfl
@[simp] theorem State.setCtrl_frameW (s : State) (v : Word) : (s.setCtrl v).frameW = s.frameW := rfl
@[simp] theorem State.setCtrl_frameH (s : State) (v : Word) : (s.setCtrl v).frameH = s.frameH := rfl
@[simp] theorem State.setCtrl_mbSize (s : State) (v : Word) : (s.setCtrl v).mbSize = s.mbSize := rfl
@[simp] theorem State.setCtrl_dbSize (s : State) (v : Word) : (s.setCtrl v).dbSize = s.dbSize := rfl
@[simp] theorem State.setCtrl_qscale (s : State) (v : Word) : (s.setCtrl v).qscale = s.qscale := rfl
@[simp] theorem State.setCtrl_searchR (s : State) (v : Word) : (s.setCtrl v).searchR = s.searchR := rfl
@[simp] theorem State.setCtrl_vlen (s : State) (v : Word) : (s.setCtrl v).vlen = s.vlen := rfl
@[simp] theorem State.setCtrl_tileW (s : State) (v : Word) : (s.setCtrl v).tileW = s.tileW := rfl
@[simp] theorem State.setCtrl_tileH (s : State) (v : Word) : (s.setCtrl v).tileH = s.tileH := rfl
@[simp] theorem State.setCtrl_meBx (s : State) (v : Word) : (s.setCtrl v).meBx = s.meBx := rfl
@[simp] theorem State.setCtrl_meBy (s : State) (v : Word) : (s.setCtrl v).meBy = s.meBy := rfl
@[simp] theorem State.setCtrl_meVec (s : State) (v : Word) : (s.setCtrl v).meVec = s.meVec := rfl
@[simp] theorem State.setCtrl_meCost (s : State) (v : Word) : (s.setCtrl v).meCost = s.meCost := rfl
@[simp] theorem State.setCtrl_encFtype (s : State) (v : Word) : (s.setCtrl v).encFtype = s.encFtype := rfl
@[simp] theorem State.setCtrl_decFtype (s : State) (v : Word) : (s.setCtrl v).decFtype = s.decFtype := rfl
@[simp] theorem State.setCtrl_encFcnt (s : State) (v : Word) : (s.setCtrl v).encFcnt = s.encFcnt := rfl
@[simp] theorem State.setCtrl_decFcnt (s : State) (v : Word) : (s.setCtrl v).decFcnt = s.decFcnt := rfl
@[simp] theorem State.setCtrl_mem (s : State) (v : Word) : (s.setCtrl v).mem = s.mem := rfl
@[simp] theorem State.setCtrl_runMetric (s : State) (v : Word) : (s.setCtrl v).runMetric = s.runMetric := rfl
@[simp] theorem State.setCtrl_wait (s : State) (v : Word) : (s.setCtrl v).wait = s.wait := rfl
@[simp] theorem State.setCtrl_draw (s : State) (v : Word) : (s.setCtrl v).draw = s.draw := rfl
@[simp] theorem State.setCtrl_host (s : State) (v : Word) : (s.setCtrl v).host = s.host := rfl
@[simp] theorem State.setCtrl_resp (s : State) (v : Word) : (s.setCtrl v).resp = s.resp := rfl
@[simp] theorem State.setCtrl_width (s : State) (v : Word) : (s.setCtrl v).width = s.width := rfl
@[simp] theorem State.setCtrl_height (s : State) (v : Word) : (s.setCtrl v).height = s.height := rfl
@[simp] theorem State.setCtrl_mb (s : State) (v : Word) : (s.setCtrl v).mb = s.mb := rfl
@[simp] theorem State.setCtrl_db (s : State) (v : Word) : (s.setCtrl v).db = s.db := rfl
@[simp] theorem State.setCtrl_scale (s : State) (v : Word) : (s.setCtrl v).scale = s.scale := rfl
@[simp] theorem State.setCtrl_radius (s : State) (v : Word) : (s.setCtrl v).radius = s.radius := rfl
@[simp] theorem State.setCtrl_len (s : State) (v : Word) : (s.setCtrl v).len = s.len := rfl
@[simp] theorem State.setCtrl_tw (s : State) (v : Word) : (s.setCtrl v).tw = s.tw := rfl
@[simp] theorem State.setCtrl_th (s : State) (v : Word) : (s.setCtrl v).th = s.th := rfl
@[simp] theorem State.setCtrl_bx (s : State) (v : Word) : (s.setCtrl v).bx = s.bx := rfl
@[simp] theorem State.setCtrl_blockY (s : State) (v : Word) : (s.setCtrl v).blockY = s.blockY := rfl
@[simp] theorem State.setCtrl_fieldRows (s : State) (v : Word) : (s.setCtrl v).fieldRows = s.fieldRows := rfl
@[simp] theorem State.setCtrl_fieldCols (s : State) (v : Word) : (s.setCtrl v).fieldCols = s.fieldCols := rfl

@[simp] theorem State.softReset_ieDone (s : State) : s.softReset.ieDone = State.reset.ieDone := rfl
@[simp] theorem State.softReset_ieErr (s : State) : s.softReset.ieErr = State.reset.ieErr := rfl
@[simp] theorem State.softReset_metric (s : State) : s.softReset.metric = State.reset.metric := rfl
@[simp] theorem State.softReset_busy (s : State) : s.softReset.busy = State.reset.busy := rfl
@[simp] theorem State.softReset_done (s : State) : s.softReset.done = State.reset.done := rfl
@[simp] theorem State.softReset_err (s : State) : s.softReset.err = State.reset.err := rfl
@[simp] theorem State.softReset_ovr (s : State) : s.softReset.ovr = State.reset.ovr := rfl
@[simp] theorem State.softReset_steadyE (s : State) : s.softReset.steadyE = State.reset.steadyE := rfl
@[simp] theorem State.softReset_steadyD (s : State) : s.softReset.steadyD = State.reset.steadyD := rfl
@[simp] theorem State.softReset_errcode (s : State) : s.softReset.errcode = State.reset.errcode := rfl
@[simp] theorem State.softReset_cmd (s : State) : s.softReset.cmd = State.reset.cmd := rfl
@[simp] theorem State.softReset_frameW (s : State) : s.softReset.frameW = State.reset.frameW := rfl
@[simp] theorem State.softReset_frameH (s : State) : s.softReset.frameH = State.reset.frameH := rfl
@[simp] theorem State.softReset_mbSize (s : State) : s.softReset.mbSize = State.reset.mbSize := rfl
@[simp] theorem State.softReset_dbSize (s : State) : s.softReset.dbSize = State.reset.dbSize := rfl
@[simp] theorem State.softReset_qscale (s : State) : s.softReset.qscale = State.reset.qscale := rfl
@[simp] theorem State.softReset_searchR (s : State) : s.softReset.searchR = State.reset.searchR := rfl
@[simp] theorem State.softReset_vlen (s : State) : s.softReset.vlen = State.reset.vlen := rfl
@[simp] theorem State.softReset_tileW (s : State) : s.softReset.tileW = State.reset.tileW := rfl
@[simp] theorem State.softReset_tileH (s : State) : s.softReset.tileH = State.reset.tileH := rfl
@[simp] theorem State.softReset_meBx (s : State) : s.softReset.meBx = State.reset.meBx := rfl
@[simp] theorem State.softReset_meBy (s : State) : s.softReset.meBy = State.reset.meBy := rfl
@[simp] theorem State.softReset_meVec (s : State) : s.softReset.meVec = State.reset.meVec := rfl
@[simp] theorem State.softReset_meCost (s : State) : s.softReset.meCost = State.reset.meCost := rfl
@[simp] theorem State.softReset_encFtype (s : State) : s.softReset.encFtype = State.reset.encFtype := rfl
@[simp] theorem State.softReset_decFtype (s : State) : s.softReset.decFtype = State.reset.decFtype := rfl
@[simp] theorem State.softReset_encFcnt (s : State) : s.softReset.encFcnt = State.reset.encFcnt := rfl
@[simp] theorem State.softReset_decFcnt (s : State) : s.softReset.decFcnt = State.reset.decFcnt := rfl
@[simp] theorem State.softReset_mem (s : State) : s.softReset.mem = { (if s.busy then s.abortMem else s.mem) with wmat := Memory.reset.wmat } := rfl
@[simp] theorem State.softReset_runMetric (s : State) : s.softReset.runMetric = State.reset.runMetric := rfl
@[simp] theorem State.softReset_wait (s : State) : s.softReset.wait = State.reset.wait := rfl
@[simp] theorem State.softReset_draw (s : State) : s.softReset.draw = s.draw + 1 := rfl
@[simp] theorem State.softReset_host (s : State) : s.softReset.host = s.host := rfl
@[simp] theorem State.softReset_resp (s : State) : s.softReset.resp = s.resp := rfl

@[simp] theorem State.onVector_ieDone (s : State) (f : List Cplx → List Cplx) : (s.onVector f).ieDone = s.ieDone := rfl
@[simp] theorem State.onVector_ieErr (s : State) (f : List Cplx → List Cplx) : (s.onVector f).ieErr = s.ieErr := rfl
@[simp] theorem State.onVector_metric (s : State) (f : List Cplx → List Cplx) : (s.onVector f).metric = s.metric := rfl
@[simp] theorem State.onVector_busy (s : State) (f : List Cplx → List Cplx) : (s.onVector f).busy = s.busy := rfl
@[simp] theorem State.onVector_done (s : State) (f : List Cplx → List Cplx) : (s.onVector f).done = s.done := rfl
@[simp] theorem State.onVector_err (s : State) (f : List Cplx → List Cplx) : (s.onVector f).err = s.err := rfl
@[simp] theorem State.onVector_ovr (s : State) (f : List Cplx → List Cplx) : (s.onVector f).ovr = s.ovr := rfl
@[simp] theorem State.onVector_steadyE (s : State) (f : List Cplx → List Cplx) : (s.onVector f).steadyE = s.steadyE := rfl
@[simp] theorem State.onVector_steadyD (s : State) (f : List Cplx → List Cplx) : (s.onVector f).steadyD = s.steadyD := rfl
@[simp] theorem State.onVector_errcode (s : State) (f : List Cplx → List Cplx) : (s.onVector f).errcode = s.errcode := rfl
@[simp] theorem State.onVector_cmd (s : State) (f : List Cplx → List Cplx) : (s.onVector f).cmd = s.cmd := rfl
@[simp] theorem State.onVector_frameW (s : State) (f : List Cplx → List Cplx) : (s.onVector f).frameW = s.frameW := rfl
@[simp] theorem State.onVector_frameH (s : State) (f : List Cplx → List Cplx) : (s.onVector f).frameH = s.frameH := rfl
@[simp] theorem State.onVector_mbSize (s : State) (f : List Cplx → List Cplx) : (s.onVector f).mbSize = s.mbSize := rfl
@[simp] theorem State.onVector_dbSize (s : State) (f : List Cplx → List Cplx) : (s.onVector f).dbSize = s.dbSize := rfl
@[simp] theorem State.onVector_qscale (s : State) (f : List Cplx → List Cplx) : (s.onVector f).qscale = s.qscale := rfl
@[simp] theorem State.onVector_searchR (s : State) (f : List Cplx → List Cplx) : (s.onVector f).searchR = s.searchR := rfl
@[simp] theorem State.onVector_vlen (s : State) (f : List Cplx → List Cplx) : (s.onVector f).vlen = s.vlen := rfl
@[simp] theorem State.onVector_tileW (s : State) (f : List Cplx → List Cplx) : (s.onVector f).tileW = s.tileW := rfl
@[simp] theorem State.onVector_tileH (s : State) (f : List Cplx → List Cplx) : (s.onVector f).tileH = s.tileH := rfl
@[simp] theorem State.onVector_meBx (s : State) (f : List Cplx → List Cplx) : (s.onVector f).meBx = s.meBx := rfl
@[simp] theorem State.onVector_meBy (s : State) (f : List Cplx → List Cplx) : (s.onVector f).meBy = s.meBy := rfl
@[simp] theorem State.onVector_meVec (s : State) (f : List Cplx → List Cplx) : (s.onVector f).meVec = s.meVec := rfl
@[simp] theorem State.onVector_meCost (s : State) (f : List Cplx → List Cplx) : (s.onVector f).meCost = s.meCost := rfl
@[simp] theorem State.onVector_encFtype (s : State) (f : List Cplx → List Cplx) : (s.onVector f).encFtype = s.encFtype := rfl
@[simp] theorem State.onVector_decFtype (s : State) (f : List Cplx → List Cplx) : (s.onVector f).decFtype = s.decFtype := rfl
@[simp] theorem State.onVector_encFcnt (s : State) (f : List Cplx → List Cplx) : (s.onVector f).encFcnt = s.encFcnt := rfl
@[simp] theorem State.onVector_decFcnt (s : State) (f : List Cplx → List Cplx) : (s.onVector f).decFcnt = s.decFcnt := rfl
@[simp] theorem State.onVector_mem (s : State) (f : List Cplx → List Cplx) : (s.onVector f).mem = s.mem.putVector (f (s.vector s.len)) := rfl
@[simp] theorem State.onVector_runMetric (s : State) (f : List Cplx → List Cplx) : (s.onVector f).runMetric = s.runMetric := rfl
@[simp] theorem State.onVector_wait (s : State) (f : List Cplx → List Cplx) : (s.onVector f).wait = s.wait := rfl
@[simp] theorem State.onVector_draw (s : State) (f : List Cplx → List Cplx) : (s.onVector f).draw = s.draw := rfl
@[simp] theorem State.onVector_host (s : State) (f : List Cplx → List Cplx) : (s.onVector f).host = s.host := rfl
@[simp] theorem State.onVector_resp (s : State) (f : List Cplx → List Cplx) : (s.onVector f).resp = s.resp := rfl
@[simp] theorem State.onVector_width (s : State) (f : List Cplx → List Cplx) : (s.onVector f).width = s.width := rfl
@[simp] theorem State.onVector_height (s : State) (f : List Cplx → List Cplx) : (s.onVector f).height = s.height := rfl
@[simp] theorem State.onVector_mb (s : State) (f : List Cplx → List Cplx) : (s.onVector f).mb = s.mb := rfl
@[simp] theorem State.onVector_db (s : State) (f : List Cplx → List Cplx) : (s.onVector f).db = s.db := rfl
@[simp] theorem State.onVector_scale (s : State) (f : List Cplx → List Cplx) : (s.onVector f).scale = s.scale := rfl
@[simp] theorem State.onVector_radius (s : State) (f : List Cplx → List Cplx) : (s.onVector f).radius = s.radius := rfl
@[simp] theorem State.onVector_len (s : State) (f : List Cplx → List Cplx) : (s.onVector f).len = s.len := rfl
@[simp] theorem State.onVector_tw (s : State) (f : List Cplx → List Cplx) : (s.onVector f).tw = s.tw := rfl
@[simp] theorem State.onVector_th (s : State) (f : List Cplx → List Cplx) : (s.onVector f).th = s.th := rfl
@[simp] theorem State.onVector_bx (s : State) (f : List Cplx → List Cplx) : (s.onVector f).bx = s.bx := rfl
@[simp] theorem State.onVector_blockY (s : State) (f : List Cplx → List Cplx) : (s.onVector f).blockY = s.blockY := rfl
@[simp] theorem State.onVector_fieldRows (s : State) (f : List Cplx → List Cplx) : (s.onVector f).fieldRows = s.fieldRows := rfl
@[simp] theorem State.onVector_fieldCols (s : State) (f : List Cplx → List Cplx) : (s.onVector f).fieldCols = s.fieldCols := rfl

@[simp] theorem State.onCoefs_ieDone (s : State) (f : Grid F64 → Grid F64) : (s.onCoefs f).ieDone = s.ieDone := rfl
@[simp] theorem State.onCoefs_ieErr (s : State) (f : Grid F64 → Grid F64) : (s.onCoefs f).ieErr = s.ieErr := rfl
@[simp] theorem State.onCoefs_metric (s : State) (f : Grid F64 → Grid F64) : (s.onCoefs f).metric = s.metric := rfl
@[simp] theorem State.onCoefs_busy (s : State) (f : Grid F64 → Grid F64) : (s.onCoefs f).busy = s.busy := rfl
@[simp] theorem State.onCoefs_done (s : State) (f : Grid F64 → Grid F64) : (s.onCoefs f).done = s.done := rfl
@[simp] theorem State.onCoefs_err (s : State) (f : Grid F64 → Grid F64) : (s.onCoefs f).err = s.err := rfl
@[simp] theorem State.onCoefs_ovr (s : State) (f : Grid F64 → Grid F64) : (s.onCoefs f).ovr = s.ovr := rfl
@[simp] theorem State.onCoefs_steadyE (s : State) (f : Grid F64 → Grid F64) : (s.onCoefs f).steadyE = s.steadyE := rfl
@[simp] theorem State.onCoefs_steadyD (s : State) (f : Grid F64 → Grid F64) : (s.onCoefs f).steadyD = s.steadyD := rfl
@[simp] theorem State.onCoefs_errcode (s : State) (f : Grid F64 → Grid F64) : (s.onCoefs f).errcode = s.errcode := rfl
@[simp] theorem State.onCoefs_cmd (s : State) (f : Grid F64 → Grid F64) : (s.onCoefs f).cmd = s.cmd := rfl
@[simp] theorem State.onCoefs_frameW (s : State) (f : Grid F64 → Grid F64) : (s.onCoefs f).frameW = s.frameW := rfl
@[simp] theorem State.onCoefs_frameH (s : State) (f : Grid F64 → Grid F64) : (s.onCoefs f).frameH = s.frameH := rfl
@[simp] theorem State.onCoefs_mbSize (s : State) (f : Grid F64 → Grid F64) : (s.onCoefs f).mbSize = s.mbSize := rfl
@[simp] theorem State.onCoefs_dbSize (s : State) (f : Grid F64 → Grid F64) : (s.onCoefs f).dbSize = s.dbSize := rfl
@[simp] theorem State.onCoefs_qscale (s : State) (f : Grid F64 → Grid F64) : (s.onCoefs f).qscale = s.qscale := rfl
@[simp] theorem State.onCoefs_searchR (s : State) (f : Grid F64 → Grid F64) : (s.onCoefs f).searchR = s.searchR := rfl
@[simp] theorem State.onCoefs_vlen (s : State) (f : Grid F64 → Grid F64) : (s.onCoefs f).vlen = s.vlen := rfl
@[simp] theorem State.onCoefs_tileW (s : State) (f : Grid F64 → Grid F64) : (s.onCoefs f).tileW = s.tileW := rfl
@[simp] theorem State.onCoefs_tileH (s : State) (f : Grid F64 → Grid F64) : (s.onCoefs f).tileH = s.tileH := rfl
@[simp] theorem State.onCoefs_meBx (s : State) (f : Grid F64 → Grid F64) : (s.onCoefs f).meBx = s.meBx := rfl
@[simp] theorem State.onCoefs_meBy (s : State) (f : Grid F64 → Grid F64) : (s.onCoefs f).meBy = s.meBy := rfl
@[simp] theorem State.onCoefs_meVec (s : State) (f : Grid F64 → Grid F64) : (s.onCoefs f).meVec = s.meVec := rfl
@[simp] theorem State.onCoefs_meCost (s : State) (f : Grid F64 → Grid F64) : (s.onCoefs f).meCost = s.meCost := rfl
@[simp] theorem State.onCoefs_encFtype (s : State) (f : Grid F64 → Grid F64) : (s.onCoefs f).encFtype = s.encFtype := rfl
@[simp] theorem State.onCoefs_decFtype (s : State) (f : Grid F64 → Grid F64) : (s.onCoefs f).decFtype = s.decFtype := rfl
@[simp] theorem State.onCoefs_encFcnt (s : State) (f : Grid F64 → Grid F64) : (s.onCoefs f).encFcnt = s.encFcnt := rfl
@[simp] theorem State.onCoefs_decFcnt (s : State) (f : Grid F64 → Grid F64) : (s.onCoefs f).decFcnt = s.decFcnt := rfl
@[simp] theorem State.onCoefs_mem (s : State) (f : Grid F64 → Grid F64) : (s.onCoefs f).mem = s.mem.putCoefs (f s.coefs) := rfl
@[simp] theorem State.onCoefs_runMetric (s : State) (f : Grid F64 → Grid F64) : (s.onCoefs f).runMetric = s.runMetric := rfl
@[simp] theorem State.onCoefs_wait (s : State) (f : Grid F64 → Grid F64) : (s.onCoefs f).wait = s.wait := rfl
@[simp] theorem State.onCoefs_draw (s : State) (f : Grid F64 → Grid F64) : (s.onCoefs f).draw = s.draw := rfl
@[simp] theorem State.onCoefs_host (s : State) (f : Grid F64 → Grid F64) : (s.onCoefs f).host = s.host := rfl
@[simp] theorem State.onCoefs_resp (s : State) (f : Grid F64 → Grid F64) : (s.onCoefs f).resp = s.resp := rfl
@[simp] theorem State.onCoefs_width (s : State) (f : Grid F64 → Grid F64) : (s.onCoefs f).width = s.width := rfl
@[simp] theorem State.onCoefs_height (s : State) (f : Grid F64 → Grid F64) : (s.onCoefs f).height = s.height := rfl
@[simp] theorem State.onCoefs_mb (s : State) (f : Grid F64 → Grid F64) : (s.onCoefs f).mb = s.mb := rfl
@[simp] theorem State.onCoefs_db (s : State) (f : Grid F64 → Grid F64) : (s.onCoefs f).db = s.db := rfl
@[simp] theorem State.onCoefs_scale (s : State) (f : Grid F64 → Grid F64) : (s.onCoefs f).scale = s.scale := rfl
@[simp] theorem State.onCoefs_radius (s : State) (f : Grid F64 → Grid F64) : (s.onCoefs f).radius = s.radius := rfl
@[simp] theorem State.onCoefs_len (s : State) (f : Grid F64 → Grid F64) : (s.onCoefs f).len = s.len := rfl
@[simp] theorem State.onCoefs_tw (s : State) (f : Grid F64 → Grid F64) : (s.onCoefs f).tw = s.tw := rfl
@[simp] theorem State.onCoefs_th (s : State) (f : Grid F64 → Grid F64) : (s.onCoefs f).th = s.th := rfl
@[simp] theorem State.onCoefs_bx (s : State) (f : Grid F64 → Grid F64) : (s.onCoefs f).bx = s.bx := rfl
@[simp] theorem State.onCoefs_blockY (s : State) (f : Grid F64 → Grid F64) : (s.onCoefs f).blockY = s.blockY := rfl
@[simp] theorem State.onCoefs_fieldRows (s : State) (f : Grid F64 → Grid F64) : (s.onCoefs f).fieldRows = s.fieldRows := rfl
@[simp] theorem State.onCoefs_fieldCols (s : State) (f : Grid F64 → Grid F64) : (s.onCoefs f).fieldCols = s.fieldCols := rfl

@[simp] theorem State.onField_ieDone (s : State) (f : Grid Vec → Grid Vec) : (s.onField f).ieDone = s.ieDone := rfl
@[simp] theorem State.onField_ieErr (s : State) (f : Grid Vec → Grid Vec) : (s.onField f).ieErr = s.ieErr := rfl
@[simp] theorem State.onField_metric (s : State) (f : Grid Vec → Grid Vec) : (s.onField f).metric = s.metric := rfl
@[simp] theorem State.onField_busy (s : State) (f : Grid Vec → Grid Vec) : (s.onField f).busy = s.busy := rfl
@[simp] theorem State.onField_done (s : State) (f : Grid Vec → Grid Vec) : (s.onField f).done = s.done := rfl
@[simp] theorem State.onField_err (s : State) (f : Grid Vec → Grid Vec) : (s.onField f).err = s.err := rfl
@[simp] theorem State.onField_ovr (s : State) (f : Grid Vec → Grid Vec) : (s.onField f).ovr = s.ovr := rfl
@[simp] theorem State.onField_steadyE (s : State) (f : Grid Vec → Grid Vec) : (s.onField f).steadyE = s.steadyE := rfl
@[simp] theorem State.onField_steadyD (s : State) (f : Grid Vec → Grid Vec) : (s.onField f).steadyD = s.steadyD := rfl
@[simp] theorem State.onField_errcode (s : State) (f : Grid Vec → Grid Vec) : (s.onField f).errcode = s.errcode := rfl
@[simp] theorem State.onField_cmd (s : State) (f : Grid Vec → Grid Vec) : (s.onField f).cmd = s.cmd := rfl
@[simp] theorem State.onField_frameW (s : State) (f : Grid Vec → Grid Vec) : (s.onField f).frameW = s.frameW := rfl
@[simp] theorem State.onField_frameH (s : State) (f : Grid Vec → Grid Vec) : (s.onField f).frameH = s.frameH := rfl
@[simp] theorem State.onField_mbSize (s : State) (f : Grid Vec → Grid Vec) : (s.onField f).mbSize = s.mbSize := rfl
@[simp] theorem State.onField_dbSize (s : State) (f : Grid Vec → Grid Vec) : (s.onField f).dbSize = s.dbSize := rfl
@[simp] theorem State.onField_qscale (s : State) (f : Grid Vec → Grid Vec) : (s.onField f).qscale = s.qscale := rfl
@[simp] theorem State.onField_searchR (s : State) (f : Grid Vec → Grid Vec) : (s.onField f).searchR = s.searchR := rfl
@[simp] theorem State.onField_vlen (s : State) (f : Grid Vec → Grid Vec) : (s.onField f).vlen = s.vlen := rfl
@[simp] theorem State.onField_tileW (s : State) (f : Grid Vec → Grid Vec) : (s.onField f).tileW = s.tileW := rfl
@[simp] theorem State.onField_tileH (s : State) (f : Grid Vec → Grid Vec) : (s.onField f).tileH = s.tileH := rfl
@[simp] theorem State.onField_meBx (s : State) (f : Grid Vec → Grid Vec) : (s.onField f).meBx = s.meBx := rfl
@[simp] theorem State.onField_meBy (s : State) (f : Grid Vec → Grid Vec) : (s.onField f).meBy = s.meBy := rfl
@[simp] theorem State.onField_meVec (s : State) (f : Grid Vec → Grid Vec) : (s.onField f).meVec = s.meVec := rfl
@[simp] theorem State.onField_meCost (s : State) (f : Grid Vec → Grid Vec) : (s.onField f).meCost = s.meCost := rfl
@[simp] theorem State.onField_encFtype (s : State) (f : Grid Vec → Grid Vec) : (s.onField f).encFtype = s.encFtype := rfl
@[simp] theorem State.onField_decFtype (s : State) (f : Grid Vec → Grid Vec) : (s.onField f).decFtype = s.decFtype := rfl
@[simp] theorem State.onField_encFcnt (s : State) (f : Grid Vec → Grid Vec) : (s.onField f).encFcnt = s.encFcnt := rfl
@[simp] theorem State.onField_decFcnt (s : State) (f : Grid Vec → Grid Vec) : (s.onField f).decFcnt = s.decFcnt := rfl
@[simp] theorem State.onField_mem (s : State) (f : Grid Vec → Grid Vec) : (s.onField f).mem = s.mem.putField (f s.field) := rfl
@[simp] theorem State.onField_runMetric (s : State) (f : Grid Vec → Grid Vec) : (s.onField f).runMetric = s.runMetric := rfl
@[simp] theorem State.onField_wait (s : State) (f : Grid Vec → Grid Vec) : (s.onField f).wait = s.wait := rfl
@[simp] theorem State.onField_draw (s : State) (f : Grid Vec → Grid Vec) : (s.onField f).draw = s.draw := rfl
@[simp] theorem State.onField_host (s : State) (f : Grid Vec → Grid Vec) : (s.onField f).host = s.host := rfl
@[simp] theorem State.onField_resp (s : State) (f : Grid Vec → Grid Vec) : (s.onField f).resp = s.resp := rfl
@[simp] theorem State.onField_width (s : State) (f : Grid Vec → Grid Vec) : (s.onField f).width = s.width := rfl
@[simp] theorem State.onField_height (s : State) (f : Grid Vec → Grid Vec) : (s.onField f).height = s.height := rfl
@[simp] theorem State.onField_mb (s : State) (f : Grid Vec → Grid Vec) : (s.onField f).mb = s.mb := rfl
@[simp] theorem State.onField_db (s : State) (f : Grid Vec → Grid Vec) : (s.onField f).db = s.db := rfl
@[simp] theorem State.onField_scale (s : State) (f : Grid Vec → Grid Vec) : (s.onField f).scale = s.scale := rfl
@[simp] theorem State.onField_radius (s : State) (f : Grid Vec → Grid Vec) : (s.onField f).radius = s.radius := rfl
@[simp] theorem State.onField_len (s : State) (f : Grid Vec → Grid Vec) : (s.onField f).len = s.len := rfl
@[simp] theorem State.onField_tw (s : State) (f : Grid Vec → Grid Vec) : (s.onField f).tw = s.tw := rfl
@[simp] theorem State.onField_th (s : State) (f : Grid Vec → Grid Vec) : (s.onField f).th = s.th := rfl
@[simp] theorem State.onField_bx (s : State) (f : Grid Vec → Grid Vec) : (s.onField f).bx = s.bx := rfl
@[simp] theorem State.onField_blockY (s : State) (f : Grid Vec → Grid Vec) : (s.onField f).blockY = s.blockY := rfl
@[simp] theorem State.onField_fieldRows (s : State) (f : Grid Vec → Grid Vec) : (s.onField f).fieldRows = s.fieldRows := rfl
@[simp] theorem State.onField_fieldCols (s : State) (f : Grid Vec → Grid Vec) : (s.onField f).fieldCols = s.fieldCols := rfl

@[simp] theorem State.quant_ieDone (s : State) (ft : FrameType) : (s.quant ft).ieDone = s.ieDone := rfl
@[simp] theorem State.quant_ieErr (s : State) (ft : FrameType) : (s.quant ft).ieErr = s.ieErr := rfl
@[simp] theorem State.quant_metric (s : State) (ft : FrameType) : (s.quant ft).metric = s.metric := rfl
@[simp] theorem State.quant_busy (s : State) (ft : FrameType) : (s.quant ft).busy = s.busy := rfl
@[simp] theorem State.quant_done (s : State) (ft : FrameType) : (s.quant ft).done = s.done := rfl
@[simp] theorem State.quant_err (s : State) (ft : FrameType) : (s.quant ft).err = s.err := rfl
@[simp] theorem State.quant_ovr (s : State) (ft : FrameType) : (s.quant ft).ovr = s.ovr := rfl
@[simp] theorem State.quant_steadyE (s : State) (ft : FrameType) : (s.quant ft).steadyE = s.steadyE := rfl
@[simp] theorem State.quant_steadyD (s : State) (ft : FrameType) : (s.quant ft).steadyD = s.steadyD := rfl
@[simp] theorem State.quant_errcode (s : State) (ft : FrameType) : (s.quant ft).errcode = s.errcode := rfl
@[simp] theorem State.quant_cmd (s : State) (ft : FrameType) : (s.quant ft).cmd = s.cmd := rfl
@[simp] theorem State.quant_frameW (s : State) (ft : FrameType) : (s.quant ft).frameW = s.frameW := rfl
@[simp] theorem State.quant_frameH (s : State) (ft : FrameType) : (s.quant ft).frameH = s.frameH := rfl
@[simp] theorem State.quant_mbSize (s : State) (ft : FrameType) : (s.quant ft).mbSize = s.mbSize := rfl
@[simp] theorem State.quant_dbSize (s : State) (ft : FrameType) : (s.quant ft).dbSize = s.dbSize := rfl
@[simp] theorem State.quant_qscale (s : State) (ft : FrameType) : (s.quant ft).qscale = s.qscale := rfl
@[simp] theorem State.quant_searchR (s : State) (ft : FrameType) : (s.quant ft).searchR = s.searchR := rfl
@[simp] theorem State.quant_vlen (s : State) (ft : FrameType) : (s.quant ft).vlen = s.vlen := rfl
@[simp] theorem State.quant_tileW (s : State) (ft : FrameType) : (s.quant ft).tileW = s.tileW := rfl
@[simp] theorem State.quant_tileH (s : State) (ft : FrameType) : (s.quant ft).tileH = s.tileH := rfl
@[simp] theorem State.quant_meBx (s : State) (ft : FrameType) : (s.quant ft).meBx = s.meBx := rfl
@[simp] theorem State.quant_meBy (s : State) (ft : FrameType) : (s.quant ft).meBy = s.meBy := rfl
@[simp] theorem State.quant_meVec (s : State) (ft : FrameType) : (s.quant ft).meVec = s.meVec := rfl
@[simp] theorem State.quant_meCost (s : State) (ft : FrameType) : (s.quant ft).meCost = s.meCost := rfl
@[simp] theorem State.quant_encFtype (s : State) (ft : FrameType) : (s.quant ft).encFtype = s.encFtype := rfl
@[simp] theorem State.quant_decFtype (s : State) (ft : FrameType) : (s.quant ft).decFtype = s.decFtype := rfl
@[simp] theorem State.quant_encFcnt (s : State) (ft : FrameType) : (s.quant ft).encFcnt = s.encFcnt := rfl
@[simp] theorem State.quant_decFcnt (s : State) (ft : FrameType) : (s.quant ft).decFcnt = s.decFcnt := rfl
@[simp] theorem State.quant_mem (s : State) (ft : FrameType) : (s.quant ft).mem = s.mem.putCoefs (s.quantized ft s.residuals) := rfl
@[simp] theorem State.quant_runMetric (s : State) (ft : FrameType) : (s.quant ft).runMetric = s.runMetric := rfl
@[simp] theorem State.quant_wait (s : State) (ft : FrameType) : (s.quant ft).wait = s.wait := rfl
@[simp] theorem State.quant_draw (s : State) (ft : FrameType) : (s.quant ft).draw = s.draw := rfl
@[simp] theorem State.quant_host (s : State) (ft : FrameType) : (s.quant ft).host = s.host := rfl
@[simp] theorem State.quant_resp (s : State) (ft : FrameType) : (s.quant ft).resp = s.resp := rfl
@[simp] theorem State.quant_width (s : State) (ft : FrameType) : (s.quant ft).width = s.width := rfl
@[simp] theorem State.quant_height (s : State) (ft : FrameType) : (s.quant ft).height = s.height := rfl
@[simp] theorem State.quant_mb (s : State) (ft : FrameType) : (s.quant ft).mb = s.mb := rfl
@[simp] theorem State.quant_db (s : State) (ft : FrameType) : (s.quant ft).db = s.db := rfl
@[simp] theorem State.quant_scale (s : State) (ft : FrameType) : (s.quant ft).scale = s.scale := rfl
@[simp] theorem State.quant_radius (s : State) (ft : FrameType) : (s.quant ft).radius = s.radius := rfl
@[simp] theorem State.quant_len (s : State) (ft : FrameType) : (s.quant ft).len = s.len := rfl
@[simp] theorem State.quant_tw (s : State) (ft : FrameType) : (s.quant ft).tw = s.tw := rfl
@[simp] theorem State.quant_th (s : State) (ft : FrameType) : (s.quant ft).th = s.th := rfl
@[simp] theorem State.quant_bx (s : State) (ft : FrameType) : (s.quant ft).bx = s.bx := rfl
@[simp] theorem State.quant_blockY (s : State) (ft : FrameType) : (s.quant ft).blockY = s.blockY := rfl
@[simp] theorem State.quant_fieldRows (s : State) (ft : FrameType) : (s.quant ft).fieldRows = s.fieldRows := rfl
@[simp] theorem State.quant_fieldCols (s : State) (ft : FrameType) : (s.quant ft).fieldCols = s.fieldCols := rfl

@[simp] theorem State.dequant_ieDone (s : State) (ft : FrameType) : (s.dequant ft).ieDone = s.ieDone := rfl
@[simp] theorem State.dequant_ieErr (s : State) (ft : FrameType) : (s.dequant ft).ieErr = s.ieErr := rfl
@[simp] theorem State.dequant_metric (s : State) (ft : FrameType) : (s.dequant ft).metric = s.metric := rfl
@[simp] theorem State.dequant_busy (s : State) (ft : FrameType) : (s.dequant ft).busy = s.busy := rfl
@[simp] theorem State.dequant_done (s : State) (ft : FrameType) : (s.dequant ft).done = s.done := rfl
@[simp] theorem State.dequant_err (s : State) (ft : FrameType) : (s.dequant ft).err = s.err := rfl
@[simp] theorem State.dequant_ovr (s : State) (ft : FrameType) : (s.dequant ft).ovr = s.ovr := rfl
@[simp] theorem State.dequant_steadyE (s : State) (ft : FrameType) : (s.dequant ft).steadyE = s.steadyE := rfl
@[simp] theorem State.dequant_steadyD (s : State) (ft : FrameType) : (s.dequant ft).steadyD = s.steadyD := rfl
@[simp] theorem State.dequant_errcode (s : State) (ft : FrameType) : (s.dequant ft).errcode = s.errcode := rfl
@[simp] theorem State.dequant_cmd (s : State) (ft : FrameType) : (s.dequant ft).cmd = s.cmd := rfl
@[simp] theorem State.dequant_frameW (s : State) (ft : FrameType) : (s.dequant ft).frameW = s.frameW := rfl
@[simp] theorem State.dequant_frameH (s : State) (ft : FrameType) : (s.dequant ft).frameH = s.frameH := rfl
@[simp] theorem State.dequant_mbSize (s : State) (ft : FrameType) : (s.dequant ft).mbSize = s.mbSize := rfl
@[simp] theorem State.dequant_dbSize (s : State) (ft : FrameType) : (s.dequant ft).dbSize = s.dbSize := rfl
@[simp] theorem State.dequant_qscale (s : State) (ft : FrameType) : (s.dequant ft).qscale = s.qscale := rfl
@[simp] theorem State.dequant_searchR (s : State) (ft : FrameType) : (s.dequant ft).searchR = s.searchR := rfl
@[simp] theorem State.dequant_vlen (s : State) (ft : FrameType) : (s.dequant ft).vlen = s.vlen := rfl
@[simp] theorem State.dequant_tileW (s : State) (ft : FrameType) : (s.dequant ft).tileW = s.tileW := rfl
@[simp] theorem State.dequant_tileH (s : State) (ft : FrameType) : (s.dequant ft).tileH = s.tileH := rfl
@[simp] theorem State.dequant_meBx (s : State) (ft : FrameType) : (s.dequant ft).meBx = s.meBx := rfl
@[simp] theorem State.dequant_meBy (s : State) (ft : FrameType) : (s.dequant ft).meBy = s.meBy := rfl
@[simp] theorem State.dequant_meVec (s : State) (ft : FrameType) : (s.dequant ft).meVec = s.meVec := rfl
@[simp] theorem State.dequant_meCost (s : State) (ft : FrameType) : (s.dequant ft).meCost = s.meCost := rfl
@[simp] theorem State.dequant_encFtype (s : State) (ft : FrameType) : (s.dequant ft).encFtype = s.encFtype := rfl
@[simp] theorem State.dequant_decFtype (s : State) (ft : FrameType) : (s.dequant ft).decFtype = s.decFtype := rfl
@[simp] theorem State.dequant_encFcnt (s : State) (ft : FrameType) : (s.dequant ft).encFcnt = s.encFcnt := rfl
@[simp] theorem State.dequant_decFcnt (s : State) (ft : FrameType) : (s.dequant ft).decFcnt = s.decFcnt := rfl
@[simp] theorem State.dequant_mem (s : State) (ft : FrameType) : (s.dequant ft).mem = s.mem.putResiduals (s.dequantized ft s.coefs) := rfl
@[simp] theorem State.dequant_runMetric (s : State) (ft : FrameType) : (s.dequant ft).runMetric = s.runMetric := rfl
@[simp] theorem State.dequant_wait (s : State) (ft : FrameType) : (s.dequant ft).wait = s.wait := rfl
@[simp] theorem State.dequant_draw (s : State) (ft : FrameType) : (s.dequant ft).draw = s.draw := rfl
@[simp] theorem State.dequant_host (s : State) (ft : FrameType) : (s.dequant ft).host = s.host := rfl
@[simp] theorem State.dequant_resp (s : State) (ft : FrameType) : (s.dequant ft).resp = s.resp := rfl
@[simp] theorem State.dequant_width (s : State) (ft : FrameType) : (s.dequant ft).width = s.width := rfl
@[simp] theorem State.dequant_height (s : State) (ft : FrameType) : (s.dequant ft).height = s.height := rfl
@[simp] theorem State.dequant_mb (s : State) (ft : FrameType) : (s.dequant ft).mb = s.mb := rfl
@[simp] theorem State.dequant_db (s : State) (ft : FrameType) : (s.dequant ft).db = s.db := rfl
@[simp] theorem State.dequant_scale (s : State) (ft : FrameType) : (s.dequant ft).scale = s.scale := rfl
@[simp] theorem State.dequant_radius (s : State) (ft : FrameType) : (s.dequant ft).radius = s.radius := rfl
@[simp] theorem State.dequant_len (s : State) (ft : FrameType) : (s.dequant ft).len = s.len := rfl
@[simp] theorem State.dequant_tw (s : State) (ft : FrameType) : (s.dequant ft).tw = s.tw := rfl
@[simp] theorem State.dequant_th (s : State) (ft : FrameType) : (s.dequant ft).th = s.th := rfl
@[simp] theorem State.dequant_bx (s : State) (ft : FrameType) : (s.dequant ft).bx = s.bx := rfl
@[simp] theorem State.dequant_blockY (s : State) (ft : FrameType) : (s.dequant ft).blockY = s.blockY := rfl
@[simp] theorem State.dequant_fieldRows (s : State) (ft : FrameType) : (s.dequant ft).fieldRows = s.fieldRows := rfl
@[simp] theorem State.dequant_fieldCols (s : State) (ft : FrameType) : (s.dequant ft).fieldCols = s.fieldCols := rfl

@[simp] theorem State.commitEnc_ieDone (s : State) (e : Encoded) : (s.commitEnc e).ieDone = s.ieDone := rfl
@[simp] theorem State.commitEnc_ieErr (s : State) (e : Encoded) : (s.commitEnc e).ieErr = s.ieErr := rfl
@[simp] theorem State.commitEnc_metric (s : State) (e : Encoded) : (s.commitEnc e).metric = s.metric := rfl
@[simp] theorem State.commitEnc_busy (s : State) (e : Encoded) : (s.commitEnc e).busy = s.busy := rfl
@[simp] theorem State.commitEnc_done (s : State) (e : Encoded) : (s.commitEnc e).done = s.done := rfl
@[simp] theorem State.commitEnc_err (s : State) (e : Encoded) : (s.commitEnc e).err = s.err := rfl
@[simp] theorem State.commitEnc_ovr (s : State) (e : Encoded) : (s.commitEnc e).ovr = s.ovr := rfl
@[simp] theorem State.commitEnc_steadyE (s : State) (e : Encoded) : (s.commitEnc e).steadyE = true := rfl
@[simp] theorem State.commitEnc_steadyD (s : State) (e : Encoded) : (s.commitEnc e).steadyD = s.steadyD := rfl
@[simp] theorem State.commitEnc_errcode (s : State) (e : Encoded) : (s.commitEnc e).errcode = s.errcode := rfl
@[simp] theorem State.commitEnc_cmd (s : State) (e : Encoded) : (s.commitEnc e).cmd = s.cmd := rfl
@[simp] theorem State.commitEnc_frameW (s : State) (e : Encoded) : (s.commitEnc e).frameW = s.frameW := rfl
@[simp] theorem State.commitEnc_frameH (s : State) (e : Encoded) : (s.commitEnc e).frameH = s.frameH := rfl
@[simp] theorem State.commitEnc_mbSize (s : State) (e : Encoded) : (s.commitEnc e).mbSize = s.mbSize := rfl
@[simp] theorem State.commitEnc_dbSize (s : State) (e : Encoded) : (s.commitEnc e).dbSize = s.dbSize := rfl
@[simp] theorem State.commitEnc_qscale (s : State) (e : Encoded) : (s.commitEnc e).qscale = s.qscale := rfl
@[simp] theorem State.commitEnc_searchR (s : State) (e : Encoded) : (s.commitEnc e).searchR = s.searchR := rfl
@[simp] theorem State.commitEnc_vlen (s : State) (e : Encoded) : (s.commitEnc e).vlen = s.vlen := rfl
@[simp] theorem State.commitEnc_tileW (s : State) (e : Encoded) : (s.commitEnc e).tileW = s.tileW := rfl
@[simp] theorem State.commitEnc_tileH (s : State) (e : Encoded) : (s.commitEnc e).tileH = s.tileH := rfl
@[simp] theorem State.commitEnc_meBx (s : State) (e : Encoded) : (s.commitEnc e).meBx = s.meBx := rfl
@[simp] theorem State.commitEnc_meBy (s : State) (e : Encoded) : (s.commitEnc e).meBy = s.meBy := rfl
@[simp] theorem State.commitEnc_meVec (s : State) (e : Encoded) : (s.commitEnc e).meVec = s.meVec := rfl
@[simp] theorem State.commitEnc_meCost (s : State) (e : Encoded) : (s.commitEnc e).meCost = s.meCost := rfl
@[simp] theorem State.commitEnc_encFtype (s : State) (e : Encoded) : (s.commitEnc e).encFtype = e.tag.tag := rfl
@[simp] theorem State.commitEnc_decFtype (s : State) (e : Encoded) : (s.commitEnc e).decFtype = s.decFtype := rfl
@[simp] theorem State.commitEnc_encFcnt (s : State) (e : Encoded) : (s.commitEnc e).encFcnt = s.encFcnt + 1#32 := rfl
@[simp] theorem State.commitEnc_decFcnt (s : State) (e : Encoded) : (s.commitEnc e).decFcnt = s.decFcnt := rfl
@[simp] theorem State.commitEnc_mem (s : State) (e : Encoded) : (s.commitEnc e).mem = (((s.mem.putCoefs e.coefs).putCodedField e.field).putPixels .recE e.recon).forget s.draw (.res, s.height, s.width) := rfl
@[simp] theorem State.commitEnc_runMetric (s : State) (e : Encoded) : (s.commitEnc e).runMetric = s.runMetric := rfl
@[simp] theorem State.commitEnc_wait (s : State) (e : Encoded) : (s.commitEnc e).wait = s.wait := rfl
@[simp] theorem State.commitEnc_draw (s : State) (e : Encoded) : (s.commitEnc e).draw = s.draw + 1 := rfl
@[simp] theorem State.commitEnc_host (s : State) (e : Encoded) : (s.commitEnc e).host = s.host := rfl
@[simp] theorem State.commitEnc_resp (s : State) (e : Encoded) : (s.commitEnc e).resp = s.resp := rfl
@[simp] theorem State.commitEnc_width (s : State) (e : Encoded) : (s.commitEnc e).width = s.width := rfl
@[simp] theorem State.commitEnc_height (s : State) (e : Encoded) : (s.commitEnc e).height = s.height := rfl
@[simp] theorem State.commitEnc_mb (s : State) (e : Encoded) : (s.commitEnc e).mb = s.mb := rfl
@[simp] theorem State.commitEnc_db (s : State) (e : Encoded) : (s.commitEnc e).db = s.db := rfl
@[simp] theorem State.commitEnc_scale (s : State) (e : Encoded) : (s.commitEnc e).scale = s.scale := rfl
@[simp] theorem State.commitEnc_radius (s : State) (e : Encoded) : (s.commitEnc e).radius = s.radius := rfl
@[simp] theorem State.commitEnc_len (s : State) (e : Encoded) : (s.commitEnc e).len = s.len := rfl
@[simp] theorem State.commitEnc_tw (s : State) (e : Encoded) : (s.commitEnc e).tw = s.tw := rfl
@[simp] theorem State.commitEnc_th (s : State) (e : Encoded) : (s.commitEnc e).th = s.th := rfl
@[simp] theorem State.commitEnc_bx (s : State) (e : Encoded) : (s.commitEnc e).bx = s.bx := rfl
@[simp] theorem State.commitEnc_blockY (s : State) (e : Encoded) : (s.commitEnc e).blockY = s.blockY := rfl
@[simp] theorem State.commitEnc_fieldRows (s : State) (e : Encoded) : (s.commitEnc e).fieldRows = s.fieldRows := rfl
@[simp] theorem State.commitEnc_fieldCols (s : State) (e : Encoded) : (s.commitEnc e).fieldCols = s.fieldCols := rfl

@[simp] theorem State.commitDec_ieDone (s : State) (r : Grid Byte) : (s.commitDec r).ieDone = s.ieDone := rfl
@[simp] theorem State.commitDec_ieErr (s : State) (r : Grid Byte) : (s.commitDec r).ieErr = s.ieErr := rfl
@[simp] theorem State.commitDec_metric (s : State) (r : Grid Byte) : (s.commitDec r).metric = s.metric := rfl
@[simp] theorem State.commitDec_busy (s : State) (r : Grid Byte) : (s.commitDec r).busy = s.busy := rfl
@[simp] theorem State.commitDec_done (s : State) (r : Grid Byte) : (s.commitDec r).done = s.done := rfl
@[simp] theorem State.commitDec_err (s : State) (r : Grid Byte) : (s.commitDec r).err = s.err := rfl
@[simp] theorem State.commitDec_ovr (s : State) (r : Grid Byte) : (s.commitDec r).ovr = s.ovr := rfl
@[simp] theorem State.commitDec_steadyE (s : State) (r : Grid Byte) : (s.commitDec r).steadyE = s.steadyE := rfl
@[simp] theorem State.commitDec_steadyD (s : State) (r : Grid Byte) : (s.commitDec r).steadyD = true := rfl
@[simp] theorem State.commitDec_errcode (s : State) (r : Grid Byte) : (s.commitDec r).errcode = s.errcode := rfl
@[simp] theorem State.commitDec_cmd (s : State) (r : Grid Byte) : (s.commitDec r).cmd = s.cmd := rfl
@[simp] theorem State.commitDec_frameW (s : State) (r : Grid Byte) : (s.commitDec r).frameW = s.frameW := rfl
@[simp] theorem State.commitDec_frameH (s : State) (r : Grid Byte) : (s.commitDec r).frameH = s.frameH := rfl
@[simp] theorem State.commitDec_mbSize (s : State) (r : Grid Byte) : (s.commitDec r).mbSize = s.mbSize := rfl
@[simp] theorem State.commitDec_dbSize (s : State) (r : Grid Byte) : (s.commitDec r).dbSize = s.dbSize := rfl
@[simp] theorem State.commitDec_qscale (s : State) (r : Grid Byte) : (s.commitDec r).qscale = s.qscale := rfl
@[simp] theorem State.commitDec_searchR (s : State) (r : Grid Byte) : (s.commitDec r).searchR = s.searchR := rfl
@[simp] theorem State.commitDec_vlen (s : State) (r : Grid Byte) : (s.commitDec r).vlen = s.vlen := rfl
@[simp] theorem State.commitDec_tileW (s : State) (r : Grid Byte) : (s.commitDec r).tileW = s.tileW := rfl
@[simp] theorem State.commitDec_tileH (s : State) (r : Grid Byte) : (s.commitDec r).tileH = s.tileH := rfl
@[simp] theorem State.commitDec_meBx (s : State) (r : Grid Byte) : (s.commitDec r).meBx = s.meBx := rfl
@[simp] theorem State.commitDec_meBy (s : State) (r : Grid Byte) : (s.commitDec r).meBy = s.meBy := rfl
@[simp] theorem State.commitDec_meVec (s : State) (r : Grid Byte) : (s.commitDec r).meVec = s.meVec := rfl
@[simp] theorem State.commitDec_meCost (s : State) (r : Grid Byte) : (s.commitDec r).meCost = s.meCost := rfl
@[simp] theorem State.commitDec_encFtype (s : State) (r : Grid Byte) : (s.commitDec r).encFtype = s.encFtype := rfl
@[simp] theorem State.commitDec_decFtype (s : State) (r : Grid Byte) : (s.commitDec r).decFtype = s.decFtype := rfl
@[simp] theorem State.commitDec_encFcnt (s : State) (r : Grid Byte) : (s.commitDec r).encFcnt = s.encFcnt := rfl
@[simp] theorem State.commitDec_decFcnt (s : State) (r : Grid Byte) : (s.commitDec r).decFcnt = s.decFcnt + 1#32 := rfl
@[simp] theorem State.commitDec_mem (s : State) (r : Grid Byte) : (s.commitDec r).mem = (s.mem.putPixels .recD r).forget s.draw (.res, s.height, s.width) := rfl
@[simp] theorem State.commitDec_runMetric (s : State) (r : Grid Byte) : (s.commitDec r).runMetric = s.runMetric := rfl
@[simp] theorem State.commitDec_wait (s : State) (r : Grid Byte) : (s.commitDec r).wait = s.wait := rfl
@[simp] theorem State.commitDec_draw (s : State) (r : Grid Byte) : (s.commitDec r).draw = s.draw + 1 := rfl
@[simp] theorem State.commitDec_host (s : State) (r : Grid Byte) : (s.commitDec r).host = s.host := rfl
@[simp] theorem State.commitDec_resp (s : State) (r : Grid Byte) : (s.commitDec r).resp = s.resp := rfl
@[simp] theorem State.commitDec_width (s : State) (r : Grid Byte) : (s.commitDec r).width = s.width := rfl
@[simp] theorem State.commitDec_height (s : State) (r : Grid Byte) : (s.commitDec r).height = s.height := rfl
@[simp] theorem State.commitDec_mb (s : State) (r : Grid Byte) : (s.commitDec r).mb = s.mb := rfl
@[simp] theorem State.commitDec_db (s : State) (r : Grid Byte) : (s.commitDec r).db = s.db := rfl
@[simp] theorem State.commitDec_scale (s : State) (r : Grid Byte) : (s.commitDec r).scale = s.scale := rfl
@[simp] theorem State.commitDec_radius (s : State) (r : Grid Byte) : (s.commitDec r).radius = s.radius := rfl
@[simp] theorem State.commitDec_len (s : State) (r : Grid Byte) : (s.commitDec r).len = s.len := rfl
@[simp] theorem State.commitDec_tw (s : State) (r : Grid Byte) : (s.commitDec r).tw = s.tw := rfl
@[simp] theorem State.commitDec_th (s : State) (r : Grid Byte) : (s.commitDec r).th = s.th := rfl
@[simp] theorem State.commitDec_bx (s : State) (r : Grid Byte) : (s.commitDec r).bx = s.bx := rfl
@[simp] theorem State.commitDec_blockY (s : State) (r : Grid Byte) : (s.commitDec r).blockY = s.blockY := rfl
@[simp] theorem State.commitDec_fieldRows (s : State) (r : Grid Byte) : (s.commitDec r).fieldRows = s.fieldRows := rfl
@[simp] theorem State.commitDec_fieldCols (s : State) (r : Grid Byte) : (s.commitDec r).fieldCols = s.fieldCols := rfl

end Sys2Proof.Machine
end

