-- ==== Sys2Proof/Laws/Ops.lean ====
section
/-! SUPPORT. What each shared operation can do, said once: the frame of a command (`finish`), its checks, the host's accesses, a
turn, and soft reset. -/

namespace Sys2Proof.Machine

/-! A command. -/

/-- The checks of each command. -/
def checkOf (i : Instr) (s : State) : Option ErrKind :=
  match i with
  | .nop | .rstenc | .rstdec => none
  | .fft | .ifft => s.checkFft
  | .dct1d | .idct1d => s.checkDct
  | .dct2d | .idct2d => s.checkDct2d
  | .bdct2d | .ibdct2d => s.checkBlocks
  | .meblk => s.checkMeblk
  | .memap | .dpcmencV | .dpcmdecV => s.checkField
  | .quantI | .quantP | .dequantI | .dequantP => s.qcheck
  | .dpcmencC | .dpcmdecC => s.checkRegion
  | .encfrm => s.scheck
  | .decfrm => s.checkDecfrm

/-- The effect of each command when every check passes. -/
def effectOf (i : Instr) (s : State) : State :=
  match i with
  | .nop => s
  | .fft => s.onVector (fft (Nat.log2 s.len))
  | .ifft => s.onVector (ifft (Nat.log2 s.len))
  | .dct1d => s.onVector (onReal dct1d)
  | .idct1d => s.onVector (onReal idct1d)
  | .dct2d => s.onCoefs (dct2d s.height s.width)
  | .idct2d => s.onCoefs (idct2d s.height s.width)
  | .bdct2d => s.onCoefs (bdct s.height s.width s.th s.tw)
  | .ibdct2d => s.onCoefs (ibdct s.height s.width s.th s.tw)
  | .meblk => { s with meVec := vecWord (vecOf s.searchBlock.1), meCost := BitVec.ofNat 32 s.searchBlock.2 }
  | .memap => { s with mem := s.mem.putField s.searchMap }
  | .quantI => s.quant .intra
  | .quantP => s.quant .predicted
  | .dequantI => s.dequant .intra
  | .dequantP => s.dequant .predicted
  | .dpcmencC => s.onCoefs encCoef
  | .dpcmdecC => s.onCoefs decCoef
  | .dpcmencV => s.onField encField
  | .dpcmdecV => s.onField decField
  | .encfrm => s.commitEnc s.encoded
  | .decfrm => s.commitDec s.decoded
  | .rstenc => s.freshEncoder
  | .rstdec => s.freshDecoder

/-- Every command is its checks, then its effect. -/
theorem exec_eq_finish (i : Instr) (s : State) : exec i s = finish (checkOf i s) (effectOf i) s := by
  cases i <;> rfl

theorem finish_some (e : ErrKind) (f : State → State) (s : State) : finish (some e) f s = .next (s.raise e) := rfl

theorem finish_none (f : State → State) (s : State) : finish none f s = .next (f s).complete := rfl

/-- What a command can do: end with an error and nothing else, or take its effect and complete. -/
theorem finish_cases {c : Option ErrKind} {f : State → State} {s t : State} (h : finish c f s = .next t) :
    (∃ e, c = some e ∧ t = s.raise e) ∨ (c = none ∧ t = (f s).complete) := by
  cases c with
  | none => simp only [finish, Host.Outcome.next.injEq] at h; exact .inr ⟨rfl, h.symm⟩
  | some e => simp only [finish, Host.Outcome.next.injEq] at h; exact .inl ⟨e, rfl, h.symm⟩

theorem exec_of_check_none {i : Instr} {s : State} (h : checkOf i s = none) :
    exec i s = .next (effectOf i s).complete := by rw [exec_eq_finish, h, finish_none]

theorem exec_of_check_some {i : Instr} {s : State} {e : ErrKind} (h : checkOf i s = some e) :
    exec i s = .next (s.raise e) := by rw [exec_eq_finish, h, finish_some]

/-! The checks. -/

theorem ispow2_two_pow (m : Nat) : ispow2 (2 ^ m) = true := by
  have h : 1 ≤ 2 ^ m := Nat.one_le_two_pow
  simp [ispow2, h, Nat.and_two_pow_sub_one_eq_mod]

theorem ispow2_iff (n : Nat) : ispow2 n = true ↔ ∃ m, n = 2 ^ m := by
  constructor
  · intro h
    simp only [ispow2, Bool.and_eq_true, decide_eq_true_eq, beq_iff_eq] at h
    obtain ⟨h1, h2⟩ := h
    refine ⟨Nat.log2 n, ?_⟩
    by_contra hne
    have hlo : 2 ^ Nat.log2 n ≤ n := Nat.log2_self_le (by omega)
    have hhi : n < 2 ^ (Nat.log2 n + 1) := Nat.lt_log2_self
    have hb : n.testBit (Nat.log2 n) = true := by
      rw [Nat.testBit_eq_decide_div_mod_eq]
      have : n / 2 ^ Nat.log2 n = 1 := by
        apply Nat.div_eq_of_lt_le <;> [omega; (rw [pow_succ] at hhi; omega)]
      simp [this]
    have hb' : (n - 1).testBit (Nat.log2 n) = true := by
      rw [Nat.testBit_eq_decide_div_mod_eq]
      have : (n - 1) / 2 ^ Nat.log2 n = 1 := by
        apply Nat.div_eq_of_lt_le <;> [omega; (rw [pow_succ] at hhi; omega)]
      simp [this]
    have := congrArg (fun k => Nat.testBit k (Nat.log2 n)) h2
    simp [hb, hb'] at this
  · rintro ⟨m, rfl⟩; exact ispow2_two_pow m

theorem badFrame_iff (s : State) : s.badFrame = false ↔ FrameOk s := by
  have h1 : Config.wmax = 512 := rfl
  have h2 : Config.hmax = 512 := rfl
  simp only [State.badFrame, FrameOk, Bool.or_eq_false_iff, decide_eq_false_iff_not]; omega

theorem badMb_iff (s : State) : s.badMb = false ↔ 1 ≤ s.mb ∧ s.mb ≤ 64 := by
  have h : Config.mbmax = 64 := rfl
  simp only [State.badMb, Bool.or_eq_false_iff, decide_eq_false_iff_not]; omega

theorem badDb_iff (s : State) : s.badDb = false ↔ 1 ≤ s.db ∧ s.db ≤ 32 := by
  have h : Config.dbmax = 32 := rfl
  simp only [State.badDb, Bool.or_eq_false_iff, decide_eq_false_iff_not]; omega

theorem notMultiple_iff (s : State) (b : Nat) : s.notMultiple b = false ↔ b ∣ s.width ∧ b ∣ s.height := by
  simp [State.notMultiple, Nat.dvd_iff_mod_eq_zero]

/-- A used weight as the byte it is stored in (R61). -/
theorem weight_elem (m : Memory) (v u : Nat) :
    m.elem .wmat v u = (m.byte .wmat (0x1000 + 4 * (32 * v + u))).toNat := by
  have h : ∀ k, 0 < k → k < 4 → Buf.holds .wmat (0x1000 + 4 * (32 * v + u) + k) = false := by
    intro k h1 h2
    simp [Buf.holds]; omega
  have hb : ∀ k, 0 < k → k < 4 → m.byte .wmat (0x1000 + 4 * (32 * v + u) + k) = 0#8 := by
    intro k h1 h2; simp [Memory.byte, h k h1 h2]
  have b1 := hb 1 (by omega) (by omega)
  have b2 := hb 2 (by omega) (by omega)
  have b3 := hb 3 (by omega) (by omega)
  simp [Memory.elem, Buf.elemSize, Buf.addr, Buf.base, Buf.stride, Config.dbmax, Memory.readLE, b1, b2, b3]

theorem zeroWeight_iff (s : State) :
    s.zeroWeight = false ↔ ∀ v < s.db, ∀ u < s.db, s.mem.byte .wmat (0x1000 + 4 * (32 * v + u)) ≠ 0#8 := by
  have key : ∀ v < s.db, ∀ u < s.db,
      (s.mem.elem .wmat v u == 0) = false ↔ s.mem.byte .wmat (0x1000 + 4 * (32 * v + u)) ≠ 0#8 := by
    intro v _ u _
    rw [weight_elem, beq_eq_false_iff_ne, ne_eq, ne_eq, ← BitVec.toNat_inj]; rfl
  simp only [State.zeroWeight, State.weights, Memory.region, List.any_eq_false, List.any_map, Function.comp_def,
    List.any_eq_true, List.mem_range, not_exists, not_and, Bool.not_eq_true]
  exact ⟨fun h v hv u hu => (key v hv u hu).1 (h v hv u hu), fun h v hv u hu => (key v hv u hu).2 (h v hv u hu)⟩

theorem qcheck_none_iff (s : State) : s.qcheck = none ↔ QuantOk s := by
  unfold State.qcheck QuantOk
  by_cases h1 : s.badFrame = true
  · have := (badFrame_iff s).not.1 (by simp [h1])
    simp [h1, this]
  rw [Bool.not_eq_true] at h1
  have f1 := (badFrame_iff s).1 h1
  by_cases h2 : s.badDb = true
  · simp only [h1, h2, if_true, Bool.false_eq_true, if_false, reduceCtorEq, false_iff]
    rintro ⟨-, -, ⟨k, hk, hd⟩, -⟩
    have h32 : (2 : Nat) ^ k ≤ 32 := by
      calc (2 : Nat) ^ k ≤ 2 ^ 5 := Nat.pow_le_pow_right (by omega) hk
        _ = 32 := by norm_num
    have h0 := Nat.one_le_two_pow (n := k)
    exact absurd ((badDb_iff s).2 ⟨by omega, by omega⟩) (by simp [h2])
  rw [Bool.not_eq_true] at h2
  have f2 := (badDb_iff s).1 h2
  have f3 := zeroWeight_iff s
  have f4 := notMultiple_iff s s.db
  by_cases h3 : s.scale = 0
  · simp [h1, h2, h3]
  by_cases h4 : s.zeroWeight = true
  · have := f3.not.1 (by simp [h4])
    simp only [h1, h2, h3, h4, if_true, Bool.false_eq_true, if_false, reduceCtorEq, false_iff]
    rintro ⟨-, -, -, -, -, h⟩; exact this h
  rw [Bool.not_eq_true] at h4
  by_cases h5 : s.notMultiple s.db = true
  · have := f4.not.1 (by simp [h5])
    simp only [h1, h2, h3, h4, h5, if_true, Bool.false_eq_true, if_false, reduceCtorEq, false_iff]
    rintro ⟨-, -, -, ha, hb, -⟩; exact this ⟨ha, hb⟩
  rw [Bool.not_eq_true] at h5
  by_cases h6 : ispow2 s.db = true
  · obtain ⟨m, hm⟩ := (ispow2_iff _).1 h6
    have hm5 : m ≤ 5 := by
      by_contra hc
      have : 2 ^ 6 ≤ 2 ^ m := Nat.pow_le_pow_right (by omega) (by omega)
      omega
    simp only [h1, h2, h3, h4, h5, h6, Bool.not_true, Bool.false_eq_true, if_false, true_iff]
    exact ⟨f1, by omega, ⟨m, hm5, hm⟩, (f4.1 h5).1, (f4.1 h5).2, f3.1 h4⟩
  · simp only [h1, h2, h3, h4, h5, h6, Bool.not_false, Bool.false_eq_true, if_true, if_false, reduceCtorEq, false_iff]
    rintro ⟨-, -, ⟨k, -, hk⟩, -⟩
    exact h6 ((ispow2_iff _).2 ⟨k, hk⟩)

theorem checkField_none_iff (s : State) : s.checkField = none ↔ FieldOk s := by
  unfold State.checkField FieldOk
  have f1 := badFrame_iff s; have f2 := badMb_iff s; have f3 := notMultiple_iff s s.mb
  by_cases h1 : s.badFrame = true <;> by_cases h2 : s.badMb = true <;> by_cases h3 : s.notMultiple s.mb = true <;>
    simp_all

theorem scheck_none_iff (s : State) : s.scheck = none ↔ SessionOk s := by
  have hq := qcheck_none_iff s
  have hf := checkField_none_iff s
  rw [SessionOk, ← hq, ← hf]
  unfold State.scheck State.qcheck State.checkField
  by_cases h1 : s.badFrame = true <;> by_cases h2 : s.badMb = true <;> by_cases h3 : s.badDb = true <;>
    by_cases h4 : s.scale = 0 <;> by_cases h5 : s.zeroWeight = true <;> by_cases h6 : s.notMultiple s.mb = true <;>
    by_cases h7 : s.notMultiple s.db = true <;> simp_all

/-- The session checks read the frame, block and quantizer registers and WMAT alone. -/
theorem scheck_congr {s t : State} (h1 : t.frameW = s.frameW) (h2 : t.frameH = s.frameH) (h3 : t.mbSize = s.mbSize)
    (h4 : t.dbSize = s.dbSize) (h5 : t.qscale = s.qscale) (h6 : t.mem.cells .wmat = s.mem.cells .wmat) :
    t.scheck = s.scheck := by
  have e1 : t.width = s.width := by simp [State.width, h1]
  have e2 : t.height = s.height := by simp [State.height, h2]
  have e3 : t.mb = s.mb := by simp [State.mb, h3]
  have e4 : t.db = s.db := by simp [State.db, h4]
  have e5 : t.scale = s.scale := by simp [State.scale, h5]
  have e6 : t.weights = s.weights := by rw [State.weights, State.weights, e4]; exact Memory.region_congr h6 _ _
  have c1 : t.badFrame = s.badFrame := by unfold State.badFrame; rw [e1, e2]
  have c2 : t.badMb = s.badMb := by unfold State.badMb; rw [e3]
  have c3 : t.badDb = s.badDb := by unfold State.badDb; rw [e4]
  have c4 : t.zeroWeight = s.zeroWeight := by unfold State.zeroWeight; rw [e6]
  have c5 : ∀ b, t.notMultiple b = s.notMultiple b := fun b => by unfold State.notMultiple; rw [e1, e2]
  unfold State.scheck
  rw [c1, c2, c3, c4, c5, c5, e3, e4, e5]

/-! The host's accesses. -/

theorem busRead_cases (s : State) (off : Offset) (size : Nat) :
    (admitted off.toNat size = false ∧ s.busRead off size = .next { s with resp := .busError }) ∨
    (admitted off.toNat size = true ∧ s.busy = true ∧ allowedBusy false off.toNat = false ∧
      s.busRead off size = .fault (.hazard off)) ∨
    (admitted off.toNat size = true ∧ (s.busy = false ∨ allowedBusy false off.toNat = true) ∧
      s.busRead off size = .next { s with resp := .data (s.busValue off.toNat size) }) := by
  unfold State.busRead
  cases h1 : admitted off.toNat size <;> cases h2 : s.busy <;> cases h3 : allowedBusy false off.toNat <;> simp

theorem busWrite_cases (s : State) (off : Offset) (size : Nat) (v : BitVec 64) :
    (admitted off.toNat size = false ∧ s.busWrite off size v = .next { s with resp := .busError }) ∨
    (admitted off.toNat size = true ∧ s.busy = true ∧ allowedBusy true off.toNat = false ∧
      s.busWrite off size v = .fault (.hazard off)) ∨
    (admitted off.toNat size = true ∧ (s.busy = false ∨ allowedBusy true off.toNat = true) ∧
      s.busWrite off size v = .next { s.busStore off.toNat size v with resp := .ack }) := by
  unfold State.busWrite
  cases h1 : admitted off.toNat size <;> cases h2 : s.busy <;> cases h3 : allowedBusy true off.toNat <;> simp

/-! A turn. -/

theorem step_eq_turn (s : State) : step s = turn s := rfl

theorem turn_idle {s : State} (h : s.busy = false) : turn s = hostTurn s := by simp [turn, h]

theorem turn_waiting {s : State} (h : s.busy = true) (hw : s.wait ≠ 0) :
    turn s = hostTurn { s with wait := s.wait - 1 } := by simp [turn, h, hw]

theorem turn_command {s : State} (h : s.busy = true) (hw : s.wait = 0) : turn s = runCommand s := by simp [turn, h, hw]

theorem runCommand_ok {s : State} {i : Instr} (h : decode s.cmd = .ok i) : runCommand s = exec i s := by
  simp [runCommand, h]

theorem runCommand_error {s : State} {r : Illegal} (h : decode s.cmd = .error r) :
    runCommand s = .next (s.raise .illegalCommand) := by simp [runCommand, h]

/-! Runs. -/

theorem runFor_zero (s : State) : runFor 0 s = .next s := rfl

theorem runFor_next {k : Nat} {s t : State} (h : step s = .next t) : runFor (k + 1) s = runFor k t := by
  have hs : Sys2Proof.core.step s = .next t := h
  exact (Host.Core.run.eq_2 Sys2Proof.core s k).trans (by rw [hs]; rfl)

theorem runFor_fault {k : Nat} {s : State} {f : Fault} (h : step s = .fault f) : runFor (k + 1) s = .fault f := by
  have hs : Sys2Proof.core.step s = .fault f := h
  exact (Host.Core.run.eq_2 Sys2Proof.core s k).trans (by rw [hs]; rfl)

/-! Soft reset. -/

theorem foldl_forget_cells (draw : Nat) {b : Buf} :
    ∀ (l : List (Buf × Nat × Nat)) (m : Memory), (∀ r ∈ l, r.1 ≠ b) →
      (l.foldl (fun m r => m.forget draw r) m).cells b = m.cells b := by
  intro l
  induction l with
  | nil => intros; rfl
  | cons r l ih =>
    intro m h
    rw [List.foldl_cons, ih _ fun r' h' => h r' (by simp [h']), Memory.cells_forget_other (h r (by simp))]

theorem foldl_forget_wf (draw : Nat) :
    ∀ (l : List (Buf × Nat × Nat)) {m : Memory}, m.wf → (l.foldl (fun m r => m.forget draw r) m).wf := by
  intro l
  induction l with
  | nil => intro m h; exact h
  | cons r l ih => intro m h; exact ih (Memory.forget_wf h _ _)

/-- An abort leaves every byte outside the outputs of the running command (R177). -/
theorem foldl_forget_byte (draw : Nat) (b : Buf) (off : Nat) :
    ∀ (l : List (Buf × Nat × Nat)) (m : Memory),
      (∀ r ∈ l, r.1 = b → ∀ y < r.2.1, ∀ x < r.2.2, off < b.addr y x ∨ b.addr y x + b.elemSize ≤ off) →
      (l.foldl (fun m r => m.forget draw r) m).byte b off = m.byte b off := by
  intro l
  induction l with
  | nil => intros; rfl
  | cons r l ih =>
    intro m h
    rw [List.foldl_cons, ih _ fun r' h' => h r' (by simp [h'])]
    by_cases hb : r.1 = b
    · subst hb
      have h' := h r (by simp) rfl
      exact Memory.byte_scramble_other m r.1 _ _ draw off fun y hy x hx => h' y (by omega) x (by omega)
    · simp [Memory.byte, Memory.cells_forget_other hb]

theorem abortMem_wf {s : State} (h : s.mem.wf) : s.abortMem.wf := by
  unfold State.abortMem; split
  · exact foldl_forget_wf _ _ h
  · exact h

theorem softReset_wf {s : State} (h : s.mem.wf) : s.softReset.mem.wf := by
  have hm : (if s.busy then s.abortMem else s.mem).wf := by split <;> [exact abortMem_wf h; exact h]
  rw [Memory.wf_iff] at hm ⊢
  intro b
  cases b <;> first | exact hm _ | exact ⟨List.Pairwise.nil, by intro c hc; cases hc⟩

end Sys2Proof.Machine
end

