-- ==== Sys2Proof/Laws/Kept.lean ====
section
/-! SUPPORT. What stays in memory: `KeptOutside` for each way a command writes, and how two writes compose. -/

namespace Sys2Proof.Machine

theorem KeptOutside.refl (m : Memory) (l : List (Buf × Nat × Nat)) : KeptOutside m m l := fun _ _ _ => rfl

/-- Two writes one after the other keep what both keep. -/
theorem KeptOutside.append {m m' m'' : Memory} {l l' : List (Buf × Nat × Nat)} (h : KeptOutside m m' l)
    (h' : KeptOutside m' m'' l') : KeptOutside m m'' (l ++ l') := fun b off hr =>
  (h' b off fun r hm => hr r (List.mem_append_right _ hm)).trans (h b off fun r hm => hr r (List.mem_append_left _ hm))

theorem KeptOutside.mono {m m' : Memory} {l l' : List (Buf × Nat × Nat)} (h : KeptOutside m m' l) (hs : ∀ r ∈ l, r ∈ l') :
    KeptOutside m m' l' := fun b off hr => h b off fun r hm => hr r (hs r hm)

/-- Storing rows keeps what is outside their region. -/
theorem Memory.kept_putRows (m : Memory) (b : Buf) {h w : Nat} {g : Grid Nat} (hg : Shaped h w g) :
    KeptOutside m (m.putRows b 0 g) [(b, h, w)] := by
  intro b' off hr
  by_cases hb : b = b'
  · subst hb
    have : ∀ y < h, ∀ x < w, off < b.addr y x ∨ b.addr y x + b.elemSize ≤ off := hr (b, h, w) (by simp) rfl
    exact Memory.byte_putRows_other b w g 0 m off (fun r hm => (hg.2 r hm).le)
      fun y _ hy x hx => this y (by have := hg.1; omega) x hx
  · simp [Memory.byte, Memory.cells_putRows_other hb]

theorem Memory.kept_putCoefs (m : Memory) {h w : Nat} {g : Grid F64} (hg : Shaped h w g) :
    KeptOutside m (m.putCoefs g) [(.coef, h, w)] := Memory.kept_putRows m .coef (shaped_map _ hg)

theorem Memory.kept_putField (m : Memory) {h w : Nat} {g : Grid Vec} (hg : Shaped h w g) :
    KeptOutside m (m.putField g) [(.mv, h, w)] := Memory.kept_putRows m .mv (shaped_map _ hg)

theorem Memory.kept_putResiduals (m : Memory) {h w : Nat} {g : Grid Int} (hg : Shaped h w g) :
    KeptOutside m (m.putResiduals g) [(.res, h, w)] := Memory.kept_putRows m .res (shaped_map _ hg)

theorem Memory.kept_putPixels (m : Memory) (b : Buf) {h w : Nat} {g : Grid Byte} (hg : Shaped h w g) :
    KeptOutside m (m.putPixels b g) [(b, h, w)] := Memory.kept_putRows m b (shaped_map _ hg)

theorem Memory.kept_putVector (m : Memory) {n : Nat} {v : List Cplx} (hv : v.length = n) :
    KeptOutside m (m.putVector v) [(.vbuf, 1, 2 * n)] := by
  intro b off hr
  have hl : (v.flatMap fun c => [c.re.toNat, c.im.toNat]).length = 2 * n := by
    simp [List.length_flatMap, hv]; omega
  by_cases hb : Buf.vbuf = b
  · subst hb
    have : ∀ x < 2 * n, off < Buf.vbuf.addr 0 x ∨ Buf.vbuf.addr 0 x + Buf.vbuf.elemSize ≤ off :=
      hr (.vbuf, 1, 2 * n) (by simp) rfl 0 (by simp)
    exact Memory.byte_putRow_other .vbuf 0 _ 0 m off fun x _ hx => this x (by omega)
  · exact congrArg (fun c => if b.holds off then Cells.read (b.initial off) c off else 0#8) (Memory.cells_putRow_other hb _ _ _ m)

theorem Memory.kept_forget (m : Memory) (draw : Nat) (b : Buf) (h w : Nat) :
    KeptOutside m (m.forget draw (b, h, w)) [(b, h, w)] := by
  intro b' off hr
  by_cases hb : b = b'
  · subst hb
    have : ∀ y < h, ∀ x < w, off < b.addr y x ∨ b.addr y x + b.elemSize ≤ off := hr (b, h, w) (by simp) rfl
    exact Memory.byte_scramble_other m b _ _ draw off fun y hy x hx =>
      this y (lt_of_lt_of_le hy (Nat.min_le_left _ _)) x (lt_of_lt_of_le hx (Nat.min_le_left _ _))
  · simp [Memory.byte, Memory.cells_forget_other (r := (b, h, w)) hb]

end Sys2Proof.Machine
end

