-- ==== Sys2Proof/Laws/PerInstr.lean ====
section
/-! SUPPORT. The statements made of every command as syntax, one lemma a command. -/

namespace Sys2Proof.Laws

/-- A command's three fields pass the checks of R77, R79 and R80, and its word holds exactly these fields. -/
def EncodeWellFormed.Statement (i : Instr) : Prop :=
  i.wellFormed = true ∧ splitWord (encode i) = i.fields

theorem EncodeWellFormed.nop : EncodeWellFormed.Statement .nop := ⟨rfl, rfl⟩
theorem EncodeWellFormed.fft : EncodeWellFormed.Statement .fft := ⟨rfl, rfl⟩
theorem EncodeWellFormed.ifft : EncodeWellFormed.Statement .ifft := ⟨rfl, rfl⟩
theorem EncodeWellFormed.dct1d : EncodeWellFormed.Statement .dct1d := ⟨rfl, rfl⟩
theorem EncodeWellFormed.idct1d : EncodeWellFormed.Statement .idct1d := ⟨rfl, rfl⟩
theorem EncodeWellFormed.dct2d : EncodeWellFormed.Statement .dct2d := ⟨rfl, rfl⟩
theorem EncodeWellFormed.idct2d : EncodeWellFormed.Statement .idct2d := ⟨rfl, rfl⟩
theorem EncodeWellFormed.bdct2d : EncodeWellFormed.Statement .bdct2d := ⟨rfl, rfl⟩
theorem EncodeWellFormed.ibdct2d : EncodeWellFormed.Statement .ibdct2d := ⟨rfl, rfl⟩
theorem EncodeWellFormed.meblk : EncodeWellFormed.Statement .meblk := ⟨rfl, rfl⟩
theorem EncodeWellFormed.memap : EncodeWellFormed.Statement .memap := ⟨rfl, rfl⟩
theorem EncodeWellFormed.quantI : EncodeWellFormed.Statement .quantI := ⟨rfl, rfl⟩
theorem EncodeWellFormed.quantP : EncodeWellFormed.Statement .quantP := ⟨rfl, rfl⟩
theorem EncodeWellFormed.dequantI : EncodeWellFormed.Statement .dequantI := ⟨rfl, rfl⟩
theorem EncodeWellFormed.dequantP : EncodeWellFormed.Statement .dequantP := ⟨rfl, rfl⟩
theorem EncodeWellFormed.dpcmencC : EncodeWellFormed.Statement .dpcmencC := ⟨rfl, rfl⟩
theorem EncodeWellFormed.dpcmdecC : EncodeWellFormed.Statement .dpcmdecC := ⟨rfl, rfl⟩
theorem EncodeWellFormed.dpcmencV : EncodeWellFormed.Statement .dpcmencV := ⟨rfl, rfl⟩
theorem EncodeWellFormed.dpcmdecV : EncodeWellFormed.Statement .dpcmdecV := ⟨rfl, rfl⟩
theorem EncodeWellFormed.encfrm : EncodeWellFormed.Statement .encfrm := ⟨rfl, rfl⟩
theorem EncodeWellFormed.decfrm : EncodeWellFormed.Statement .decfrm := ⟨rfl, rfl⟩
theorem EncodeWellFormed.rstenc : EncodeWellFormed.Statement .rstenc := ⟨rfl, rfl⟩
theorem EncodeWellFormed.rstdec : EncodeWellFormed.Statement .rstdec := ⟨rfl, rfl⟩

end Sys2Proof.Laws
end

