-- ==== Sys2Proof/Tests/Slice0.lean ====
section
/-! SUPPORT. Tests of the definitions against the words of spec/30_encoding.md R78 and the vectors of spec/95_test_vectors.md, and
for each statement with hypotheses a state and operands that meet them. -/

-- One test at a time: each kernel evaluation otherwise holds a thread of its own.
set_option Elab.async false

namespace Sys2Proof.Tests

open Sys2Proof Sys2Proof.Machine

/-! The checks of a command word, each with a term it refuses. -/

/-- Bit 9 is set (R80 a). -/
theorem test_wellFormed_refuses_reserved_bit : CmdFields.wellFormed ⟨0x20#8, 0#1, 1#23⟩ = false := by decide

/-- FT on FFT (R80 c). -/
theorem test_wellFormed_refuses_ft : CmdFields.wellFormed ⟨0x01#8, 1#1, 0#23⟩ = false := by decide

/-- OP 0x09 is not listed (R80 b). -/
theorem test_wellFormed_refuses_op : CmdFields.wellFormed ⟨0x09#8, 0#1, 0#23⟩ = false := by decide

theorem test_wellFormed_accepts : CmdFields.wellFormed ⟨0x21#8, 1#1, 0#23⟩ = true := by decide

/-! Words written out bit by bit from R77 and R78. -/

theorem test_decode_system : decode 0b00000000000000000000000_0_00000000#32 = .ok .nop := by decide

theorem test_decode_transform :
    decode 0b00000000000000000000000_0_00000001#32 = .ok .fft ∧ decode 0b00000000000000000000000_0_00000010#32 = .ok .ifft ∧
    decode 0b00000000000000000000000_0_00000011#32 = .ok .dct1d ∧ decode 0b00000000000000000000000_0_00000100#32 = .ok .idct1d ∧
    decode 0b00000000000000000000000_0_00000101#32 = .ok .dct2d ∧ decode 0b00000000000000000000000_0_00000110#32 = .ok .idct2d ∧
    decode 0b00000000000000000000000_0_00000111#32 = .ok .bdct2d ∧
    decode 0b00000000000000000000000_0_00001000#32 = .ok .ibdct2d := by decide

theorem test_decode_motion :
    decode 0b00000000000000000000000_0_00010000#32 = .ok .meblk ∧
    decode 0b00000000000000000000000_0_00010001#32 = .ok .memap := by decide

theorem test_decode_quantizer :
    decode 0b00000000000000000000000_0_00100000#32 = .ok .quantI ∧ decode 0b00000000000000000000000_1_00100000#32 = .ok .quantP ∧
    decode 0b00000000000000000000000_0_00100001#32 = .ok .dequantI ∧
    decode 0b00000000000000000000000_1_00100001#32 = .ok .dequantP := by decide

theorem test_decode_dpcm :
    decode 0b00000000000000000000000_0_00110000#32 = .ok .dpcmencC ∧
    decode 0b00000000000000000000000_0_00110001#32 = .ok .dpcmdecC ∧
    decode 0b00000000000000000000000_0_00110010#32 = .ok .dpcmencV ∧
    decode 0b00000000000000000000000_0_00110011#32 = .ok .dpcmdecV := by decide

theorem test_decode_pipeline :
    decode 0b00000000000000000000000_0_01000000#32 = .ok .encfrm ∧ decode 0b00000000000000000000000_0_01000001#32 = .ok .decfrm ∧
    decode 0b00000000000000000000000_0_01000010#32 = .ok .rstenc ∧
    decode 0b00000000000000000000000_0_01000011#32 = .ok .rstdec := by decide

/-- V-SYS-3, and the first unlisted OP above the last listed one. -/
theorem test_decode_refuses :
    decode 0x00000101#32 = .error .frameTypeBit ∧ decode 0x00000220#32 = .error .reservedBits ∧
    decode 0x80000000#32 = .error .reservedBits ∧ decode 0x000000FF#32 = .error .unlistedOp ∧
    decode 0x00000044#32 = .error .unlistedOp := by decide

/-! States. -/

/-- The state after a command, or the state itself where it stops. -/
def after (i : Instr) (s : State) : State := (nextOf (exec i s)).getD s

/-- After reset with a frame size, motion blocks and transform blocks. -/
def framed (w h mb db : Nat) : State :=
  { State.reset with
    frameW := BitVec.ofNat 16 w, frameH := BitVec.ofNat 16 h, mbSize := BitVec.ofNat 16 mb, dbSize := BitVec.ofNat 16 db }

def withVector (s : State) (v : List (F64 × F64)) : State :=
  { s with vlen := BitVec.ofNat 16 v.length, mem := s.mem.putVector (v.map fun p => ⟨p.1, p.2⟩) }

def withCoefs (s : State) (g : Grid F64) : State := { s with mem := s.mem.putCoefs g }

def withPixels (s : State) (b : Buf) (g : Grid Nat) : State := { s with mem := s.mem.putRows b 0 g }

def withResiduals (s : State) (g : Grid Int) : State := { s with mem := s.mem.putResiduals g }

/-- A frame and its shift by one pixel (V-ME-2). -/
def frameA : Grid Nat := [[10, 20, 30, 40], [50, 60, 70, 80], [90, 100, 110, 120], [130, 140, 150, 160]]
def frameB : Grid Nat := [[10, 10, 20, 30], [50, 50, 60, 70], [90, 90, 100, 110], [130, 130, 140, 150]]

def searchState : State := withPixels (withPixels (framed 4 4 2 8) .recE frameA) .fin frameB

/-- V-Q-8: scale 2, weights 16, 32, 32, 64. -/
def quantState : State :=
  { framed 2 2 8 2 with
    qscale := 2#16
    mem := ((Memory.reset.setElem .wmat 0 1 32).setElem .wmat 1 0 32).setElem .wmat 1 1 64 }

/-! Vectors. -/

/-- V-SYS-1. -/
theorem test_nop : (after .nop (State.reset.withCommand 0#32)).statusWord = 2#32 := by decide

/-- V-FFT-3. -/
theorem test_fft :
    (after .fft (withVector .reset [(0x3FF0000000000000#64, 0#64), (0x4000000000000000#64, 0#64),
      (0x4008000000000000#64, 0#64), (0x4010000000000000#64, 0#64)])).vector 4 =
    [⟨0x4024000000000000#64, 0#64⟩, ⟨0xC000000000000000#64, 0x4000000000000000#64⟩, ⟨0xC000000000000000#64, 0#64⟩,
      ⟨0xC000000000000000#64, 0xC000000000000000#64⟩] := by decide +kernel

/-- V-FFT-4: an impulse at entry 1. -/
theorem test_fft_impulse :
    (after .fft (withVector .reset ([(0#64, 0#64), (0x3FF0000000000000#64, 0#64)] ++
      List.replicate 6 (0#64, 0#64)))).vector 8 =
    [⟨0x3FF0000000000000#64, 0#64⟩, ⟨0x3FE6A09E667F3BCD#64, 0xBFE6A09E667F3BCD#64⟩, ⟨0#64, 0xBFF0000000000000#64⟩,
      ⟨0xBFE6A09E667F3BCD#64, 0xBFE6A09E667F3BCD#64⟩, ⟨0xBFF0000000000000#64, 0#64⟩,
      ⟨0xBFE6A09E667F3BCD#64, 0x3FE6A09E667F3BCD#64⟩, ⟨0#64, 0x3FF0000000000000#64⟩,
      ⟨0x3FE6A09E667F3BCD#64, 0x3FE6A09E667F3BCD#64⟩] := by decide +kernel

/-- V-IFFT-1: the signs of the zero imaginary parts. -/
theorem test_ifft :
    (after .ifft (withVector .reset [(0x4024000000000000#64, 0#64), (0xC000000000000000#64, 0x4000000000000000#64),
      (0xC000000000000000#64, 0#64), (0xC000000000000000#64, 0xC000000000000000#64)])).vector 4 =
    [⟨0x3FF0000000000000#64, 0x8000000000000000#64⟩, ⟨0x4000000000000000#64, 0x8000000000000000#64⟩,
      ⟨0x4008000000000000#64, 0#64⟩, ⟨0x4010000000000000#64, 0x8000000000000000#64⟩] := by decide +kernel

/-- V-DCT-4: the signs (-1)^k. -/
theorem test_dct1d :
    ((after .dct1d (withVector .reset [(0x3FF0000000000000#64, 0#64), (0x4000000000000000#64, 0#64),
      (0x4008000000000000#64, 0#64), (0x4010000000000000#64, 0#64)])).vector 4).map (fun c => c.re) =
    [0x4034000000000000#64, 0x40193C0D303BBF21#64, 0#64, 0x3FDCB1A0AB4DC33C#64] := by decide +kernel

/-- V-DCT-1 and V-DCT-5: the imaginary part is not read; the sign of zero. -/
theorem test_dct1d_corners :
    (after .dct1d (withVector .reset [(0x4014000000000000#64, 0x401C000000000000#64)])).vector 1 =
      [⟨0x4024000000000000#64, 0#64⟩] ∧
    (after .dct1d (withVector .reset [(0x8000000000000000#64, 0#64), (0x8000000000000000#64, 0#64)])).vector 2 =
      [⟨0x8000000000000000#64, 0#64⟩, ⟨0#64, 0#64⟩] := by decide +kernel

/-- V-DCT-2: one ulp below 1. -/
theorem test_idct1d :
    (after .idct1d (withVector .reset [(0x4018000000000000#64, 0#64), (0x3FF6A09E667F3BCD#64, 0#64)])).vector 2 =
      [⟨0x3FEFFFFFFFFFFFFF#64, 0#64⟩, ⟨0x4000000000000000#64, 0#64⟩] := by decide +kernel

/-- V-DCT2D-1. -/
theorem test_dct2d :
    (after .dct2d (withCoefs (framed 2 2 8 8) [[0x3FF0000000000000#64, 0x4000000000000000#64],
      [0x4008000000000000#64, 0x4010000000000000#64]])).coefs =
    [[0x4044000000000000#64, 0x4016A09E667F3BCD#64], [0x4026A09E667F3BCD#64, 0#64]] := by decide +kernel

/-- V-DCT2D-1, inverse. -/
theorem test_idct2d :
    (after .idct2d (withCoefs (framed 2 2 8 8) [[0x4044000000000000#64, 0x4016A09E667F3BCD#64],
      [0x4026A09E667F3BCD#64, 0#64]])).coefs =
    [[0x3FEFFFFFFFFFFFFE#64, 0x3FFFFFFFFFFFFFFF#64], [0x4008000000000000#64, 0x4010000000000000#64]] := by decide +kernel

/-- V-BDCT-2: tiles of width 4 and height 2. -/
theorem test_bdct2d :
    (after .bdct2d { withCoefs (framed 4 4 8 8)
      [[0x3FF0000000000000#64, 0x4000000000000000#64, 0x4014000000000000#64, 0x4018000000000000#64],
       [0x4008000000000000#64, 0x4010000000000000#64, 0x401C000000000000#64, 0x4020000000000000#64],
       [0x4022000000000000#64, 0x4024000000000000#64, 0x402A000000000000#64, 0x402C000000000000#64],
       [0x4026000000000000#64, 0x4028000000000000#64, 0x402E000000000000#64, 0x4030000000000000#64]] with
      tileW := 4#16, tileH := 2#16 }).coefs =
    [[0x4062000000000000#64, 0x404711DDE0C0580E#64, 0#64, 0xC01B768CCCE3005D#64], [0x4036A09E667F3BCD#64, 0#64, 0#64, 0#64],
     [0x4079000000000000#64, 0x404711DDE0C0580E#64, 0#64, 0xC01B768CCCE3005D#64],
     [0x4036A09E667F3BCD#64, 0#64, 0#64, 0#64]] := by decide +kernel

/-- V-BDCT-3: unit tiles divide every element by 4. -/
theorem test_ibdct2d :
    (after .ibdct2d { withCoefs (framed 2 1 8 8) [[0x4020000000000000#64, 0x4010000000000000#64]] with
      tileW := 1#16, tileH := 1#16 }).coefs = [[0x4000000000000000#64, 0x3FF0000000000000#64]] := by decide +kernel

/-- V-ME-2: the shift is found; and V-ME-5, block (0, 0) alone. -/
theorem test_meblk :
    ((after .meblk { searchState with meBx := 2#16 }).meVec, (after .meblk { searchState with meBx := 2#16 }).meCost) =
      (1#32, 0#32) ∧
    ((after .meblk searchState).meVec, (after .meblk searchState).meCost) = (0#32, 20#32) := by decide +kernel

/-- V-ME-3: ties keep the first candidate; SSD. -/
theorem test_meblk_ties :
    let s := withPixels (withPixels (framed 4 4 2 8) .recE (List.replicate 4 (List.replicate 4 50))) .fin
      (List.replicate 4 (List.replicate 4 60))
    ((after .meblk s).meVec, (after .meblk s).meCost) = (0xFFFEFFFE#32, 40#32) ∧
    (after .meblk { s with runMetric := true }).meCost = 400#32 := by decide +kernel

/-- V-ME-5. -/
theorem test_memap :
    (after .memap searchState).field = [[⟨0#16, 0#16⟩, ⟨1#16, 0#16⟩], [⟨0#16, 0#16⟩, ⟨1#16, 0#16⟩]] := by decide +kernel

/-- V-Q-8. -/
theorem test_quantI :
    (after .quantI (withResiduals quantState [[10, 20], [30, 40]])).coefs =
      [[0x4059000000000000#64, 0x401C000000000000#64], [0x402C000000000000#64, 0#64]] := by decide +kernel

/-- V-Q-2: half a level rounds up, to +0.0. -/
theorem test_quantI_negative_half :
    (after .quantI (withResiduals (framed 1 1 8 1) [[-1]])).coefs = [[0#64]] := by decide +kernel

/-- V-Q-8, and V-Q-4. -/
theorem test_quantP :
    (after .quantP (withResiduals quantState [[10, 20], [30, 40]])).coefs =
      [[0x4059000000000000#64, 0x401C000000000000#64], [0x402C000000000000#64, 0#64]] ∧
    (after .quantP (withResiduals (framed 1 1 8 1) [[1]])).coefs = [[0#64]] := by decide +kernel

/-- V-DQ-12. -/
theorem test_dequantI :
    (after .dequantI (withCoefs quantState [[0x4059000000000000#64, 0x401C000000000000#64],
      [0x402C000000000000#64, 0#64]])).residuals = [[10, 20], [30, 40]] := by decide +kernel

/-- V-DQ-5 and V-DQ-3: the clamp. -/
theorem test_dequantI_clamp :
    (after .dequantI (withCoefs (framed 1 1 8 1) [[0x4060000000000000#64]])).residuals = [[255]] ∧
    (after .dequantI (withCoefs (framed 1 1 8 1) [[0xBFF0000000000000#64]])).residuals = [[0]] := by decide +kernel

/-- V-DQ-12 and V-DQ-9. -/
theorem test_dequantP :
    (after .dequantP (withCoefs quantState [[0x4059000000000000#64, 0x401C000000000000#64],
      [0x402C000000000000#64, 0#64]])).residuals = [[10, 20], [30, 41]] ∧
    (after .dequantP (withCoefs (framed 1 1 8 1) [[0xBFF0000000000000#64]])).residuals = [[-3]] := by decide +kernel

/-- V-DPCM-1, row 0, and V-DPCM-5. -/
theorem test_dpcmencC :
    (after .dpcmencC (withCoefs (framed 4 1 8 8) [[0x4008000000000000#64, 0x4014000000000000#64, 0x4010000000000000#64,
      0x4010000000000000#64]])).coefs =
      [[0x4008000000000000#64, 0x4000000000000000#64, 0xBFF0000000000000#64, 0#64]] ∧
    (after .dpcmencC (withCoefs (framed 2 1 8 8) [[0x4341C37937E08000#64, 0x3FF0000000000000#64]])).coefs =
      [[0x4341C37937E08000#64, 0xC341C37937E08000#64]] := by decide +kernel

/-- V-DPCM-2, row 0, and V-DPCM-6. -/
theorem test_dpcmdecC :
    (after .dpcmdecC (withCoefs (framed 4 1 8 8) [[0x4008000000000000#64, 0x4000000000000000#64, 0xBFF0000000000000#64,
      0#64]])).coefs =
      [[0x4008000000000000#64, 0x4014000000000000#64, 0x4010000000000000#64, 0x4010000000000000#64]] ∧
    (after .dpcmdecC (withCoefs (framed 2 1 8 8) [[0x8000000000000000#64, 0x3FF0000000000000#64]])).coefs =
      [[0#64, 0x3FF0000000000000#64]] := by decide +kernel

/-- V-DPCM-3: differences modulo 2^16. -/
theorem test_dpcmencV :
    (after .dpcmencV { framed 3 1 1 8 with
      mem := Memory.reset.putField [[⟨0x7FFF#16, 0#16⟩, ⟨0x8000#16, 0#16⟩, ⟨3#16, 0xFFFE#16⟩]] }).field =
    [[⟨0x7FFF#16, 0#16⟩, ⟨1#16, 0#16⟩, ⟨0x8003#16, 0xFFFE#16⟩]] := by decide +kernel

/-- V-DPCM-4. -/
theorem test_dpcmdecV :
    (after .dpcmdecV { framed 3 1 1 8 with
      mem := Memory.reset.putField [[⟨0x7FFF#16, 0#16⟩, ⟨1#16, 0#16⟩, ⟨0x8003#16, 0xFFFE#16⟩]] }).field =
    [[⟨0x7FFF#16, 0#16⟩, ⟨0x8000#16, 0#16⟩, ⟨3#16, 0xFFFE#16⟩]] := by decide +kernel

/-- V-PIPE-1: level 128, reconstruction 256 clamped to 255. -/
theorem test_encfrm_intra :
    let t := after .encfrm (State.withCommand (withPixels (framed 1 1 1 1) .fin [[255]]) 0x40#32)
    t.coefs = [[0x4060000000000000#64]] ∧ t.pixels .recE = [[255#8]] ∧ t.statusWord = 0x12#32 ∧ t.encFcnt = 1#32 := by
  decide +kernel

/-- P2, frame 2, with frame 1 reconstructed exactly. -/
theorem test_encfrm_predicted :
    let s := withPixels (withPixels (framed 4 4 2 2) .recE frameA) .fin frameB
    let t := after .encfrm { s with steadyE := true }
    t.encFtype = 1#2 ∧ t.field = [[⟨0#16, 0#16⟩, ⟨1#16, 0#16⟩], [⟨0#16, 0#16⟩, ⟨1#16, 0#16⟩]] ∧
    t.pixels .recE =
      [[11#8, 10#8, 20#8, 30#8], [51#8, 50#8, 60#8, 70#8], [91#8, 90#8, 100#8, 110#8], [131#8, 130#8, 140#8, 150#8]] := by
  decide +kernel

/-- P4: level 50 decodes to 100. -/
theorem test_decfrm_intra :
    let t := after .decfrm (State.withCommand (withCoefs (framed 1 1 1 1) [[0x4049000000000000#64]]) 0x41#32)
    t.pixels .recD = [[100#8]] ∧ t.statusWord = 0x22#32 ∧ t.decFcnt = 1#32 := by decide +kernel

/-- P4 and V-ERR-5: the errors in their order. -/
theorem test_decfrm_errors :
    (after .decfrm { (framed 1 1 1 1).withCommand 0x41#32 with decFtype := 2#2 }).statusWord = 0x404#32 ∧
    (after .decfrm { (framed 1 1 1 1).withCommand 0x41#32 with decFtype := 1#2 }).statusWord = 0x304#32 ∧
    (after .decfrm { (framed 4 4 2 2).withCommand 0x41#32 with
      decFtype := 1#2, steadyD := true, mem := Memory.reset.putField [[⟨1#16, 0#16⟩]] }).statusWord = 0x424#32 := by
  decide +kernel

/-- V-PIPE-3. -/
theorem test_rstenc :
    let t := after .rstenc { framed 1 1 1 1 with steadyE := true, steadyD := true, encFcnt := 7#32 }
    t.statusWord = 0x22#32 ∧ t.encFcnt = 0#32 := by decide

theorem test_rstdec :
    let t := after .rstdec { framed 1 1 1 1 with steadyE := true, steadyD := true, decFcnt := 7#32 }
    t.statusWord = 0x12#32 ∧ t.decFcnt = 0#32 := by decide

/-- V-SYS-2: an unlisted OP, and V-SYS-5, the acknowledgement keeps ERRCODE. -/
theorem test_illegal_word :
    let t := (nextOf (step (State.reset.withCommand 9#32))).getD .reset
    t.statusWord = 0x604#32 ∧ t.cmd = 9#32 ∧ (t.ackStatus 4#32).statusWord = 0x600#32 := by decide

/-- V-SYS-7 and V-MEM-4. -/
theorem test_registers :
    (nextOf (State.reset.busWrite 0x004#24 4 0xFFFFFFFE#64)).map (fun t => t.ctrlWord) = some 0xE#32 ∧
    (nextOf (State.reset.busWrite 0x1004#24 4 0x1FF#64)).map (fun t => t.mem.elem .wmat 0 1) = some 0xFF ∧
    (nextOf (State.reset.busRead 0x400002#24 4)).map (fun t => t.resp) = some .busError := by decide +kernel

/-- V-MEM-1: byte order. -/
theorem test_byte_order :
    (nextOf (State.reset.busWrite 0x400000#24 8 0x3FF0000000000000#64)).map
      (fun t => (t.busValue 0x400000 4, t.busValue 0x400004 4, t.busValue 0x400007 1)) =
    some (0#64, 0x3FF00000#64, 0x3F#64) := by decide +kernel

/-- V-RND-1: ties, the largest value below one half, and -1e-300. -/
theorem test_round :
    [0x3FE0000000000000#64, 0xBFE0000000000000#64, 0xBFF8000000000000#64, 0x4004000000000000#64, 0x3FDFFFFFFFFFFFFF#64,
      0x81A56E1FC2F8F359#64, 0x432FFFFFFFFFFFFF#64].map fround =
    [0x3FF0000000000000#64, 0#64, 0xBFF0000000000000#64, 0x4008000000000000#64, 0#64, 0#64, 0x4330000000000000#64] := by
  decide +kernel

/-- Rounding to nearest, ties to even (R9): 2^53 + 1 and 2^53 + 3; and overflow. -/
theorem test_ties_to_even :
    fadd 0x4340000000000000#64 0x3FF0000000000000#64 = 0x4340000000000000#64 ∧
    fadd 0x4340000000000000#64 0x4008000000000000#64 = 0x4340000000000002#64 ∧
    fadd 0x7FEFFFFFFFFFFFFF#64 0x7FEFFFFFFFFFFFFF#64 = 0x7FF0000000000000#64 := by decide +kernel

/-! For each statement with hypotheses: a state and operands that meet them, clause by clause, at the ends of their ranges. -/

theorem no_power {n : Nat} (h : ispow2 n = false) : ∀ m, n ≠ 2 ^ m := fun m e => by
  rw [(ispow2_iff n).2 ⟨m, e⟩] at h; cases h

theorem frameOk_of {s : State} (h : s.badFrame = false) : FrameOk s := (badFrame_iff s).1 h

theorem not_frameOk_of {s : State} (h : s.badFrame = true) : ¬FrameOk s := fun f => by
  rw [(badFrame_iff s).2 f] at h; cases h

theorem fieldOk_of {s : State} (h : s.checkField = none) : FieldOk s := (checkField_none_iff s).1 h

theorem quantOk_of {s : State} (h : s.qcheck = none) : QuantOk s := (qcheck_none_iff s).1 h

theorem sessionOk_of {s : State} (h : s.scheck = none) : SessionOk s := (scheck_none_iff s).1 h

/-- The largest frame with the largest blocks. -/
def largest : State := framed 512 512 64 32

theorem largest_session : SessionOk largest := sessionOk_of (by decide +kernel)

theorem smallest_session : SessionOk (framed 1 1 1 1) := sessionOk_of (by decide)

/-- An intact configuration with a Steady encoder and a Steady decoder. -/
def steady : State := { framed 4 4 2 2 with steadyE := true, steadyD := true }

theorem steady_session : SessionOk steady := sessionOk_of (by decide)

/-- A command running, with one turn of the host left, which it uses so. -/
def running (op : HostOp) : State := { State.reset.withCommand 0#32 with wait := 1, host := [op] }

theorem witness_EveryOtherWordIsIllegal :
    (∃ i, decode 0x43#32 = .ok i) ∧
    (0x44#32 : Word).toNat ∉ [0x000, 0x001, 0x002, 0x003, 0x004, 0x005, 0x006, 0x007, 0x008, 0x010, 0x011, 0x020, 0x120, 0x021,
      0x121, 0x030, 0x031, 0x032, 0x033, 0x040, 0x041, 0x042, 0x043] ∧
    State.reset.busy = false ∧ (State.reset.withCommand 0x44#32).busy = true ∧ (State.reset.withCommand 0x44#32).wait = 0 ∧
    (State.reset.withCommand 0x44#32).cmd = 0x44#32 := ⟨⟨.rstdec, by decide⟩, by decide⟩

theorem witness_DecodeAndEncodeAgree : decode 0x121#32 = .ok .dequantP := by decide

theorem witness_StepRunsTheDecodedCommand :
    (State.reset.withCommand 0x40#32).busy = true ∧ (State.reset.withCommand 0x40#32).wait = 0 ∧
    decode (State.reset.withCommand 0x40#32).cmd = .ok .encfrm := by decide

theorem witness_StepGivesTheHostItsTurn :
    State.reset.busy = false ∧ State.reset.host = [] ∧
    (running .wait).busy = true ∧ 0 < (running .wait).wait ∧ (running .wait).host = .wait :: [] ∧
    (running .idle).host = .idle :: [] ∧ (running (.read 0x008#24 4)).host = .read 0x008#24 4 :: [] ∧
    (running (.write 0x00C#24 4 0#64)).host = .write 0x00C#24 4 0#64 :: [] := by decide

theorem witness_OnlyForbiddenAccessesStopTheMachine :
    (running (.read 0x010#24 4)).busy = true ∧ 0 < (running (.read 0x010#24 4)).wait ∧ Accessible 0x010 4 ∧
    ¬PermittedBusy false 0x010 ∧ Accessible 0x000 4 ∧ ¬PermittedBusy true 0x000 := by
  unfold Accessible PermittedBusy InBuffer; decide

theorem witness_CommandWritesOnlyWhatItsRowLists :
    (∃ t, exec .encfrm steady = .next t) ∧ ∃ t, exec .decfrm State.reset = .next t := ⟨⟨_, rfl⟩, ⟨_, rfl⟩⟩

theorem witness_StepKeepsTheInvariant :
    State.reset.Inv ∧ (∃ t, step State.reset = .next t) ∧
    (steady.withCommand 0x40#32).Inv ∧ ∃ t, step (steady.withCommand 0x40#32) = .next t :=
  ⟨by decide, ⟨_, rfl⟩, by decide, ⟨_, rfl⟩⟩

theorem witness_NopDoesNothingButComplete : State.reset.busy = false := rfl

theorem witness_SessionCommandsRestartOnePipeline :
    SessionOk largest ∧ largest.steadyE = false ∧ largest.steadyD = false ∧ { largest with decFtype := 1#2 }.decFtype = 1#2 ∧
    SessionOk { largest with decFtype := 1#2 } := ⟨largest_session, rfl, rfl, rfl, largest_session⟩

theorem witness_FftAndIfftTransformThePrefix :
    1024 < ({ State.reset with vlen := 1025#16 } : State).len ∧
    (({ State.reset with vlen := 1023#16 } : State).len ≤ 1024 ∧ ∀ m, ({ State.reset with vlen := 1023#16 } : State).len ≠ 2 ^ m) ∧
    (State.reset.len ≤ 1024 ∧ ∀ m, State.reset.len ≠ 2 ^ m) ∧
    ({ State.reset with vlen := 1#16 } : State).len = 2 ^ 0 ∧ ({ State.reset with vlen := 1024#16 } : State).len = 2 ^ 10 ∧
    State.reset.mem.wf :=
  ⟨by decide, ⟨by decide, no_power (by decide)⟩, ⟨by decide, no_power (by decide)⟩, by decide, by decide, by decide⟩

theorem witness_Dct1dAndIdct1dTransformThePrefix :
    512 < ({ State.reset with vlen := 513#16 } : State).len ∧
    (({ State.reset with vlen := 511#16 } : State).len ≤ 512 ∧ ∀ m, ({ State.reset with vlen := 511#16 } : State).len ≠ 2 ^ m) ∧
    (State.reset.len ≤ 512 ∧ ∀ m, State.reset.len ≠ 2 ^ m) ∧
    ({ State.reset with vlen := 1#16 } : State).len = 2 ^ 0 ∧ ({ State.reset with vlen := 512#16 } : State).len = 2 ^ 9 ∧
    State.reset.mem.wf :=
  ⟨by decide, ⟨by decide, no_power (by decide)⟩, ⟨by decide, no_power (by decide)⟩, by decide, by decide, by decide⟩

theorem witness_Dct2dAndIdct2dTransformTheRegion :
    ¬FrameOk State.reset ∧ ¬FrameOk (framed 513 1 8 8) ∧
    (FrameOk (framed 511 1 8 8) ∧ ∀ a, (framed 511 1 8 8).width ≠ 2 ^ a) ∧
    (FrameOk (framed 1 3 8 8) ∧ ∀ b, (framed 1 3 8 8).height ≠ 2 ^ b) ∧
    largest.width = 2 ^ 9 ∧ largest.height = 2 ^ 9 ∧ largest.mem.wf ∧
    (framed 1 1 8 8).width = 2 ^ 0 ∧ (framed 1 1 8 8).height = 2 ^ 0 :=
  ⟨not_frameOk_of (by decide), not_frameOk_of (by decide), ⟨frameOk_of (by decide), no_power (by decide)⟩,
   ⟨frameOk_of (by decide), no_power (by decide)⟩, by decide, by decide, by decide, by decide, by decide⟩

theorem witness_Bdct2dAndIbdct2dTransformTheTiles :
    ¬(FrameOk { largest with tileW := 513#16 } ∧ 1 ≤ ({ largest with tileW := 513#16 } : State).tw ∧
      ({ largest with tileW := 513#16 } : State).tw ≤ 512 ∧ 1 ≤ ({ largest with tileW := 513#16 } : State).th ∧
      ({ largest with tileW := 513#16 } : State).th ≤ 512) ∧
    (FrameOk (framed 4 4 8 8) ∧ 1 ≤ (framed 4 4 8 8).tw ∧ (framed 4 4 8 8).th ≤ 512 ∧
      ¬((framed 4 4 8 8).tw ∣ (framed 4 4 8 8).width)) ∧
    (FrameOk { framed 6 2 8 8 with tileW := 3#16, tileH := 2#16 } ∧
      ({ framed 6 2 8 8 with tileW := 3#16, tileH := 2#16 } : State).tw ∣ (framed 6 2 8 8).width ∧
      ({ framed 6 2 8 8 with tileW := 3#16, tileH := 2#16 } : State).th ∣ (framed 6 2 8 8).height ∧
      ∀ a, ({ framed 6 2 8 8 with tileW := 3#16, tileH := 2#16 } : State).tw ≠ 2 ^ a) ∧
    FrameOk largest ∧ largest.tw = 2 ^ 3 ∧ largest.th = 2 ^ 3 ∧ largest.tw ∣ largest.width ∧ largest.th ∣ largest.height ∧
    largest.mem.wf :=
  ⟨fun h => absurd h.2.2.1 (by decide), ⟨frameOk_of (by decide), by decide, by decide, by decide⟩,
   ⟨frameOk_of (by decide), by decide, by decide, no_power (by decide)⟩, frameOk_of (by decide), by decide, by decide, by decide,
   by decide, by decide⟩

theorem witness_FftIsTheRadixTwoRecursion :
    let x : List Cplx := [⟨one, 0#64⟩, ⟨0#64, one⟩]
    x.length = 2 ^ (0 + 1) ∧
    (∃ E, E = fft 0 ((List.range (2 ^ 0)).map fun j => x.getD (2 * j) czero)) ∧
    (∃ O, O = fft 0 ((List.range (2 ^ 0)).map fun j => x.getD (2 * j + 1) czero)) ∧ 0 < 2 ^ 0 := ⟨rfl, ⟨_, rfl⟩, ⟨_, rfl⟩, by decide⟩

theorem witness_IterativePipelineEqualsRecursion : (List.replicate 1024 czero).length = 2 ^ 10 := by decide +kernel

theorem witness_IfftIsTheConjugateTrick :
    ([czero, czero] : List Cplx).length = 2 ^ 1 ∧
    ∃ y, (fft 1 (([czero, czero] : List Cplx).map fun c => ⟨c.re, fneg c.im⟩))[1]? = some y :=
  ⟨rfl, ⟨_, rfl⟩⟩

theorem witness_DctPairIsBuiltOnTheFft : ([one, 0#64] : List F64).length = 2 ^ 1 := rfl

theorem witness_RowsAreTransformedBeforeColumns :
    (dct1d = dct1d ∧ dct2d (2 ^ 1) (2 ^ 1) = dct2d (2 ^ 1) (2 ^ 1)) ∧
    (idct1d = idct1d ∧ idct2d (2 ^ 1) (2 ^ 1) = idct2d (2 ^ 1) (2 ^ 1)) ∧
    ([[one, 0#64], [0#64, one]] : Grid F64).length = 2 ^ 1 ∧
    ∀ r ∈ ([[one, 0#64], [0#64, one]] : Grid F64), r.length = 2 ^ 1 := ⟨⟨rfl, rfl⟩, ⟨rfl, rfl⟩, rfl, by decide⟩

theorem witness_TilesAreTransformedIndependently :
    let M : Grid F64 := [[one, 0#64], [0#64, one]]
    (0 < 2 ∧ 0 < 1 ∧ 2 ∣ 2 ∧ 1 ∣ 2) ∧ M.length = 2 ∧ ∀ r ∈ M, r.length = 2 := by decide

theorem witness_CostIsTheBlockSum : (64 : Nat) ≤ 64 := by decide

theorem witness_SearchRangeStaysInsideTheFrame :
    (448 + 64 ≤ 512) ∧ (64 : Nat) = 64 ∧ ((-16 : Int), (0 : Int)) ∈ candidates 512 64 16 0 0 64 ∧
    ((0 : Int), (0 : Int)) ∈ candidates 64 64 16 0 0 64 := by decide +kernel

theorem witness_MeblkFindsTheFirstLeastCost :
    ¬FrameOk State.reset ∧
    (FrameOk { largest with meBx := 448#16, meBy := 448#16 } ∧ 1 ≤ largest.mb ∧ largest.mb ≤ 64 ∧
      ({ largest with meBx := 448#16, meBy := 448#16 } : State).bx + largest.mb ≤ largest.width ∧
      ({ largest with meBx := 448#16, meBy := 448#16 } : State).blockY + largest.mb ≤ largest.height) :=
  ⟨not_frameOk_of (by decide), frameOk_of (by decide), by decide, by decide, by decide, by decide⟩

theorem witness_MemapSearchesEveryBlock :
    ¬(FrameOk (framed 8 8 65 8) ∧ 1 ≤ (framed 8 8 65 8).mb ∧ (framed 8 8 65 8).mb ≤ 64) ∧
    (FrameOk (framed 6 2 4 8) ∧ 1 ≤ (framed 6 2 4 8).mb ∧ (framed 6 2 4 8).mb ≤ 64 ∧
      ¬((framed 6 2 4 8).mb ∣ (framed 6 2 4 8).width ∧ (framed 6 2 4 8).mb ∣ (framed 6 2 4 8).height)) ∧
    FieldOk largest ∧ largest.mem.wf :=
  ⟨fun h => absurd h.2.2 (by decide), ⟨frameOk_of (by decide), by decide, by decide, by decide⟩, fieldOk_of (by decide), by decide⟩

theorem witness_QuantWritesTheLevels :
    (largest.mem.wf ∧ QuantOk largest) ∧ QuantOk quantState ∧ quantState.mem.wf ∧ QuantOk { framed 1 1 8 1 with qscale := 65535#16 } :=
  ⟨⟨by decide, largest_session.2⟩, quantOk_of (by decide), by decide, quantOk_of (by decide)⟩

theorem witness_DequantWritesResidualsInRange : largest.mem.wf ∧ QuantOk largest := witness_QuantWritesTheLevels.1

theorem witness_LevelsFollowTheFormulas : (511 : Nat) < 512 ∧ (0 : Nat) < 1 := by decide

theorem witness_ZeroCoefficientHasLevelZero :
    (1 ≤ 65535 ∧ 65535 ≤ 65535 ∧ 1 ≤ 255 ∧ 255 ≤ 255) ∧ isZero 0#64 = true ∧ isZero 0x8000000000000000#64 = true := by decide

theorem witness_DpcmCodesTheCoefficients :
    ¬FrameOk (framed 0 512 8 8) ∧ ¬FrameOk (framed 512 513 8 8) ∧ FrameOk largest ∧ largest.mem.wf :=
  ⟨not_frameOk_of (by decide), not_frameOk_of (by decide), frameOk_of (by decide), by decide⟩

theorem witness_DpcmCodesTheVectorField :
    ¬(FrameOk (framed 8 8 0 8) ∧ 1 ≤ (framed 8 8 0 8).mb ∧ (framed 8 8 0 8).mb ≤ 64) ∧
    (FrameOk (framed 6 4 4 8) ∧ 1 ≤ (framed 6 4 4 8).mb ∧ (framed 6 4 4 8).mb ≤ 64 ∧
      ¬((framed 6 4 4 8).mb ∣ (framed 6 4 4 8).width ∧ (framed 6 4 4 8).mb ∣ (framed 6 4 4 8).height)) ∧
    FieldOk (framed 1 1 1 8) ∧ (framed 1 1 1 8).mem.wf :=
  ⟨fun h => absurd h.2.1 (by decide), ⟨frameOk_of (by decide), by decide, by decide, by decide⟩, fieldOk_of (by decide), by decide⟩

theorem witness_DpcmFollowsTheRunningPredictor :
    let row : List F64 := [one, 0x4000000000000000#64]
    let p : Nat → F64 := fun c => if c = 0 then 0#64 else if c = 1 then one else 0x4000000000000000#64
    (([row] : Grid F64)[0]? = some row ∧ p 0 = 0#64 ∧
      ∀ c < row.length, p (c + 1) = fadd (p c) (fsub (row.getD c 0#64) (p c))) ∧
    ([[], row] : Grid F64)[1]? = some row ∧ 1 < row.length := by decide +kernel

theorem witness_VectorsAreCodedAsDifferences :
    ([[⟨1#16, 2#16⟩, ⟨3#16, 4#16⟩]] : Grid Vec)[0]? = some [⟨1#16, 2#16⟩, ⟨3#16, 4#16⟩] ∧
    1 < ([⟨1#16, 2#16⟩, ⟨3#16, 4#16⟩] : List Vec).length := by decide

theorem witness_IntegerCoefficientDpcmIsLossless :
    ∀ r ∈ ([[f64 4503599627370495, f64 (-4503599627370495), negZero]] : Grid F64), ∀ x ∈ r,
      isFinite x = true ∧ ∃ k : Int, ratOf x = k ∧ |k| < 2 ^ 52 := by
  intro r hr x hx
  simp only [List.mem_cons, List.not_mem_nil, or_false] at hr
  subst hr
  simp only [List.mem_cons, List.not_mem_nil, or_false] at hx
  rcases hx with rfl | rfl | rfl
  · exact ⟨(f64_exact (k := 4503599627370495) (by norm_num)).1, _, (f64_exact (k := 4503599627370495) (by norm_num)).2, by norm_num⟩
  · exact ⟨(f64_exact (k := -4503599627370495) (by norm_num)).1, _, (f64_exact (k := -4503599627370495) (by norm_num)).2, by norm_num⟩
  · exact ⟨by decide, 0, by rw [Int.cast_zero]; exact (ratOf_eq_zero_iff _).2 (by decide), by norm_num⟩

theorem witness_FirstColumnAndSpecialValues :
    let row : List F64 := [one, 0xFFF0000000000000#64, one, 0x7FF8000000000000#64, one]
    let m : Grid F64 := [[negZero], row]
    gridAt m 0#64 0 0 = negZero ∧ m[1]? = some row ∧
    (isInf (row.getD 1 0#64) = true ∧ ∀ k < 1, isFinite (gridAt (decCoef (encCoef m)) 0#64 1 k) = true) ∧
    isNaN (row.getD 3 0#64) = true ∧ 4 < row.length := by decide +kernel

theorem witness_EncfrmCodesAnIntraFrame :
    largest.mem.wf ∧ SessionOk largest ∧ largest.steadyE = false ∧ SessionOk (framed 1 1 1 1) :=
  ⟨by decide, largest_session, rfl, smallest_session⟩

theorem witness_EncfrmCodesAPredictedFrame : steady.mem.wf ∧ SessionOk steady ∧ steady.steadyE = true :=
  ⟨by decide, steady_session, rfl⟩

theorem witness_DecfrmDecodesAnIntraFrame :
    steady.mem.wf ∧ SessionOk steady ∧ steady.decFtype = 0#2 ∧ SessionOk (framed 1 1 1 1) ∧ (framed 1 1 1 1).decFtype = 0#2 :=
  ⟨by decide, steady_session, rfl, smallest_session, rfl⟩

/-- The decoded vector of block (1, 1) reaches up to the first pixel of the frame. -/
def decodable : State := { steady with decFtype := 1#2, mem := Memory.reset.putField [[⟨0#16, 0#16⟩, ⟨0#16, 0#16⟩], [⟨0#16, 0#16⟩, ⟨2#16, 2#16⟩]] }

theorem witness_DecfrmDecodesAPredictedFrame :
    decodable.mem.wf ∧ SessionOk decodable ∧ decodable.decFtype = 1#2 ∧ decodable.steadyD = true ∧
    ∀ y < (2 : Nat), ∀ x < (2 : Nat),
      0 ≤ (x * 2 : Int) - (gridAt (decField decodable.field) ⟨0#16, 0#16⟩ y x).dx.toInt ∧
      (x * 2 : Int) + 2 - 1 - (gridAt (decField decodable.field) ⟨0#16, 0#16⟩ y x).dx.toInt ≤ 4 - 1 ∧
      0 ≤ (y * 2 : Int) - (gridAt (decField decodable.field) ⟨0#16, 0#16⟩ y x).dy.toInt ∧
      (y * 2 : Int) + 2 - 1 - (gridAt (decField decodable.field) ⟨0#16, 0#16⟩ y x).dy.toInt ≤ 4 - 1 :=
  ⟨by decide, sessionOk_of (by decide), rfl, rfl, by decide +kernel⟩

theorem witness_DecfrmErrorsComeInOrder :
    (SessionOk { framed 1 1 1 1 with decFtype := 2#2 } ∧ SessionOk { framed 1 1 1 1 with decFtype := 3#2 }) ∧
    (SessionOk { framed 1 1 1 1 with decFtype := 1#2 } ∧ (framed 1 1 1 1).steadyD = false) ∧
    (let s : State := { steady with decFtype := 1#2, mem := Memory.reset.putField [[⟨1#16, 0#16⟩]] }
     SessionOk s ∧ s.decFtype = 1#2 ∧ s.steadyD = true ∧ 0 < s.height / s.mb ∧ 0 < s.width / s.mb ∧
     ¬(0 ≤ ((0 : Nat) * s.mb : Int) - (gridAt (decField s.field) ⟨0#16, 0#16⟩ 0 0).dx.toInt)) :=
  ⟨⟨sessionOk_of (by decide), sessionOk_of (by decide)⟩, ⟨sessionOk_of (by decide), rfl⟩,
   sessionOk_of (by decide), rfl, rfl, by decide, by decide, by decide +kernel⟩

theorem witness_ConfigurationErrorsComeInOrder :
    ({ framed 12 12 8 3 with qscale := 0#16 } : State).scale = 0 ∧ (framed 12 12 8 33).db = 33 ∧ (framed 12 12 65 4).mb = 65 ∧
    (let s := framed 8 12 4 3
     FrameOk s ∧ 1 ≤ s.db ∧ s.db ≤ 32 ∧ 1 ≤ s.scale ∧ 1 ≤ s.mb ∧ s.mb ≤ 64 ∧ s.zeroWeight = false ∧ ¬(s.db ∣ s.width)) ∧
    (let s := framed 12 12 4 3
     FrameOk s ∧ 1 ≤ s.db ∧ s.db ≤ 32 ∧ 1 ≤ s.scale ∧ 1 ≤ s.mb ∧ s.mb ≤ 64 ∧ s.zeroWeight = false ∧ s.db ∣ s.width ∧
     s.db ∣ s.height ∧ s.mb ∣ s.width ∧ s.mb ∣ s.height ∧ ∀ k, s.db ≠ 2 ^ k) :=
  ⟨rfl, rfl, rfl, ⟨frameOk_of (by decide), by decide, by decide, by decide, by decide, by decide, by decide, by decide⟩,
   frameOk_of (by decide), by decide, by decide, by decide, by decide, by decide, by decide, by decide, by decide, by decide,
   by decide, no_power (by decide)⟩

theorem witness_EncodedFieldPassesTheDecoderCheck : (1 ≤ 1 ∧ 1 ∣ 512 ∧ 512 ≤ 512) ∧ 1 ≤ 64 ∧ 64 ∣ 512 := by decide

theorem witness_SteadyEncoderNeverFails : steady.Inv ∧ steady.steadyE = true := ⟨by decide, rfl⟩

theorem witness_ClosedLoopStaysConsistent :
    let s := framed 4 4 2 2
    let frames : List (Grid Byte) := [frameA.map fun r => r.map (BitVec.ofNat 8), frameB.map fun r => r.map (BitVec.ofNat 8)]
    s.mem.wf ∧ SessionOk s ∧ s.busy = false ∧ s.steadyE = false ∧ s.steadyD = false ∧ frames ≠ [] ∧
    ∀ f ∈ frames, f.length = s.height ∧ ∀ r ∈ f, r.length = s.width :=
  ⟨by decide, sessionOk_of (by decide), rfl, rfl, rfl, by decide, by decide⟩

theorem witness_CmdWriteIsAcceptedOrDropped : State.reset.busy = false ∧ (running .idle).busy = true := by decide

theorem witness_SessionWriteStartsFreshSessions :
    steady.busy = false ∧ steady.mem.wf ∧
    (0x1000 ≤ (0x001000#24 : Offset).toNat ∧ (0x001000#24 : Offset).toNat < 0x2000 ∧ (0x001000#24 : Offset).toNat % 4 = 0) ∧
    (0x1000 ≤ (0x001FFC#24 : Offset).toNat ∧ (0x001FFC#24 : Offset).toNat < 0x2000 ∧ (0x001FFC#24 : Offset).toNat % 4 = 0) := by
  decide

theorem witness_RegistersReadBackAsWritten :
    State.reset.busy = false ∧
    ((0x050#24 : Offset).toNat ∈ [0x000, 0x03C, 0x040, 0x044, 0x04C, 0x050] ∧ (0x050#24 : Offset).toNat % 4 = 0) ∧
    (0x054 ≤ (0x054#24 : Offset).toNat ∧ (0x054#24 : Offset).toNat % 4 = 0) ∧
    (0x054 ≤ (0xFFC#24 : Offset).toNat ∧ (0xFFC#24 : Offset).toNat < 0x1000 ∧ (0xFFC#24 : Offset).toNat % 4 = 0) := by decide

theorem witness_StatusAndCtrlWords : (0xFFFFFFFFFFFFFFFE#64).getLsbD 0 = false := by decide

theorem witness_SoftResetRestoresTheRegisters :
    (1#64).getLsbD 0 = true ∧ steady.busy = false ∧ (steady.withCommand 0x40#32).busy = true ∧
    decode (steady.withCommand 0x40#32).cmd = .ok .encfrm ∧ decode (steady.withCommand 0x44#32).cmd = .error .unlistedOp ∧
    decode (State.reset.withCommand 0x01#32).cmd = .ok .fft ∧ State.reset.len = 0 := by decide

theorem witness_AccessesAreErrorsHazardsOrPerformed :
    ¬Accessible 0x000 2 ∧ ¬Accessible 0x002000 4 ∧ ¬Accessible 0x400002 4 ∧ ¬Accessible 0x700000 8 ∧
    Accessible 0x001FFC 4 ∧ Accessible 0x010000 1 ∧ Accessible 0x6FFFF8 8 ∧ State.reset.busy = false ∧
    (running .idle).busy = true ∧ PermittedBusy false 0x000 ∧ ¬PermittedBusy true 0x000 ∧ PermittedBusy true 0x00C ∧
    ¬PermittedBusy false 0x010 ∧ Accessible 0x010 4 ∧ Accessible 0x00C 4 := by
  unfold Accessible PermittedBusy InBuffer
  refine ⟨?_, ?_, ?_, ?_, ?_, ?_, ?_, ?_, ?_, ?_, ?_, ?_, ?_, ?_, ?_⟩ <;> decide

theorem witness_BufferWritesReadBack :
    State.reset.busy = false ∧ State.reset.mem.wf ∧ (InBuffer (0x013FFF#24 : Offset).toNat ∧ (0x013FFF#24 : Offset).toNat % 1 = 0) ∧
    InBuffer (0x6FFFF8#24 : Offset).toNat ∧ (0x6FFFF8#24 : Offset).toNat % 8 = 0 := by
  unfold InBuffer; decide

theorem witness_DurationDoesNotChangeTheResult : (running .wait).busy = true ∧ (running .wait).host = .wait :: [] := by decide

theorem witness_AcceptedCommandsComplete :
    let s : State := { running .idle with host := [.read 0x008#24 4, .write 0x00C#24 4 1#64, .write 0x004#24 4 2#64,
      .read 0x008000#24 4, .wait, .idle] }
    s.busy = true ∧ ∀ op ∈ s.host, Quiet op := by
  refine ⟨rfl, fun op h => ?_⟩
  change op ∈ [_, _, _, _, _, _] at h
  simp only [List.mem_cons, List.not_mem_nil, or_false] at h
  rcases h with rfl | rfl | rfl | rfl | rfl | rfl <;> unfold Quiet <;>
    first | trivial | (unfold Accessible PermittedBusy InBuffer; decide)

theorem witness_WaitingHostMeetsNoHazard :
    let s : State := { State.reset with host := [.write 0x010#24 4 4#64, .write 0x00C#24 4 1#64, .wait, .read 0x008#24 4] }
    waitsForEach s.busy s.host = true ∧ s.ovr = false := by decide

theorem witness_ArithmeticRoundsToNearestEven :
    (isFinite 0x7FEFFFFFFFFFFFFF#64 = true ∧ isFinite 0x0000000000000001#64 = true) ∧ ratOf 0x0000000000000001#64 ≠ 0 ∧
    (ratOf negZero = 0 ∧ ratOf negZero + ratOf posZero = 0 ∧ ratOf negZero - ratOf posZero = 0) ∧
    isInf 0xFFF0000000000000#64 = true ∧ isNaN 0x7FF0000000000001#64 = true ∧
    (signBit 0xFFF0000000000000#64 != signBit 0x7FF0000000000000#64) = true := by
  have h0 : ratOf negZero = 0 := (ratOf_eq_zero_iff _).2 (by decide)
  exact ⟨by decide, fun h => absurd ((ratOf_eq_zero_iff _).1 h) (by decide), ⟨h0, by rw [h0, ratOf_posZero, add_zero],
    by rw [h0, ratOf_posZero, sub_zero]⟩, by decide, by decide, by decide⟩

theorem witness_HelperFunctionsFollowTheirRule :
    isFinite 0x7FEFFFFFFFFFFFFF#64 = true ∧ isFinite 0x7FF0000000000000#64 = false ∧ isNaN 0x7FF8000000000000#64 = true ∧
    isInf 0xFFF0000000000000#64 = true ∧ |(9007199254740991 : Int)| < 2 ^ 53 := by
  refine ⟨by decide, by decide, by decide, by decide, by norm_num⟩

theorem witness_FactorsAreCorrectlyRounded : (10 ≤ 10 ∧ 511 < 2 ^ 10 / 2) ∧ 9 ≤ 9 ∧ 511 < 2 ^ 9 := by decide

end Sys2Proof.Tests
end

section
/-! PROOF. The four operations of spec/00_scope.md R9 and R12: correct rounding, signs, infinities and NaN. -/

namespace Sys2Proof.Machine

/-! Signs and magnitudes. -/

/-- The sign of a value as a factor. -/
def signFactor (neg : Bool) : ℚ := if neg then -1 else 1

@[simp] theorem signFactor_mul_self (p : Bool) : signFactor p * signFactor p = 1 := by cases p <;> norm_num [signFactor]

theorem signFactor_bne (p q : Bool) : signFactor (p != q) = signFactor p * signFactor q := by
  cases p <;> cases q <;> norm_num [signFactor]

theorem ratOf_eq_units (a : F64) : ratOf a = signFactor (signBit a) * (units a / 2 ^ 1074) := by
  rw [ratOf_eq, units_eq, signFactor, mul_div_assoc]

theorem ratOf_eq_zero_iff_units (a : F64) : ratOf a = 0 ↔ units a = 0 := by
  rw [ratOf_eq_zero_iff, units_eq_zero_iff]

theorem isZero_iff (a : F64) : isZero a = true ↔ ratOf a = 0 := by
  rw [ratOf_eq_zero_iff, isZero, decide_eq_true_eq]

/-- Rounding keeps the sign it is given, also to a zero or an infinity. -/
theorem signBit_roundRatio (neg : Bool) (n : Nat) {d : Nat} (hd : 0 < d) : signBit (roundRatio neg n d) = neg := by
  obtain ⟨M, -, -, M', -, he, -, -⟩ := roundRatio_eq neg n hd
  rw [he, signBit_packBits]
  have := infBits_lt
  split <;> omega

theorem isRounding_zero (neg : Bool) : IsRounding 0 (packBits neg 0) := by
  have h := roundRatio_isRounding neg 0 one_pos
  rwa [roundRatio_zero neg one_pos, Nat.cast_zero, zero_div, mul_zero, zero_div] at h

theorem packBits_inf (neg : Bool) :
    packBits neg infBits = if neg then 0xFFF0000000000000#64 else 0x7FF0000000000000#64 := by
  cases neg <;> rfl

theorem packBits_zero (neg : Bool) : packBits neg 0 = if neg then 0x8000000000000000#64 else 0#64 := by
  cases neg <;> rfl

/-- An infinity is its sign. -/
theorem eq_packBits_inf {a : F64} (h : isInf a = true) : a = packBits (signBit a) infBits := by
  conv_lhs => rw [← packBits_self a, (isInf_iff a).1 h]

/-! NaN results. -/

theorem isNaN_nanResult_of_nan {op : Config.FloatOp} {a b : F64} (h : isNaN a = true ∨ isNaN b = true) :
    isNaN (nanResult op a b) = true := by
  have hz : isNaN posZero = false := by decide
  have h1 : isNaN one = false := by decide
  unfold nanResult
  split
  case isTrue hs => simpa [hs.2, hz] using h
  split
  case isTrue hs => simpa [hs.2, h1] using h
  split
  case isTrue hs => simpa [hs.2, h1] using h
  exact isNaN_freeNaN op a b

/-- The two NaN results that are stated (R98, R130) belong to operands that an invalid operation does not have. -/
theorem isNaN_nanResult_of_ne {op : Config.FloatOp} {a b : F64} (hs : op = .sub → b ≠ posZero)
    (hb : op = .mul → b ≠ one) (ha : op = .mul → a ≠ one) : isNaN (nanResult op a b) = true := by
  unfold nanResult
  rw [if_neg (fun h => hs h.1 h.2), if_neg (fun h => hb h.1 h.2), if_neg (fun h => ha h.1 h.2)]
  exact isNaN_freeNaN op a b

theorem ne_one_of_isInf {a : F64} (h : isInf a = true) : a ≠ one := by rintro rfl; exact absurd h (by decide)
theorem ne_one_of_isZero {a : F64} (h : isZero a = true) : a ≠ one := by rintro rfl; exact absurd h (by decide)
theorem ne_posZero_of_isInf {a : F64} (h : isInf a = true) : a ≠ posZero := by rintro rfl; exact absurd h (by decide)

theorem isNaN_of_isInf {a : F64} (h : isInf a = true) : isNaN a = false := by
  rw [isInf_iff] at h; simp [isNaN, h]

theorem isZero_of_isInf {a : F64} (h : isInf a = true) : isZero a = false := by
  rw [isInf_iff] at h; simp [isZero, h, infBits]

/-- A difference that is not invalid is the sum with the negated subtrahend. -/
theorem fsub_eq_fadd {a b : F64} (ha : isNaN a = false) (hb : isNaN b = false)
    (h : (isInf a && isInf b && signBit a == signBit b) = false) : fsub a b = fadd a (fneg b) := by
  rw [fsub, ha, hb, Bool.or_self, if_neg Bool.false_ne_true, h, if_neg Bool.false_ne_true]

/-! Finite operands. -/

/-- The exact sum in units. -/
theorem ratOf_add (a b : F64) : ratOf a + ratOf b = ((value a + value b : Int) : ℚ) / 2 ^ 1074 := by
  rw [ratOf, ratOf, ← add_div, Int.cast_add]

theorem ratOf_add_eq_zero_iff (a b : F64) : ratOf a + ratOf b = 0 ↔ value a + value b = 0 := by
  rw [ratOf_add, div_eq_zero_iff, Int.cast_eq_zero]
  exact or_iff_left (by positivity)

section Finite

variable {a b : F64} (ha : isFinite a = true) (hb : isFinite b = true)
include ha hb

theorem fadd_zero (h : ratOf a + ratOf b = 0) : fadd a b = packBits (signBit a && signBit b) 0 := by
  rw [fadd_finite ha hb, if_pos ((ratOf_add_eq_zero_iff a b).1 h)]
  cases signBit a && signBit b <;> rfl

theorem fadd_isRounding : IsRounding (ratOf a + ratOf b) (fadd a b) := by
  by_cases h : ratOf a + ratOf b = 0
  · rw [h, fadd_zero ha hb h]
    exact isRounding_zero _
  · have hr := roundRatio_isRounding (decide (value a + value b < 0)) (value a + value b).natAbs one_pos
    rw [Nat.cast_one, div_one, signed_natAbs] at hr
    rwa [fadd_finite ha hb, if_neg (mt (ratOf_add_eq_zero_iff a b).2 h), ratOf_add]

theorem fsub_finite : fsub a b = fadd a (fneg b) :=
  fsub_eq_fadd (isNaN_of_isFinite ha) (isNaN_of_isFinite hb) (by simp [isInf_of_isFinite ha])

theorem fsub_isRounding : IsRounding (ratOf a - ratOf b) (fsub a b) := by
  rw [fsub_finite ha hb, sub_eq_add_neg, ← ratOf_fneg]
  exact fadd_isRounding ha (by rwa [isFinite_fneg])

theorem fsub_zero (h : ratOf a - ratOf b = 0) : fsub a b = packBits (signBit a && !signBit b) 0 := by
  rw [fsub_finite ha hb, ← signBit_fneg]
  exact fadd_zero ha (by rwa [isFinite_fneg]) (by rwa [ratOf_fneg, ← sub_eq_add_neg])

theorem fmul_isRounding : IsRounding (ratOf a * ratOf b) (fmul a b) := by
  have hr := roundRatio_isRounding (signBit a != signBit b) (units a * units b) oneUnits_pos
  rw [← fmul_finite ha hb, ← signFactor, signFactor_bne, Nat.cast_mul, oneUnits_cast] at hr
  convert hr using 1
  rw [ratOf_eq_units, ratOf_eq_units]
  ring

theorem signBit_fmul : signBit (fmul a b) = (signBit a != signBit b) := by
  rw [fmul_finite ha hb, signBit_roundRatio _ _ oneUnits_pos]

theorem fdiv_finite (h : ratOf b ≠ 0) :
    fdiv a b = roundRatio (signBit a != signBit b) (units a * oneUnits) (units b) := by
  simp [fdiv, isNaN_of_isFinite ha, isNaN_of_isFinite hb, isInf_of_isFinite ha, isInf_of_isFinite hb, mt (isZero_iff b).1 h]

theorem fdiv_isRounding (h : ratOf b ≠ 0) : IsRounding (ratOf a / ratOf b) (fdiv a b) := by
  have hu : units b ≠ 0 := mt (ratOf_eq_zero_iff_units b).2 h
  have hr := roundRatio_isRounding (signBit a != signBit b) (units a * oneUnits) (Nat.pos_of_ne_zero hu)
  rw [← fdiv_finite ha hb h, ← signFactor, signFactor_bne, Nat.cast_mul, oneUnits_cast] at hr
  convert hr using 1
  have hs : (signFactor (signBit b))⁻¹ = signFactor (signBit b) := inv_eq_of_mul_eq_one_left (signFactor_mul_self _)
  rw [ratOf_eq_units, ratOf_eq_units, div_eq_mul_inv, mul_inv, hs]
  have hu' : (units b : ℚ) ≠ 0 := by exact_mod_cast hu
  field_simp

theorem signBit_fdiv (h : ratOf b ≠ 0) : signBit (fdiv a b) = (signBit a != signBit b) := by
  have hu := mt (ratOf_eq_zero_iff_units b).2 h
  rw [fdiv_finite ha hb h, signBit_roundRatio _ _ (Nat.pos_of_ne_zero hu)]

theorem fdiv_by_zero (h : ratOf a ≠ 0) (h0 : ratOf b = 0) : fdiv a b = packBits (signBit a != signBit b) infBits := by
  simp [fdiv, isNaN_of_isFinite ha, isNaN_of_isFinite hb, isInf_of_isFinite ha, mt (isZero_iff a).1 h, (isZero_iff b).2 h0]

theorem fdiv_zero_zero (h : ratOf a = 0) (h0 : ratOf b = 0) : isNaN (fdiv a b) = true := by
  have hr : fdiv a b = nanResult .div a b := by
    simp [fdiv, isNaN_of_isFinite ha, isNaN_of_isFinite hb, (isZero_iff a).2 h, (isZero_iff b).2 h0]
  rw [hr]
  exact isNaN_nanResult_of_ne (by simp) (by simp) (by simp)

end Finite

/-! An infinity and a finite value. -/

section Inf

variable {a b : F64} (ha : isInf a = true) (hb : isFinite b = true)
include ha hb

theorem fadd_inf : fadd a b = a := by
  rw [fadd, isNaN_of_isInf ha, isNaN_of_isFinite hb, Bool.or_self, if_neg Bool.false_ne_true, if_pos ha,
    isInf_of_isFinite hb, Bool.false_and, if_neg Bool.false_ne_true]

theorem fsub_inf : fsub a b = a := by
  rw [fsub_eq_fadd (isNaN_of_isInf ha) (isNaN_of_isFinite hb) (by simp [isInf_of_isFinite hb])]
  exact fadd_inf ha (by rwa [isFinite_fneg])

theorem fsub_by_inf : fsub b a = fneg a := by
  rw [fsub_eq_fadd (isNaN_of_isFinite hb) (isNaN_of_isInf ha) (by simp [isInf_of_isFinite hb]), fadd_comm]
  exact fadd_inf (by rwa [isInf_fneg]) hb

theorem fdiv_inf : fdiv a b = packBits (signBit a != signBit b) infBits := by
  simp [fdiv, isNaN_of_isInf ha, isNaN_of_isFinite hb, ha, isInf_of_isFinite hb, isZero_of_isInf ha]

theorem fdiv_by_inf : fdiv b a = packBits (signBit a != signBit b) 0 := by
  simp [fdiv, isNaN_of_isInf ha, isNaN_of_isFinite hb, ha, isInf_of_isFinite hb, isZero_of_isInf ha,
    bne_comm (a := signBit b)]

theorem fmul_inf (h : ratOf b ≠ 0) : fmul a b = packBits (signBit a != signBit b) infBits := by
  simp [fmul, isNaN_of_isInf ha, isNaN_of_isFinite hb, ha, isZero_of_isInf ha, mt (isZero_iff b).1 h]

theorem fmul_inf_zero (h : ratOf b = 0) : isNaN (fmul a b) = true := by
  have hz := (isZero_iff b).2 h
  have hr : fmul a b = nanResult .mul a b := by
    simp [fmul, isNaN_of_isInf ha, isNaN_of_isFinite hb, ha, hz]
  rw [hr]
  exact isNaN_nanResult_of_ne (by simp) (fun _ => ne_one_of_isZero hz) (fun _ => ne_one_of_isInf ha)

end Inf

/-! Two infinities. -/

section TwoInf

variable {a b : F64} (ha : isInf a = true) (hb : isInf b = true)
include ha hb

theorem fadd_inf_same (h : signBit a = signBit b) : fadd a b = a := by
  simp [fadd, isNaN_of_isInf ha, isNaN_of_isInf hb, ha, h]

theorem fadd_inf_cancel (h : signBit a ≠ signBit b) : isNaN (fadd a b) = true := by
  have hr : fadd a b = nanResult .add a b := by simp [fadd, isNaN_of_isInf ha, isNaN_of_isInf hb, ha, hb, h]
  rw [hr]
  exact isNaN_nanResult_of_ne (by simp) (by simp) (by simp)

theorem fsub_inf_cancel (h : signBit a = signBit b) : isNaN (fsub a b) = true := by
  have hr : fsub a b = nanResult .sub a b := by simp [fsub, isNaN_of_isInf ha, isNaN_of_isInf hb, ha, hb, h]
  rw [hr]
  exact isNaN_nanResult_of_ne (fun _ => ne_posZero_of_isInf hb) (by simp) (by simp)

theorem fsub_inf_opposite (h : signBit a ≠ signBit b) : fsub a b = a := by
  rw [fsub_eq_fadd (isNaN_of_isInf ha) (isNaN_of_isInf hb) (by simp [h])]
  exact fadd_inf_same ha (by rwa [isInf_fneg]) (by rw [signBit_fneg]; exact Bool.eq_not_of_ne h)

theorem fmul_inf_inf : fmul a b = packBits (signBit a != signBit b) infBits := by
  simp [fmul, isNaN_of_isInf ha, isNaN_of_isInf hb, ha, isZero_of_isInf ha, isZero_of_isInf hb]

theorem fdiv_inf_inf : isNaN (fdiv a b) = true := by
  have hr : fdiv a b = nanResult .div a b := by simp [fdiv, isNaN_of_isInf ha, isNaN_of_isInf hb, ha, hb]
  rw [hr]
  exact isNaN_nanResult_of_ne (by simp) (by simp) (by simp)

end TwoInf

/-! A NaN operand. -/

theorem operations_nan {a b : F64} (h : isNaN a = true ∨ isNaN b = true) :
    isNaN (fadd a b) = true ∧ isNaN (fsub a b) = true ∧ isNaN (fmul a b) = true ∧ isNaN (fdiv a b) = true := by
  have hor : (isNaN a || isNaN b) = true := by simpa using h
  refine ⟨?_, ?_, ?_, ?_⟩
  · rw [fadd, if_pos hor]; exact isNaN_nanResult_of_nan h
  · rw [fsub, if_pos hor]; exact isNaN_nanResult_of_nan h
  · rw [fmul, if_pos hor]; exact isNaN_nanResult_of_nan h
  · rw [fdiv, if_pos hor]; exact isNaN_nanResult_of_nan h

/-- Settles O58, by the kinds of the operands: finite, infinite, NaN. -/
theorem arithmeticRoundsToNearestEven : Obligations.ArithmeticRoundsToNearestEven := by
  intro a b neg inf zero
  have hinf : ∀ n, inf n = packBits n infBits := fun n => (packBits_inf n).symm
  have hzero : ∀ n, zero n = packBits n 0 := fun n => (packBits_zero n).symm
  simp only [hinf, hzero]
  refine ⟨fun ha hb => ?_, fun ha hb => ?_, fun ha hb => ?_, operations_nan⟩
  · exact ⟨fadd_isRounding ha hb, fsub_isRounding ha hb, fmul_isRounding ha hb, fdiv_isRounding ha hb,
      fadd_zero ha hb, fsub_zero ha hb, signBit_fmul ha hb, signBit_fdiv ha hb, fdiv_by_zero ha hb, fdiv_zero_zero ha hb⟩
  · exact ⟨fadd_inf ha hb, (fadd_comm b a).trans (fadd_inf ha hb), fsub_inf ha hb, fsub_by_inf ha hb,
      fdiv_inf ha hb, fdiv_by_inf ha hb, fmul_comm b a, fmul_inf ha hb, fmul_inf_zero ha hb⟩
  · have hneg : neg = false ↔ signBit a = signBit b := bne_eq_false_iff_eq
    have hneg' : neg = true ↔ signBit a ≠ signBit b := bne_iff_ne
    exact ⟨fun h => ⟨fadd_inf_same ha hb (hneg.1 h), fsub_inf_cancel ha hb (hneg.1 h)⟩,
      fun h => ⟨fadd_inf_cancel ha hb (hneg'.1 h), fsub_inf_opposite ha hb (hneg'.1 h)⟩,
      fmul_inf_inf ha hb, fdiv_inf_inf ha hb⟩

end Sys2Proof.Machine
end

section
/-! PROOF. The helper functions of spec/00_scope.md R13: round, sign, clamp and `ispow2`. -/

namespace Sys2Proof.Machine

/-! Comparison. -/

theorem orderKey_nonneg {v : F64} (hs : signBit v = false) : orderKey v = magBits v := by simp [orderKey, hs]

theorem orderKey_neg {v : F64} (hs : signBit v = true) : orderKey v = -magBits v := by simp [orderKey, hs]

theorem orderKey_finite {c : F64} (hc : isFinite c = true) : -(infBits : Int) < orderKey c ∧ orderKey c < infBits := by
  have hm := (isFinite_iff c).1 hc
  cases hs : signBit c
  · rw [orderKey_nonneg hs]; omega
  · rw [orderKey_neg hs]; omega

theorem flt_eq_decide {a b : F64} (ha : isNaN a = false) (hb : isNaN b = false) :
    flt a b = decide (orderKey a < orderKey b) := by simp [flt, ha, hb]

theorem not_isFinite {v : F64} (h : isFinite v = false) : isNaN v = true ∨ isInf v = true := by
  by_contra hc
  simp only [not_or, Bool.not_eq_true] at hc
  simp [isFinite_of_not hc.1 hc.2] at h

/-- +Inf is above and -Inf below every finite value. -/
theorem flt_finite_inf {c v : F64} (hc : isFinite c = true) (hv : isInf v = true) : flt c v = !signBit v := by
  obtain ⟨hlo, hhi⟩ := orderKey_finite hc
  rw [flt_eq_decide (isNaN_of_isFinite hc) (isNaN_of_isInf hv)]
  rw [isInf_iff] at hv
  cases hs : signBit v
  · rw [orderKey_nonneg hs, hv]; simpa using hhi
  · rw [orderKey_neg hs, hv]; simpa using hlo.le

theorem flt_inf_finite {c v : F64} (hc : isFinite c = true) (hv : isInf v = true) : flt v c = signBit v := by
  obtain ⟨hlo, hhi⟩ := orderKey_finite hc
  rw [flt_eq_decide (isNaN_of_isInf hv) (isNaN_of_isFinite hc)]
  rw [isInf_iff] at hv
  cases hs : signBit v
  · rw [orderKey_nonneg hs, hv]; simpa using hhi.le
  · rw [orderKey_neg hs, hv]; simpa using hlo

theorem flt_nan_left {v : F64} (h : isNaN v = true) (b : F64) : flt v b = false := by simp [flt, h]

theorem flt_nan_right {v : F64} (h : isNaN v = true) (b : F64) : flt b v = false := by simp [flt, h]

/-! Sign and clamp. -/

theorem fneg_one : fneg one = 0xBFF0000000000000#64 := by decide

theorem fsign_finite {v : F64} (h : isFinite v = true) :
    fsign v = if 0 < ratOf v then 0x3FF0000000000000#64 else if ratOf v < 0 then 0xBFF0000000000000#64 else 0#64 := by
  simp only [fsign, flt_iff posZero_finite h, flt_iff h posZero_finite, ratOf_posZero, fneg_one]
  rfl

theorem fsign_nan {v : F64} (h : isNaN v = true) : fsign v = 0#64 := by
  simp [fsign, flt_nan_left h, flt_nan_right h, posZero_eq]

theorem fsign_inf {v : F64} (h : isInf v = true) :
    fsign v = if signBit v then 0xBFF0000000000000#64 else 0x3FF0000000000000#64 := by
  rw [fsign, flt_finite_inf posZero_finite h, flt_inf_finite posZero_finite h, fneg_one]
  cases signBit v <;> rfl

theorem fclamp_nan {v : F64} (h : isNaN v = true) (lo hi : F64) : fclamp v lo hi = lo := by simp [fclamp, h]

theorem fclamp_inf {v lo hi : F64} (h : isInf v = true) (hlo : isFinite lo = true) (hhi : isFinite hi = true) :
    fclamp v lo hi = if signBit v then lo else hi := by
  rw [fclamp, isNaN_of_isInf h, flt_inf_finite hlo h, flt_finite_inf hhi h]
  cases signBit v <;> rfl

theorem fclamp_finite {v lo hi : F64} (h : isFinite v = true) (hlo : isFinite lo = true) (hhi : isFinite hi = true) :
    fclamp v lo hi = if ratOf v < ratOf lo then lo else if ratOf hi < ratOf v then hi else v := by
  simp only [fclamp, isNaN_of_isFinite h, Bool.false_eq_true, if_false, flt_iff h hlo, flt_iff hhi h]

/-! Round. -/

/-- The integer that `fround` delivers: the integer at or below the value, or the next from half a unit on. -/
def roundedInt (v : F64) : Int :=
  if (oneUnits : Int) ≤ 2 * (value v - ffloor v * (oneUnits : Int)) then ffloor v + 1 else ffloor v

theorem fround_not_finite {v : F64} (h : isFinite v = false) : fround v = v := by
  rw [fround, if_pos (by simpa using not_isFinite h)]

theorem fround_finite {v : F64} (h : isFinite v = true) : fround v = f64 (roundedInt v) := by
  rw [fround, isNaN_of_isFinite h, isInf_of_isFinite h]
  rfl

theorem ffloor_bounds (v : F64) :
    ffloor v * (oneUnits : Int) ≤ value v ∧ value v < ffloor v * (oneUnits : Int) + oneUnits := by
  have hu : (0 : Int) < oneUnits := by exact_mod_cast oneUnits_pos
  have hdm := Int.mul_ediv_add_emod (value v) oneUnits
  have hnn := Int.emod_nonneg (value v) hu.ne'
  have hlt := Int.emod_lt_of_pos (value v) hu
  rw [ffloor, Int.mul_comm]
  omega

/-- In units: within half a unit in 1 of the value, above it at a tie. -/
theorem roundedInt_bounds (v : F64) :
    2 * (roundedInt v * (oneUnits : Int)) - oneUnits ≤ 2 * value v ∧
      2 * value v < 2 * (roundedInt v * (oneUnits : Int)) + oneUnits := by
  obtain ⟨hlo, hhi⟩ := ffloor_bounds v
  unfold roundedInt
  split
  · rw [Int.add_mul, Int.one_mul]; omega
  · omega

/-- The same for the rational values. -/
theorem roundedInt_ratOf (v : F64) :
    (roundedInt v : ℚ) - 1 / 2 ≤ ratOf v ∧ ratOf v < roundedInt v + 1 / 2 := by
  have hu : (0 : ℚ) < oneUnits := by exact_mod_cast oneUnits_pos
  obtain ⟨hlo, hhi⟩ := roundedInt_bounds v
  have hlo' : 2 * (roundedInt v * (oneUnits : ℚ)) - oneUnits ≤ 2 * (value v : ℚ) := by exact_mod_cast hlo
  have hhi' : 2 * (value v : ℚ) < 2 * (roundedInt v * (oneUnits : ℚ)) + oneUnits := by exact_mod_cast hhi
  rw [ratOf, ← oneUnits_cast, le_div_iff₀ hu, div_lt_iff₀ hu]
  constructor <;> linarith

/-- A magnitude from 2^52 on is a whole number: its unit in the last place is at least 1. -/
theorem magUnits_small_or_integer (mag : Nat) : magUnits mag < 2 ^ 52 * oneUnits ∨ ∃ n, magUnits mag = n * oneUnits := by
  obtain ⟨t, q, rfl, hq, hn⟩ := mag_scaled mag
  rw [magUnits_scaled hq.le hn]
  rcases Nat.lt_or_ge t 1074 with ht | ht
  · left
    calc q * 2 ^ t < 2 ^ 53 * 2 ^ t := Nat.mul_lt_mul_of_pos_right hq (Nat.two_pow_pos t)
      _ ≤ 2 ^ 53 * 2 ^ 1073 := Nat.mul_le_mul_left _ (Nat.pow_le_pow_right (by norm_num) (by omega))
      _ = 2 ^ 52 * oneUnits := by rw [oneUnits, ← pow_add, ← pow_add]
  · right
    refine ⟨q * 2 ^ (t - 1074), ?_⟩
    rw [Nat.mul_assoc, oneUnits, ← pow_add, Nat.sub_add_cancel ht]

/-- Rounding a whole number changes nothing. -/
theorem roundedInt_of_integer {v : F64} {n : Nat} (h : units v = n * oneUnits) :
    (roundedInt v).natAbs * oneUnits = units v := by
  have hu := oneUnits_pos
  obtain ⟨k, hk⟩ : ∃ k : Int, value v = k * oneUnits := by
    rw [value, h, Nat.cast_mul]
    cases signBit v
    · exact ⟨n, if_neg Bool.false_ne_true⟩
    · exact ⟨-n, (if_pos rfl).trans (Int.neg_mul _ _).symm⟩
  have hf : ffloor v = k := by rw [ffloor, hk, Int.mul_ediv_cancel _ (by omega)]
  have hr : roundedInt v = k := by
    rw [roundedInt, hf, hk, Int.sub_self, if_neg (by omega)]
  rw [hr, ← value_natAbs, hk, Int.natAbs_mul, Int.natAbs_natCast]

/-- The rounded integer of a finite value is representable (R13, "exact, no rounding error"). -/
theorem f64_roundedInt {v : F64} (h : isFinite v = true) :
    isFinite (f64 (roundedInt v)) = true ∧ ratOf (f64 (roundedInt v)) = roundedInt v := by
  rcases magUnits_small_or_integer (magBits v) with hs | ⟨n, hn⟩
  · apply f64_exact
    have hv : |ratOf v| < 2 ^ 52 := by
      have hu : (0 : ℚ) < oneUnits := by exact_mod_cast oneUnits_pos
      have : (units v : ℚ) < 2 ^ 52 * oneUnits := by exact_mod_cast hs
      rw [ratOf, ← oneUnits_cast, abs_div, abs_of_pos hu, div_lt_iff₀ hu, ← Int.cast_abs, ← Nat.cast_natAbs, value_natAbs]
      exact this
    obtain ⟨hlo, hhi⟩ := roundedInt_ratOf v
    obtain ⟨hv1, hv2⟩ := abs_lt.1 hv
    have : |(roundedInt v : ℚ)| < 2 ^ 53 := by rw [abs_lt]; constructor <;> linarith
    exact_mod_cast this
  · exact (f64_of_mag _ ((isFinite_iff v).1 h) (roundedInt_of_integer hn).symm).2

theorem f64_zero : f64 0 = posZero := by
  rw [f64, Int.natAbs_zero, Nat.zero_mul]; exact roundRatio_zero false one_pos

/-- `round` of a finite value is the nearest integer, a tie going up, and no -0.0 (R13). -/
theorem fround_spec {v : F64} (h : isFinite v = true) :
    ∃ k : Int, isFinite (fround v) = true ∧ ratOf (fround v) = k ∧
      (k : ℚ) - 1 / 2 ≤ ratOf v ∧ ratOf v < k + 1 / 2 ∧ (k = 0 → fround v = posZero) := by
  obtain ⟨hfin, hval⟩ := f64_roundedInt h
  obtain ⟨hlo, hhi⟩ := roundedInt_ratOf v
  rw [fround_finite h]
  exact ⟨roundedInt v, hfin, hval, hlo, hhi, fun hk => by rw [hk, f64_zero]⟩

/-! Powers of two. -/

/-- `log2` of a power of two is its exponent (R13). -/
theorem ispow2_iff_log2 (n : Nat) : ispow2 n = true ↔ ∃ m, n = 2 ^ m ∧ Nat.log2 n = m := by
  rw [ispow2_iff]
  constructor
  · rintro ⟨m, rfl⟩
    exact ⟨m, rfl, Nat.log2_two_pow⟩
  · rintro ⟨m, hm, -⟩
    exact ⟨m, hm⟩

/-- Settles O59: each helper by its rule, on finite values, infinities and NaN. -/
theorem helperFunctionsFollowTheirRule : Obligations.HelperFunctionsFollowTheirRule :=
  ⟨fun _ => fround_spec, fun _ => fround_not_finite, fun _ => fsign_finite,
    fun _ lo hi h => ⟨fsign_nan h, fclamp_nan h lo hi⟩,
    fun _ _ _ h hlo hhi => ⟨fsign_inf h, fclamp_inf h hlo hhi⟩,
    fun _ _ _ => fclamp_finite, f64_exact, ispow2_iff_log2⟩

end Sys2Proof.Machine
end

section
/-! PROOF. The factor ROM of spec/00_scope.md R15 is correctly rounded. One rational number c near cos(pi/1024) is the cosine of an
angle phi near pi/1024, and cos(j phi) is an exact rational number by the recurrence cos((j+2) phi) = 2 c cos((j+1) phi) - cos(j phi).
That cos(512 phi) is tiny bounds the distance of 512 phi from pi/2, so also that of every cos(j phi) from cos(pi j/1024); a kernel
evaluation compares the rational numbers with the bounds between which the table's patterns are the nearest ones. -/

namespace Sys2Proof.Machine

/-! Nearest patterns. -/

theorem oneUnits_real_pos : (0 : ℝ) < oneUnits := by exact_mod_cast oneUnits_pos

theorem ratOf_real (c : F64) : ((ratOf c : ℚ) : ℝ) = value c / oneUnits := by
  rw [ratOf, ← oneUnits_cast, Rat.cast_div, Rat.cast_intCast, Rat.cast_natCast]

theorem value_packBits_pos {mag : Nat} (h : mag < infBits) : value (packBits false mag) = magUnits mag := by
  have h63 := lt_trans h infBits_lt
  simp [value, units_eq, magBits_packBits false h63, signBit_packBits false h63]

/-- Between the values of two patterns that follow each other there is no value. -/
theorem value_le_or_ge {c : F64} {mag : Nat} (h : value c ≠ magUnits mag) :
    value c ≤ magUnits (mag - 1) ∨ (magUnits (mag + 1) : Int) ≤ value c := by
  rw [value, units_eq] at h ⊢
  cases hs : signBit c
  · rw [hs, if_neg Bool.false_ne_true] at h
    rw [if_neg Bool.false_ne_true]
    have hne : magBits c ≠ mag := fun he => h (by rw [he])
    rcases Nat.lt_or_gt_of_ne hne with hlt | hgt
    · exact .inl (by exact_mod_cast magUnits_le_iff.2 (Nat.le_sub_one_of_lt hlt))
    · exact .inr (by exact_mod_cast magUnits_le_iff.2 hgt)
  · rw [if_pos rfl]
    exact .inl (by omega)

/-- `x` lies by more than `slack` (in half units) inside the bounds between which the pattern `mag` is the nearest one. -/
def RoundsTo (slack : Nat) (mag : Nat) (x : ℝ) : Prop :=
  mag < infBits ∧ ((magUnits (mag - 1) + magUnits mag + slack : Nat) : ℝ) < 2 * oneUnits * x ∧
    2 * oneUnits * x + slack < ((magUnits mag + magUnits (mag + 1) : Nat) : ℝ)

/-- Below the middle of `m` and everything above it, and above the middle of `m` and everything below it, `m` is nearest. -/
theorem abs_sub_lt_of_between {u x m v lo hi : ℝ} (hu : 0 < u) (hlo : lo + m < 2 * u * x) (hhi : 2 * u * x < m + hi)
    (hlom : lo ≤ m) (hmhi : m ≤ hi) (hne : v ≠ m) (hv : v ≤ lo ∨ hi ≤ v) : |m / u - x| < |v / u - x| := by
  have hapart : 0 < (v - m) * (v + m - 2 * u * x) := by
    rcases hv with hle | hge
    · have hlt : v < m := lt_of_le_of_ne (hle.trans hlom) hne
      exact mul_pos_of_neg_of_neg (by linarith) (by linarith)
    · have hlt : m < v := lt_of_le_of_ne (hmhi.trans hge) hne.symm
      exact mul_pos (by linarith) (by linarith)
  have hsq : (v / u - x) ^ 2 - (m / u - x) ^ 2 = (v - m) * (v + m - 2 * u * x) / u ^ 2 := by
    field_simp
    ring
  rw [← sq_lt_sq, ← sub_pos, hsq]
  positivity

theorem RoundsTo.isNearest {mag : Nat} {x : ℝ} (h : RoundsTo 0 mag x) : IsNearest x (packBits false mag) := by
  obtain ⟨hfin, hlo, hhi⟩ := h
  rw [Nat.add_zero, Nat.cast_add] at hlo
  rw [Nat.cast_zero, add_zero, Nat.cast_add] at hhi
  refine ⟨?_, fun hx => ?_, fun c _ hne => ?_⟩
  · rw [isFinite_iff, magBits_packBits _ (lt_trans hfin infBits_lt)]; exact hfin
  · rw [hx, mul_zero] at hlo
    exact absurd hlo (not_lt.2 (add_nonneg (Nat.cast_nonneg _) (Nat.cast_nonneg _)))
  · have hval : value c ≠ magUnits mag := fun he => hne (by rw [ratOf, ratOf, he, value_packBits_pos hfin])
    rw [ratOf_real, ratOf_real, value_packBits_pos hfin, Int.cast_natCast]
    exact abs_sub_lt_of_between oneUnits_real_pos hlo hhi (Nat.cast_le.2 (magUnits_le_iff.2 (Nat.sub_le mag 1)))
      (Nat.cast_le.2 (magUnits_lt_succ mag).le) (by exact_mod_cast hval) (by exact_mod_cast value_le_or_ge hval)

/-- A number as near as the slack has no other nearest pattern. -/
theorem RoundsTo.of_near {slack mag : Nat} {x y : ℝ} (h : RoundsTo slack mag x) (hxy : 2 * oneUnits * |y - x| ≤ slack) :
    RoundsTo 0 mag y := by
  obtain ⟨hfin, hlo, hhi⟩ := h
  have hu : (0 : ℝ) ≤ 2 * oneUnits := mul_nonneg zero_le_two oneUnits_real_pos.le
  have hup := (mul_le_mul_of_nonneg_left (le_abs_self (y - x)) hu).trans hxy
  have hdn := (mul_le_mul_of_nonneg_left (neg_le_abs (y - x)) hu).trans hxy
  rw [mul_neg, mul_sub] at hdn
  rw [mul_sub] at hup
  rw [Nat.cast_add] at hlo
  refine ⟨hfin, ?_, ?_⟩
  · rw [Nat.add_zero]; linarith
  · rw [Nat.cast_zero]; linarith

theorem isNearest_zero : IsNearest 0 posZero := by
  refine ⟨posZero_finite, fun _ => rfl, fun c _ hne => ?_⟩
  rw [ratOf_posZero] at hne ⊢
  simpa using hne

/-- The negative of a number and of its nearest value; a zero stays +0.0. -/
theorem IsNearest.neg {x : ℝ} {r r' : F64} (h : IsNearest x r) (hfin : isFinite r' = true) (hr : ratOf r' = -ratOf r)
    (hz : x = 0 → r' = posZero) : IsNearest (-x) r' := by
  obtain ⟨-, -, hnear⟩ := h
  refine ⟨hfin, fun h0 => hz (neg_eq_zero.1 h0), fun c hc hne => ?_⟩
  have hlt := hnear (fneg c) (by rwa [isFinite_fneg]) (fun he => hne (by rw [hr, ← he, ratOf_fneg, neg_neg]))
  rw [ratOf_fneg] at hlt
  rw [hr, ← abs_neg, ← abs_neg ((ratOf c : ℝ) - -x)]
  convert hlt using 2 <;> push_cast <;> ring

/-! The rational cosines. -/

/-- 2^128 cos(pi/1024), rounded up. -/
def cosStep : Nat := 0xffffb10b10e80e953031437d7eccb9df

/-- 2^-100 in half units: how far the rational cosines may be from the true ones. -/
def romSlack : Nat := 2 ^ 975

/-- `RoundsTo` for the rational number x/s. -/
def roundsToRat (mag : Nat) (x : Int) (s : Nat) : Bool :=
  decide (mag < infBits ∧ ((magUnits (mag - 1) + magUnits mag + romSlack : Nat) : Int) * s < 2 * oneUnits * x ∧
    2 * oneUnits * x + romSlack * s < ((magUnits mag + magUnits (mag + 1) : Nat) : Int) * s)

/-- The patterns are the nearest ones to x/s, y/(2^128 s) and their successors in the recurrence with the factor
`2 * cosStep / 2^128`, and the number after the last pattern is at most 2^-101. -/
def nearestAlong : List Nat → (x y : Int) → (s : Nat) → Bool
  | [], x, _, s => decide (x.natAbs * 2 ^ 101 ≤ s)
  | mag :: mags, x, y, s =>
    roundsToRat mag x s && nearestAlong mags y (2 * cosStep * y - 2 ^ 256 * x) (2 ^ 128 * s)

/-- The table along the multiples of one angle, from cos(0) = 1 on. -/
theorem nearestAlong_romTable : nearestAlong (romTable.take 512) 1 cosStep 1 = true := by decide +kernel

theorem roundsToRat_sound {mag s : Nat} {x : Int} {c : ℝ} (hs : 0 < s) (hx : (x : ℝ) = s * c) (h : roundsToRat mag x s = true) :
    RoundsTo romSlack mag c := by
  obtain ⟨hfin, hlo, hhi⟩ := of_decide_eq_true h
  have hs' : (0 : ℝ) < s := by exact_mod_cast hs
  have hlo' : ((magUnits (mag - 1) + magUnits mag + romSlack : Nat) : ℝ) * s < 2 * oneUnits * x := by exact_mod_cast hlo
  have hhi' : 2 * oneUnits * (x : ℝ) + romSlack * s < ((magUnits mag + magUnits (mag + 1) : Nat) : ℝ) * s := by
    exact_mod_cast hhi
  rw [hx] at hlo' hhi'
  refine ⟨hfin, lt_of_mul_lt_mul_right ?_ hs'.le, lt_of_mul_lt_mul_right ?_ hs'.le⟩
  · calc _ < _ := hlo'
      _ = _ := by ring
  · calc _ = _ := by ring
      _ < _ := hhi'

theorem cos_add_two_mul (j : Nat) (φ : ℝ) :
    Real.cos ((j + 2 : Nat) * φ) = 2 * Real.cos φ * Real.cos ((j + 1 : Nat) * φ) - Real.cos (j * φ) := by
  have h2 : ((j + 2 : Nat) : ℝ) * φ = (j + 1 : Nat) * φ + φ := by push_cast; ring
  have h0 : (j : ℝ) * φ = (j + 1 : Nat) * φ - φ := by push_cast; ring
  rw [h2, h0, Real.cos_add, Real.cos_sub]
  ring

/-- By induction on the table: its numbers are the cosines of the multiples of any angle with the cosine `cosStep / 2^128`. -/
theorem nearestAlong_sound {φ : ℝ} (hφ : Real.cos φ = cosStep / 2 ^ 128) (mags : List Nat) (j : Nat) (x y : Int) (s : Nat)
    (hs : 0 < s) (hx : (x : ℝ) = s * Real.cos (j * φ)) (hy : (y : ℝ) = 2 ^ 128 * s * Real.cos ((j + 1 : Nat) * φ))
    (h : nearestAlong mags x y s = true) :
    (∀ i < mags.length, RoundsTo romSlack (mags.getD i 0) (Real.cos ((j + i : Nat) * φ))) ∧
      |Real.cos ((j + mags.length : Nat) * φ)| * 2 ^ 101 ≤ 1 := by
  induction mags generalizing j x y s with
  | nil =>
    refine ⟨fun i hi => absurd hi (Nat.not_lt_zero i), ?_⟩
    have hle : (x.natAbs : ℝ) * 2 ^ 101 ≤ s := by exact_mod_cast of_decide_eq_true h
    have hs' : (0 : ℝ) < s := by exact_mod_cast hs
    rw [Nat.cast_natAbs, Int.cast_abs, hx, abs_mul, abs_of_pos hs', mul_assoc] at hle
    exact le_of_mul_le_mul_left (by rwa [mul_one]) hs'
  | cons mag mags ih =>
    rw [nearestAlong, Bool.and_eq_true] at h
    obtain ⟨hmag, hrest⟩ := h
    have hnext : ((2 * cosStep * y - 2 ^ 256 * x : Int) : ℝ) =
        2 ^ 128 * (2 ^ 128 * s : Nat) * Real.cos ((j + 1 + 1 : Nat) * φ) := by
      push_cast
      rw [hx, hy, show ((j : ℝ) + 1 + 1) = (j + 2 : Nat) by push_cast; ring, cos_add_two_mul, hφ]
      ring
    obtain ⟨hall, hend⟩ := ih (j + 1) y _ _ (by positivity) (by rw [hy]; push_cast; ring) hnext hrest
    refine ⟨fun i hi => ?_, ?_⟩
    · cases i with
      | zero => exact roundsToRat_sound hs hx hmag
      | succ i =>
        have hi' := hall i (by simpa using hi)
        rwa [show j + 1 + i = j + (i + 1) by omega] at hi'
    · rwa [show j + 1 + mags.length = j + (mags.length + 1) by omega] at hend

/-! The angle whose cosine is `cosStep / 2^128`. -/

noncomputable def cosAngle : ℝ := Real.arccos (cosStep / 2 ^ 128)

theorem cos_cosAngle : Real.cos cosAngle = cosStep / 2 ^ 128 :=
  Real.cos_arccos (by norm_num [cosStep]) (by norm_num [cosStep])

/-- From the quadratic bound on the cosine at pi/512. -/
theorem cosAngle_mem : 0 ≤ 512 * cosAngle ∧ 512 * cosAngle ≤ Real.pi := by
  have hpi := Real.pi_pos
  have hquad : Real.cos (Real.pi / 512) ≤ cosStep / 2 ^ 128 := by
    have h := Real.cos_le_one_sub_mul_cos_sq (x := Real.pi / 512) (by rw [abs_of_pos (by positivity)]; linarith)
    have hval : 2 / Real.pi ^ 2 * (Real.pi / 512) ^ 2 = 2 / 512 ^ 2 := by field_simp
    rw [hval] at h
    exact h.trans (by norm_num [cosStep])
  have hle : cosAngle ≤ Real.pi / 512 := by
    rw [cosAngle, ← Real.arccos_cos (x := Real.pi / 512) (by positivity) (by linarith)]
    exact Real.antitone_arccos hquad
  have hnn : 0 ≤ cosAngle := Real.arccos_nonneg _
  constructor <;> linarith

theorem abs_sub_pi_div_two_le {x : ℝ} (h0 : 0 ≤ x) (hpi : x ≤ Real.pi) : |x - Real.pi / 2| ≤ 2 * |Real.cos x| := by
  have h := Real.mul_abs_le_abs_sin (x := Real.pi / 2 - x) (by rw [abs_le]; constructor <;> linarith)
  rw [Real.sin_pi_div_two_sub, abs_sub_comm, div_mul_eq_mul_div, div_le_iff₀ Real.pi_pos] at h
  have h4 := mul_le_mul_of_nonneg_left Real.pi_le_four (abs_nonneg (Real.cos x))
  linarith

theorem romTable_length : romTable.length = 513 := by decide +kernel

theorem romTable_getD_right_angle : romTable.getD 512 0 = 0 := by decide +kernel

theorem romTable_cosAngle :
    (∀ j < 512, RoundsTo romSlack (romTable.getD j 0) (Real.cos (j * cosAngle))) ∧
      |Real.cos (512 * cosAngle)| * 2 ^ 101 ≤ 1 := by
  have hlen : (romTable.take 512).length = 512 := by rw [List.length_take, romTable_length]; rfl
  obtain ⟨hall, hend⟩ := nearestAlong_sound cos_cosAngle (romTable.take 512) 0 1 cosStep 1 one_pos (by simp)
    (by rw [Nat.zero_add, Nat.cast_one, one_mul, cos_cosAngle]; push_cast; field_simp) nearestAlong_romTable
  rw [hlen] at hall hend
  refine ⟨fun j hj => ?_, by simpa using hend⟩
  have hj' := hall j hj
  rwa [Nat.zero_add, List.getD_eq_getElem?_getD, List.getElem?_take_of_lt hj, ← List.getD_eq_getElem?_getD] at hj'

/-- The multiples of the two angles up to the right angle stay together. -/
theorem abs_cos_sub_cos_cosAngle {j : Nat} (hj : j ≤ 512) :
    |Real.cos (Real.pi * j / 1024) - Real.cos (j * cosAngle)| * 2 ^ 100 ≤ 1 := by
  obtain ⟨h0, hpi⟩ := cosAngle_mem
  have hj' : (j : ℝ) / 512 ≤ 1 := by rw [div_le_one (by norm_num)]; exact_mod_cast hj
  have hdist : |Real.cos (Real.pi * j / 1024) - Real.cos (j * cosAngle)| ≤ 2 * |Real.cos (512 * cosAngle)| := by
    calc |Real.cos (Real.pi * j / 1024) - Real.cos (j * cosAngle)|
      _ ≤ |Real.pi * j / 1024 - j * cosAngle| := Real.abs_cos_sub_cos_le _ _
      _ = j / 512 * |512 * cosAngle - Real.pi / 2| := by
        rw [abs_sub_comm, ← abs_of_nonneg (show (0 : ℝ) ≤ j / 512 by positivity), ← abs_mul]
        congr 1; ring
      _ ≤ |512 * cosAngle - Real.pi / 2| := mul_le_of_le_one_left (abs_nonneg _) hj'
      _ ≤ _ := abs_sub_pi_div_two_le h0 hpi
  have hend := romTable_cosAngle.2
  calc _ ≤ 2 * |Real.cos (512 * cosAngle)| * 2 ^ 100 := mul_le_mul_of_nonneg_right hdist (by positivity)
    _ = |Real.cos (512 * cosAngle)| * 2 ^ 101 := by ring
    _ ≤ 1 := hend

theorem romSlack_eq : (romSlack : ℝ) * 2 ^ 100 = 2 * oneUnits := by
  have h : romSlack * 2 ^ 100 = 2 * oneUnits := by rw [romSlack, oneUnits, ← pow_add, ← pow_succ']
  have hcast := congrArg (Nat.cast (R := ℝ)) h
  rwa [Nat.cast_mul, Nat.cast_mul, Nat.cast_pow, Nat.cast_ofNat] at hcast

/-! The ROM. -/

/-- Every entry of the table is correctly rounded (R15). -/
theorem romTable_isNearest {j : Nat} (hj : j ≤ 512) :
    IsNearest (Real.cos (Real.pi * j / 1024)) (packBits false (romTable.getD j 0)) := by
  rcases Nat.lt_or_eq_of_le hj with hlt | rfl
  · refine ((romTable_cosAngle.1 j hlt).of_near ?_).isNearest
    rw [← romSlack_eq, mul_assoc, mul_comm ((2 : ℝ) ^ 100)]
    exact mul_le_of_le_one_right (Nat.cast_nonneg _) (abs_cos_sub_cos_cosAngle hj)
  · rw [show Real.pi * (512 : Nat) / 1024 = Real.pi / 2 by push_cast; ring, Real.cos_pi_div_two,
      romTable_getD_right_angle]
    exact isNearest_zero

theorem IsNearest.fneg {x : ℝ} {r : F64} (h : IsNearest x r) (hx : x ≠ 0) : IsNearest (-x) (Machine.fneg r) :=
  h.neg (by rw [isFinite_fneg]; exact h.1) (ratOf_fneg r) (fun h0 => absurd h0 hx)

theorem romPattern_eq (j : Nat) : BitVec.ofNat 64 (romTable.getD j 0) = packBits false (romTable.getD j 0) := rfl

theorem cos_pos_of_lt {j : Nat} (hj : j < 512) : 0 < Real.cos (Real.pi * j / 1024) := by
  have hpi := Real.pi_pos
  have hj' : (j : ℝ) < 512 := by exact_mod_cast hj
  have hnn : (0 : ℝ) ≤ j := Nat.cast_nonneg j
  apply Real.cos_pos_of_mem_Ioo
  constructor <;> nlinarith

theorem romCos_isNearest {j : Nat} (hj : j ≤ 1024) : IsNearest (Real.cos (Real.pi * j / 1024)) (romCos j) := by
  rw [romCos, romPattern_eq, romPattern_eq]
  split
  case isTrue h => exact romTable_isNearest h
  case isFalse h =>
    have hsym : Real.pi * j / 1024 = Real.pi - Real.pi * (1024 - j : Nat) / 1024 := by push_cast [hj]; ring
    rw [hsym, Real.cos_pi_sub]
    exact (romTable_isNearest (by omega)).fneg (cos_pos_of_lt (by omega)).ne'

theorem romSin_isNearest {j : Nat} (hj : j ≤ 1024) : IsNearest (Real.sin (Real.pi * j / 1024)) (romSin j) := by
  rw [romSin, romPattern_eq, ← Real.cos_pi_div_two_sub]
  split
  case isTrue h =>
    have hsym : Real.pi / 2 - Real.pi * j / 1024 = Real.pi * (512 - j : Nat) / 1024 := by push_cast [h]; ring
    rw [hsym]
    exact romTable_isNearest (by omega)
  case isFalse h =>
    have hsym : Real.pi / 2 - Real.pi * j / 1024 = -(Real.pi * (j - 512 : Nat) / 1024) := by
      push_cast [show 512 ≤ j by omega]; ring
    rw [hsym, Real.cos_neg]
    exact romTable_isNearest (by omega)

theorem romSinNeg_isNearest {j : Nat} (hj : j ≤ 1024) : IsNearest (-Real.sin (Real.pi * j / 1024)) (romSinNeg j) := by
  have h := romSin_isNearest hj
  rw [romSinNeg]
  split
  case isTrue h0 =>
    rw [h0] at h
    exact h.neg posZero_finite (by rw [ratOf_posZero, neg_zero]) (fun _ => rfl)
  case isFalse h0 => exact h.fneg (fun hx => h0 (h.2.1 hx))

/-! The factors. -/

theorem factor_index_le {m a : Nat} (N : Nat) (ha : a ≤ 2 ^ m) : a * (N / 2 ^ m) ≤ N :=
  (Nat.mul_le_mul_right _ ha).trans (Nat.mul_div_le N _)

theorem factor_index_cast {N m : Nat} (hN : 2 ^ m ∣ N) (a : Nat) : ((a * (N / 2 ^ m) : Nat) : ℝ) = a * N / 2 ^ m := by
  rw [Nat.cast_mul, Nat.cast_div hN (by positivity), Nat.cast_pow, Nat.cast_ofNat, mul_div_assoc]

theorem twiddle_isNearest {m k : Nat} (hm : m ≤ 10) (hk : k < 2 ^ m / 2) :
    IsNearest (Real.cos (2 * Real.pi * k / 2 ^ m)) (twiddle (2 ^ m) k).re ∧
      IsNearest (-Real.sin (2 * Real.pi * k / 2 ^ m)) (twiddle (2 ^ m) k).im := by
  have hN : 2 ^ m ∣ 1024 := pow_dvd_pow 2 hm
  have hj : 2 * k * (1024 / 2 ^ m) ≤ 1024 := factor_index_le 1024 (by omega)
  have hangle : 2 * Real.pi * k / 2 ^ m = Real.pi * (2 * k * (1024 / 2 ^ m) : Nat) / 1024 := by
    rw [factor_index_cast hN]; push_cast; ring
  rw [hangle]
  exact ⟨romCos_isNearest hj, romSinNeg_isNearest hj⟩

theorem rot_isNearest {m k : Nat} (hm : m ≤ 9) (hk : k < 2 ^ m) :
    IsNearest (Real.cos (Real.pi * k / (2 * 2 ^ m))) (rotFwd (2 ^ m) k).re ∧
      IsNearest (-Real.sin (Real.pi * k / (2 * 2 ^ m))) (rotFwd (2 ^ m) k).im ∧
      IsNearest (Real.cos (Real.pi * k / (2 * 2 ^ m))) (rotInv (2 ^ m) k).re ∧
      IsNearest (Real.sin (Real.pi * k / (2 * 2 ^ m))) (rotInv (2 ^ m) k).im := by
  have hN : 2 ^ m ∣ 512 := pow_dvd_pow 2 hm
  have hj : k * (512 / 2 ^ m) ≤ 1024 := (factor_index_le 512 hk.le).trans (by norm_num)
  have hangle : Real.pi * k / (2 * 2 ^ m) = Real.pi * (k * (512 / 2 ^ m) : Nat) / 1024 := by
    rw [factor_index_cast hN]; push_cast; ring
  rw [hangle]
  exact ⟨romCos_isNearest hj, romSinNeg_isNearest hj, romCos_isNearest hj, romSin_isNearest hj⟩

/-- Settles O60: every index of a factor is one of the ROM's. -/
theorem factorsAreCorrectlyRounded : Obligations.FactorsAreCorrectlyRounded :=
  ⟨fun _ _ => twiddle_isNearest, fun _ _ => rot_isNearest⟩

end Sys2Proof.Machine
end

section
/-! PROOF. The step at a running command with no turn of the host left (spec/60_exceptions.md R162). -/

namespace Sys2Proof.Machine

/-- The decoder of R82 reads each command back from its word in R78. -/
@[simp] theorem decode_encode (i : Instr) : decode (encode i) = .ok i := by cases i <;> rfl

theorem step_command {s : State} {i : Instr} (hb : s.busy = true) (hw : s.wait = 0) (hd : decode s.cmd = .ok i) :
    step s = exec i s := by
  rw [step_eq_turn, turn_command hb hw, runCommand_ok hd]

/-- A command word is 32 bits wide, so it is placed whole. -/
theorem withFetchWord_toNat (s : State) (w : Word) : s.withFetchWord 32 w.toNat = s.withCommand w := by
  rw [State.withFetchWord, Nat.mod_eq_of_lt w.isLt, BitVec.ofNat_toNat, BitVec.setWidth_eq]

/-- Settles O4: a state in which a command has just been placed is running it, with no turn of the host left. -/
theorem stepRunsTheDecodedCommand : Obligations.StepRunsTheDecodedCommand := by
  refine ⟨fun _ _ => step_command, fun s i => ?_⟩
  rw [withFetchWord_toNat]
  exact ⟨step_command (by simp) (by simp) (by simp), rfl⟩

end Sys2Proof.Machine
end

section
/-! PROOF. Accesses to the register block in an idle engine, or permitted while a command runs (spec/10_state.md R21 to R39), and
to a word of WMAT (spec/20_memory.md R61). -/

namespace Sys2Proof.Machine

/-! The register block. -/

/-- The registers in the order of R21. -/
def Reg.all : List Reg :=
  [.id, .ctrl, .status, .cmd, .frameW, .frameH, .mbSize, .dbSize, .qscale, .searchR, .vlen, .tileW, .tileH, .meBx, .meBy, .meVec,
    .meCost, .encFtype, .decFtype, .encFcnt, .decFcnt]

/-- The offset of a register (R21): they stand 4 bytes apart, in the order of R21. -/
def Reg.offset (r : Reg) : Nat := 4 * r.ctorIdx

@[simp] theorem regAt_offset (r : Reg) : regAt r.offset = some r := by cases r <;> rfl

theorem eq_offset_of_regAt {off : Nat} {r : Reg} (h : regAt off = some r) : off = r.offset := by
  unfold regAt at h
  split at h <;> cases h <;> rfl

/-- The last register stands at 0x050. -/
theorem Reg.offset_le (r : Reg) : r.offset ≤ 0x050 := by cases r <;> decide

theorem Reg.offset_lt (r : Reg) : r.offset < 0x1000 := r.offset_le.trans_lt (by decide)

theorem Reg.offset_aligned (r : Reg) : r.offset % 4 = 0 := Nat.mul_mod_right ..

@[simp] theorem Reg.toNat_offset (r : Reg) : (BitVec.ofNat 24 r.offset).toNat = r.offset :=
  Nat.mod_eq_of_lt (r.offset_lt.trans (by decide))

/-- The offsets from 0x054 on are reserved (R39). -/
theorem regAt_reserved {off : Nat} (h : 0x054 ≤ off) : regAt off = none := by
  cases hr : regAt off with
  | none => rfl
  | some r => have := eq_offset_of_regAt hr; have := r.offset_le; omega

theorem placeOf_registers {off : Nat} (h : off < 0x1000) : placeOf off = .registers := if_pos h

theorem admitted_registers {off : Nat} (h : off < 0x1000) (ha : off % 4 = 0) : admitted off 4 = true := by
  simp [admitted, placeOf_registers h, ha]

theorem Reg.admitted_offset (r : Reg) : admitted (BitVec.ofNat 24 r.offset).toNat 4 = true := by
  rw [r.toNat_offset]
  exact admitted_registers r.offset_lt r.offset_aligned

theorem busValue_registers (s : State) {off : Nat} (h : off < 0x1000) (size : Nat) :
    s.busValue off size = ((regAt off).elim 0#32 s.readReg).setWidth 64 := by rw [State.busValue, placeOf_registers h]

theorem busStore_registers (s : State) {off : Nat} (h : off < 0x1000) (size : Nat) (v : BitVec 64) :
    s.busStore off size v = (regAt off).elim s fun r => s.writeReg r (v.setWidth 32) := by
  rw [State.busStore, placeOf_registers h]

/-! Accesses. -/

theorem busRead_performed {s : State} {off : Offset} {size : Nat} (ha : admitted off.toNat size = true)
    (hb : s.busy = false ∨ allowedBusy false off.toNat = true) :
    s.busRead off size = .next { s with resp := .data (s.busValue off.toNat size) } := by
  rcases hb with hb | hb <;> simp [State.busRead, ha, hb]

theorem busWrite_performed {s : State} {off : Offset} {size : Nat} (v : BitVec 64) (ha : admitted off.toNat size = true)
    (hb : s.busy = false ∨ allowedBusy true off.toNat = true) :
    s.busWrite off size v = .next { s.busStore off.toNat size v with resp := .ack } := by
  rcases hb with hb | hb <;> simp [State.busWrite, ha, hb]

/-- A read at a register's offset returns the register, zero-extended. -/
theorem busRead_register {s : State} (r : Reg) (hb : s.busy = false ∨ allowedBusy false r.offset = true) :
    s.busRead (BitVec.ofNat 24 r.offset) 4 = .next { s with resp := .data ((s.readReg r).setWidth 64) } := by
  rw [busRead_performed r.admitted_offset (by rwa [r.toNat_offset]), r.toNat_offset, busValue_registers s r.offset_lt,
    regAt_offset]
  rfl

/-- A write at a register's offset writes the register. -/
theorem busWrite_register {s : State} (r : Reg) (v : BitVec 64) (hb : s.busy = false ∨ allowedBusy true r.offset = true) :
    s.busWrite (BitVec.ofNat 24 r.offset) 4 v = .next { s.writeReg r (v.setWidth 32) with resp := .ack } := by
  rw [busWrite_performed v r.admitted_offset (by rwa [r.toNat_offset]), r.toNat_offset, busStore_registers s r.offset_lt,
    regAt_offset]
  rfl

/-! The two registers whose write does more than store a field. -/

theorem writeCmd_idle {s : State} (hb : s.busy = false) (w : Word) :
    s.writeCmd w = { s.accept w (Config.latency w s.draw) with draw := s.draw + 1 } := by simp [State.writeCmd, hb]

theorem writeCmd_busy {s : State} (hb : s.busy = true) (w : Word) : s.writeCmd w = { s with ovr := true } := by
  simp [State.writeCmd, hb]

theorem writeCtrl_reset (s : State) {w : Word} (h : w.getLsbD 0 = true) : s.writeCtrl w = s.softReset := if_pos h

theorem writeCtrl_set (s : State) {w : Word} (h : w.getLsbD 0 = false) : s.writeCtrl w = s.setCtrl w :=
  if_neg (Bool.eq_false_iff.1 h)

/-! A word of WMAT. -/

/-- Of a word of WMAT only the byte at its offset is storage (R61). -/
theorem holds_weight_padding {off k : Nat} (ha : off % 4 = 0) (h0 : 0 < k) (h4 : k < 4) : Buf.holds .wmat (off + k) = false := by
  have : ¬(off + k) % 4 = 0 := by omega
  simp [Buf.holds, this]

theorem holds_weight {off : Nat} (h0 : 0x1000 ≤ off) (h1 : off < 0x2000) (ha : off % 4 = 0) : Buf.holds .wmat off = true := by
  simp [Buf.holds, Buf.base, Buf.size, h0, h1, ha]

theorem writeLE_weight (m : Memory) {off : Nat} (ha : off % 4 = 0) (v : Nat) :
    m.writeLE .wmat 4 off v = m.setByte .wmat off (BitVec.ofNat 8 v) := by
  have pad (k : Nat) (h0 : 0 < k) (h4 : k < 4) (m : Memory) (v : Byte) : m.setByte .wmat (off + k) v = m := by
    simp [Memory.setByte, holds_weight_padding ha h0 h4]
  simp [Memory.writeLE, Nat.add_assoc, pad]

theorem readLE_weight (m : Memory) {off : Nat} (ha : off % 4 = 0) : m.readLE .wmat 4 off = (m.byte .wmat off).toNat := by
  have pad (k : Nat) (h0 : 0 < k) (h4 : k < 4) : m.byte .wmat (off + k) = 0#8 := by
    simp [Memory.byte, holds_weight_padding ha h0 h4]
  simp [Memory.readLE, Nat.add_assoc, pad]

theorem placeOf_weight {off : Nat} (h0 : 0x1000 ≤ off) (h1 : off < 0x2000) : placeOf off = .memory .wmat := by
  have : ¬off < 0x1000 := by omega
  simp [placeOf, this, Buf.all, Buf.base, Buf.size, h0, h1]

/-- A write of a weight restarts both sessions and stores the low byte alone (R40, R49, R61). -/
theorem busWrite_weight {s : State} (hb : s.busy = false) {off : Offset} (v : BitVec 64) (h0 : 0x1000 ≤ off.toNat)
    (h1 : off.toNat < 0x2000) (ha : off.toNat % 4 = 0) :
    s.busWrite off 4 v = .next { s.freshSession with
      mem := s.mem.setByte .wmat off.toNat (BitVec.ofNat 8 v.toNat), resp := .ack } := by
  have hp := placeOf_weight h0 h1
  rw [busWrite_performed v (by simp [admitted, hp, ha]) (.inl hb), State.busStore, hp, writeLE_weight _ ha]

end Sys2Proof.Machine
end

section
/-! PROOF. What the host's accesses to the registers and to WMAT do (spec/10_state.md R21 to R40, R49, R51; spec/60_exceptions.md R162
to R166). -/

namespace Sys2Proof.Machine

/-- A field of `n` bits keeps the low `n` bits of what the bus carries. -/
theorem field_of_bus {n : Nat} (hn : n ≤ 32) (v : BitVec 64) : (v.setWidth 32).extractLsb' 0 n = v.setWidth n := by
  rw [← BitVec.setWidth_eq_extractLsb' hn, BitVec.setWidth_setWidth_of_le _ hn]

/-- Settles O48: the write is performed in both states, and `State.writeCmd` accepts or drops the word. -/
theorem cmdWriteIsAcceptedOrDropped : Obligations.CmdWriteIsAcceptedOrDropped := by
  intro s v
  have hw := busWrite_register (s := s) .cmd v (.inr rfl)
  rw [State.writeReg] at hw
  refine ⟨fun hb => ?_, fun hb => ?_⟩
  · rw [writeCmd_idle hb] at hw
    exact ⟨_, hw, rfl⟩
  · rw [writeCmd_busy hb] at hw
    exact hw

/-- Settles O49: a register write by the register's case of `State.writeReg`, a weight by the one byte of its word. -/
theorem sessionWriteStartsFreshSessions : Obligations.SessionWriteStartsFreshSessions := by
  intro s v hb fresh
  rw [← field_of_bus (by decide) v]
  have reg (r : Reg) := busWrite_register (s := s) r v (.inl hb)
  refine ⟨reg .frameW, reg .frameH, reg .mbSize, reg .dbSize, reg .qscale, fun hm off h0 h1 ha => ?_⟩
  refine ⟨_, busWrite_weight hb v h0 h1 ha, rfl, ?_, fun b a hne => ?_⟩
  · rw [readLE_weight _ ha, Memory.byte_setByte_same hm (holds_weight h0 h1 ha), BitVec.toNat_ofNat]
  · exact Memory.byte_setByte_other _ _ _ _ (hne.imp Ne.symm Ne.symm)

/-- The width of the field of a read-write register that is no session configuration (R30 to R33, R37). -/
def Reg.fieldWidth : Reg → Nat
  | .decFtype => 2
  | _ => 16

/-- The bits of that field in a word on the bus. -/
def Reg.fieldMask (r : Reg) : BitVec 64 := BitVec.ofNat 64 (2 ^ r.fieldWidth - 1)

/-- The read-write registers that are no session configuration, no control and no command. -/
def Reg.plain : List Reg := [.searchR, .vlen, .tileW, .tileH, .meBx, .meBy, .decFtype]

/-- The registers a write leaves as they are (R22, R34 to R36, R38). -/
def Reg.readOnly : List Reg := [.id, .meVec, .meCost, .encFtype, .encFcnt, .decFcnt]

theorem writeReg_readOnly {r : Reg} (hr : r ∈ Reg.readOnly) (s : State) (v : Word) : s.writeReg r v = s := by
  fin_cases hr <;> rfl

theorem mem_writeReg_plain {r : Reg} (hr : r ∈ Reg.plain) (s : State) (v : Word) : (s.writeReg r v).mem = s.mem := by
  fin_cases hr <;> rfl

theorem busy_writeReg_plain {r : Reg} (hr : r ∈ Reg.plain) (s : State) (v : Word) : (s.writeReg r v).busy = s.busy := by
  fin_cases hr <;> rfl

theorem readReg_writeReg_other {r r' : Reg} (hr : r ∈ Reg.plain) (h : r' ≠ r) (s : State) (v : Word) :
    (s.writeReg r v).readReg r' = s.readReg r' := by
  fin_cases hr <;> cases r' <;> first | contradiction | rfl

/-- A plain register keeps its field of the written word and reads it zero-extended. -/
theorem readReg_writeReg_same {r : Reg} (hr : r ∈ Reg.plain) (s : State) (v : Word) :
    (s.writeReg r v).readReg r = (v.extractLsb' 0 r.fieldWidth).setWidth 32 := by
  fin_cases hr <;> rfl

theorem Reg.fieldWidth_le (r : Reg) : r.fieldWidth ≤ 32 := by cases r <;> decide

theorem setWidth_setWidth_eq_and {n : Nat} (hn : n ≤ 64) (v : BitVec 64) :
    (v.setWidth n).setWidth 64 = v &&& BitVec.ofNat 64 (2 ^ n - 1) := by
  have hlt : 2 ^ n - 1 < 2 ^ 64 := (Nat.sub_one_lt (by positivity)).trans_le (Nat.pow_le_pow_right (by decide) hn)
  apply BitVec.eq_of_toNat_eq
  rw [BitVec.toNat_setWidth_of_le hn, BitVec.toNat_setWidth, BitVec.toNat_and, BitVec.toNat_ofNat, Nat.mod_eq_of_lt hlt,
    Nat.and_two_pow_sub_one_eq_mod]

/-- What the bus reads back from a plain register is the bits of its field in what the bus carried. -/
theorem busData_writeReg_same {r : Reg} (hr : r ∈ Reg.plain) (s : State) (v : BitVec 64) :
    ((s.writeReg r (v.setWidth 32)).readReg r).setWidth 64 = v &&& r.fieldMask := by
  have hn := r.fieldWidth_le
  rw [readReg_writeReg_same hr, field_of_bus hn, BitVec.setWidth_setWidth (by omega), Reg.fieldMask,
    setWidth_setWidth_eq_and (hn.trans (by decide))]

/-- Settles O50: the lists of the statement are the registers with what they read as, and the plain registers with their masks. -/
theorem registersReadBackAsWritten : Obligations.RegistersReadBackAsWritten := by
  intro s v hb
  refine ⟨?_, ?_, fun off ha hlt => ⟨fun h => ?_, fun h => ?_⟩⟩
  · change ∀ p ∈ Reg.all.map fun r => (r.offset, s.readReg r), _
    exact List.forall_mem_map.2 fun r _ => busRead_register r (.inl hb)
  · change ∀ p ∈ Reg.plain.map fun r => (r.offset, r.fieldMask), _
    refine List.forall_mem_map.2 fun r hr => ⟨_, busWrite_register r v (.inl hb), ?_, mem_writeReg_plain hr s _, ?_⟩
    · rw [← busData_writeReg_same hr s v]
      exact busRead_register r (.inl ((busy_writeReg_plain hr s _).trans hb))
    · intro off hlt _ hne
      rw [busValue_registers _ hlt, busValue_registers _ hlt]
      cases hr' : regAt off with
      | none => rfl
      | some r' =>
        have hne' : r' ≠ r := by rintro rfl; exact hne (eq_offset_of_regAt hr')
        exact congrArg (BitVec.setWidth 64) (readReg_writeReg_other hr hne' s _)
  · rw [busWrite_performed v (admitted_registers hlt ha) (.inl hb), busStore_registers s hlt]
    rcases h with h | h
    · obtain ⟨r, hr, e⟩ : ∃ r ∈ Reg.readOnly, r.offset = off.toNat := List.mem_map.1 h
      rw [← e, regAt_offset, Option.elim_some, writeReg_readOnly hr]
    · rw [regAt_reserved h, Option.elim_none]
  · rw [busRead_performed (admitted_registers hlt ha) (.inl hb), busValue_registers s hlt, regAt_reserved h]
    rfl

theorem statusWord_eq_concat (s : State) :
    s.statusWord = ((((((((0#20 ++ s.errcode).concat false).concat s.irq).concat s.steadyD).concat s.steadyE).concat
      s.ovr).concat s.err).concat s.done).concat s.busy := rfl

theorem ctrlWord_eq_concat (s : State) :
    s.ctrlWord = ((((0#28).concat s.metric).concat s.ieErr).concat s.ieDone).concat false := rfl

/-- The single bits of the STATUS word (R24). -/
theorem statusWord_bits (s : State) :
    s.statusWord.getLsbD 0 = s.busy ∧ s.statusWord.getLsbD 1 = s.done ∧ s.statusWord.getLsbD 2 = s.err ∧
    s.statusWord.getLsbD 3 = s.ovr ∧ s.statusWord.getLsbD 4 = s.steadyE ∧ s.statusWord.getLsbD 5 = s.steadyD ∧
    s.statusWord.getLsbD 6 = s.irq ∧ s.statusWord.getLsbD 7 = false := by
  simp only [statusWord_eq_concat, BitVec.getLsbD_concat_zero, BitVec.getLsbD_concat_succ, and_self]

/-- The fields of the STATUS word above its eight single bits (R24). -/
theorem statusWord_high (s : State) :
    s.statusWord.extractLsb' 8 4 = s.errcode ∧ s.statusWord.extractLsb' 12 20 = 0#20 := by
  unfold State.statusWord
  constructor <;> iterate 8 rw [BitVec.extractLsb'_append_eq_of_le (by decide)]
  · exact BitVec.extractLsb'_append_eq_right
  · exact BitVec.extractLsb'_append_eq_left

/-- The bits of the CTRL word (R23). -/
theorem ctrlWord_bits (s : State) :
    s.ctrlWord.getLsbD 0 = false ∧ s.ctrlWord.getLsbD 1 = s.ieDone ∧ s.ctrlWord.getLsbD 2 = s.ieErr ∧
    s.ctrlWord.getLsbD 3 = s.metric := by
  simp only [ctrlWord_eq_concat, BitVec.getLsbD_concat_zero, BitVec.getLsbD_concat_succ, and_self]

theorem ctrlWord_high (s : State) : s.ctrlWord.extractLsb' 4 28 = 0#28 := by
  unfold State.ctrlWord
  iterate 3 rw [BitVec.extractLsb'_append_eq_of_le (by decide)]
  exact BitVec.extractLsb'_append_eq_left

/-- The register's word holds the low 32 bits of what the bus carries. -/
theorem word_of_bus_bit (v : BitVec 64) {i : Nat} (hi : i < 32) : (v.setWidth 32).getLsbD i = v.getLsbD i := by
  simp [hi]

/-- Settles O51: the words bit by bit, and the two writes, which are permitted whether or not a command runs. -/
theorem statusAndCtrlWords : Obligations.StatusAndCtrlWords := by
  refine ⟨fun s => ?_, fun s v => ⟨?_, fun h0 => ?_⟩⟩
  · obtain ⟨busy, done, err, ovr, steadyE, steadyD, irq, reserved⟩ := statusWord_bits s
    obtain ⟨errcode, high⟩ := statusWord_high s
    obtain ⟨srst, ieDone, ieErr, metric⟩ := ctrlWord_bits s
    exact ⟨busy, done, err, ovr, steadyE, steadyD, irq, rfl, reserved, errcode, high, srst, ieDone, ieErr, metric,
      ctrlWord_high s⟩
  · refine (busWrite_register .status v (.inr rfl)).trans ?_
    simp only [State.writeReg, State.ackStatus, word_of_bus_bit v, Nat.reduceLT]
  · refine (busWrite_register .ctrl v (.inr rfl)).trans ?_
    rw [State.writeReg, writeCtrl_set s ((word_of_bus_bit v (by decide)).trans h0)]
    simp only [State.setCtrl, word_of_bus_bit v, Nat.reduceLT]

end Sys2Proof.Machine
end

section
/-! PROOF. The machine after power-on reset (spec/10_state.md R52, spec/70_reset_and_hazards.md R175). -/

namespace Sys2Proof.Machine

/-- At power-on every weight is 16 (R40, R52). -/
theorem Memory.elem_reset_wmat {v u : Nat} (hv : v < 32) (hu : u < 32) : Memory.reset.elem .wmat v u = 16 := by
  rw [weight_elem, Memory.byte, if_pos (holds_weight (by omega) (by omega) (by omega))]
  rfl

/-- Settles O9: the fields of `State.reset` are the table's values, and no weight is listed. -/
theorem resetHoldsTheTableOfValues : Obligations.ResetHoldsTheTableOfValues := by
  refine ⟨rfl, rfl, rfl, rfl, rfl, rfl, rfl, rfl, rfl, rfl, rfl, rfl, rfl, rfl, rfl, rfl, rfl, rfl, rfl, rfl, rfl, rfl, rfl, ?_⟩
  exact fun _ _ => Memory.elem_reset_wmat

end Sys2Proof.Machine
end

section
/-! PROOF. The invariant: it holds after reset and every step keeps it (spec/10_state.md R36, R38, R48, R49; spec/44_pipeline.md
R136; spec/60_exceptions.md R153, R162, R163). -/

namespace Sys2Proof.Machine

theorem State.Inv.mem_wf {s : State} (h : s.Inv) : s.mem.wf := h.1

/-- A Steady encoder has a configuration that passes the session checks (R49). -/
theorem State.Inv.scheck_of_steadyE {s : State} (h : s.Inv) (hE : s.steadyE = true) : s.scheck = none := by
  obtain ⟨-, -, -, ⟨hses, -⟩, -⟩ := h
  exact hses hE

theorem ErrKind.code_ne_zero (e : ErrKind) : e.code ≠ 0#4 := by cases e <;> decide

theorem ErrKind.code_le (e : ErrKind) : e.code.toNat ≤ 6 := by cases e <;> decide

/-! Changes that keep it. -/

/-- Writing memory keeps it where the weights, which the session checks read, stay. -/
theorem inv_setMem {s : State} (h : s.Inv) {m : Memory} (hm : m.wf) (hw : m.cells .wmat = s.mem.cells .wmat) :
    State.Inv { s with mem := m } := by
  obtain ⟨-, hflags, hcnt, ⟨hE, hD⟩, hft⟩ := h
  have hs : State.scheck { s with mem := m } = s.scheck := scheck_congr rfl rfl rfl rfl rfl hw
  exact ⟨hm, hflags, hcnt, ⟨fun e => hs.trans (hE e), fun e => hs.trans (hD e)⟩, hft⟩

/-- A fresh session has no configuration to keep, so any may be written with it (R49). -/
theorem inv_freshSession {s : State} (h : s.Inv) {m : Memory} (hm : m.wf) (frameW frameH mbSize dbSize qscale : Half) :
    State.Inv { s.freshSession with
      mem := m, frameW := frameW, frameH := frameH, mbSize := mbSize, dbSize := dbSize, qscale := qscale } := by
  obtain ⟨-, hflags, -, -, hft⟩ := h
  exact ⟨hm, hflags, ⟨fun _ => rfl, fun _ => rfl⟩, ⟨nofun, nofun⟩, hft⟩

theorem inv_freshEncoder {s : State} (h : s.Inv) : s.freshEncoder.Inv := by
  obtain ⟨hm, hflags, ⟨-, cD⟩, ⟨-, hD⟩, hft⟩ := h
  exact ⟨hm, hflags, ⟨fun _ => rfl, cD⟩, ⟨nofun, hD⟩, hft⟩

theorem inv_freshDecoder {s : State} (h : s.Inv) : s.freshDecoder.Inv := by
  obtain ⟨hm, hflags, ⟨cE, -⟩, ⟨hE, -⟩, hft⟩ := h
  exact ⟨hm, hflags, ⟨cE, fun _ => rfl⟩, ⟨hE, nofun⟩, hft⟩

/-- An acknowledgement clears flags and sets none (R165). -/
theorem inv_ackStatus {s : State} (h : s.Inv) (v : Word) : (s.ackStatus v).Inv := by
  obtain ⟨hm, ⟨hexcl, hrun, herr, hdone, hle⟩, hcnt, hses, hft⟩ := h
  have done_of (e : (s.ackStatus v).done = true) : s.done = true := (Bool.and_eq_true_iff.1 e).1
  have err_of (e : (s.ackStatus v).err = true) : s.err = true := (Bool.and_eq_true_iff.1 e).1
  have clear (hb : s.busy = true) : (s.ackStatus v).done = false ∧ (s.ackStatus v).err = false ∧ s.errcode = 0#4 := by
    obtain ⟨hd, he, hc⟩ := hrun hb
    simp [hd, he, hc]
  exact ⟨hm, ⟨fun e => hexcl ⟨done_of e.1, err_of e.2⟩, clear, herr ∘ err_of, hdone ∘ done_of, hle⟩, hcnt, hses, hft⟩

theorem inv_accept {s : State} (h : s.Inv) (w : Word) (n : Nat) : (s.accept w n).Inv := by
  obtain ⟨hm, -, hcnt, hses, hft⟩ := h
  exact ⟨hm, by simp [State.flagsOk], hcnt, hses, hft⟩

/-- The flags of a running command are clear, so its completion sets DONE alone (R162). -/
theorem inv_complete {s : State} (h : s.Inv) (hb : s.busy = true) : s.complete.Inv := by
  obtain ⟨hm, ⟨-, hrun, -, -, -⟩, hcnt, hses, hft⟩ := h
  obtain ⟨-, he, hc⟩ := hrun hb
  exact ⟨hm, by simp [State.flagsOk, he, hc], hcnt, hses, hft⟩

/-- The flags of a running command are clear, so its error sets ERR alone, with a code of R153. -/
theorem inv_raise {s : State} (h : s.Inv) (hb : s.busy = true) (e : ErrKind) : (s.raise e).Inv := by
  obtain ⟨hm, ⟨-, hrun, -, -, -⟩, hcnt, hses, hft⟩ := h
  obtain ⟨hd, -, -⟩ := hrun hb
  exact ⟨hm, by simp [State.flagsOk, hd, e.code_ne_zero, e.code_le], hcnt, hses, hft⟩

theorem inv_reset : State.reset.Inv :=
  ⟨Memory.reset_wf, by decide, ⟨fun _ => rfl, fun _ => rfl⟩, ⟨nofun, nofun⟩, .inl rfl⟩

theorem inv_softReset {s : State} (h : s.Inv) : s.softReset.Inv := by
  obtain ⟨-, hflags, hcnt, -, hft⟩ := inv_reset
  exact ⟨softReset_wf h.mem_wf, hflags, hcnt, ⟨nofun, nofun⟩, hft⟩

/-! Commands. -/

theorem inv_onVector {s : State} (h : s.Inv) (f : List Cplx → List Cplx) : (s.onVector f).Inv :=
  inv_setMem h (Memory.putVector_wf h.mem_wf _) (Memory.cells_putVector_other (by decide) _ _)

theorem inv_onCoefs {s : State} (h : s.Inv) (f : Grid F64 → Grid F64) : (s.onCoefs f).Inv :=
  inv_setMem h (Memory.putCoefs_wf h.mem_wf _) (Memory.cells_putCoefs_other (by decide) _ _)

theorem inv_putField {s : State} (h : s.Inv) (g : Grid Vec) : State.Inv { s with mem := s.mem.putField g } :=
  inv_setMem h (Memory.putField_wf h.mem_wf _) (Memory.cells_putField_other (by decide) _ _)

theorem inv_quant {s : State} (h : s.Inv) (ft : FrameType) : (s.quant ft).Inv :=
  inv_setMem h (Memory.putCoefs_wf h.mem_wf _) (Memory.cells_putCoefs_other (by decide) _ _)

theorem inv_dequant {s : State} (h : s.Inv) (ft : FrameType) : (s.dequant ft).Inv :=
  inv_setMem h (Memory.putResiduals_wf h.mem_wf _) (Memory.cells_putResiduals_other (by decide) _ _)

theorem commitEnc_mem_wf {s : State} (h : s.mem.wf) (e : Encoded) : (s.commitEnc e).mem.wf :=
  Memory.forget_wf (Memory.putPixels_wf (Memory.putCodedField_wf (Memory.putCoefs_wf h _) _) _ _) _ _

theorem commitDec_mem_wf {s : State} (h : s.mem.wf) (g : Grid Byte) : (s.commitDec g).mem.wf :=
  Memory.forget_wf (Memory.putPixels_wf h _ _) _ _

theorem commitEnc_cells_wmat (s : State) (e : Encoded) : (s.commitEnc e).mem.cells .wmat = s.mem.cells .wmat := by
  rw [State.commitEnc_mem, Memory.cells_forget_other (show Buf.res ≠ .wmat by decide),
    Memory.cells_putPixels_other (by decide), Memory.cells_putCodedField_other (by decide), Memory.cells_putCoefs_other (by decide)]

theorem commitDec_cells_wmat (s : State) (g : Grid Byte) : (s.commitDec g).mem.cells .wmat = s.mem.cells .wmat := by
  rw [State.commitDec_mem, Memory.cells_forget_other (show Buf.res ≠ .wmat by decide),
    Memory.cells_putPixels_other (by decide)]

theorem commitEnc_scheck (s : State) (e : Encoded) : (s.commitEnc e).scheck = s.scheck :=
  scheck_congr rfl rfl rfl rfl rfl (commitEnc_cells_wmat s e)

theorem commitDec_scheck (s : State) (g : Grid Byte) : (s.commitDec g).scheck = s.scheck :=
  scheck_congr rfl rfl rfl rfl rfl (commitDec_cells_wmat s g)

theorem FrameType.tag_cases (ft : FrameType) : ft.tag = 0#2 ∨ ft.tag = 1#2 := by cases ft <;> simp [FrameType.tag]

/-- An encoded frame makes the session Steady with the configuration that has just passed its checks (R137). -/
theorem inv_commitEnc {s : State} (h : s.Inv) (hc : s.scheck = none) (e : Encoded) : (s.commitEnc e).Inv := by
  obtain ⟨hm, hflags, ⟨-, cD⟩, -, -⟩ := h
  have hs := (commitEnc_scheck s e).trans hc
  exact ⟨commitEnc_mem_wf hm e, hflags, ⟨nofun, cD⟩, ⟨fun _ => hs, fun _ => hs⟩, e.tag.tag_cases⟩

/-- A decoded frame likewise (R141). -/
theorem inv_commitDec {s : State} (h : s.Inv) (hc : s.scheck = none) (g : Grid Byte) : (s.commitDec g).Inv := by
  obtain ⟨hm, hflags, ⟨cE, -⟩, -, hft⟩ := h
  have hs := (commitDec_scheck s g).trans hc
  exact ⟨commitDec_mem_wf hm g, hflags, ⟨cE, nofun⟩, ⟨fun _ => hs, fun _ => hs⟩, hft⟩

/-- DECFRM makes the session checks first (R141). -/
theorem scheck_of_checkDecfrm {s : State} (h : s.checkDecfrm = none) : s.scheck = none := by
  unfold State.checkDecfrm at h
  split at h
  · cases h
  · assumption

theorem inv_effectOf {i : Instr} {s : State} (h : s.Inv) (hc : checkOf i s = none) : (effectOf i s).Inv := by
  cases i with
  | nop | meblk => exact h
  | fft | ifft | dct1d | idct1d => exact inv_onVector h _
  | dct2d | idct2d | bdct2d | ibdct2d | dpcmencC | dpcmdecC => exact inv_onCoefs h _
  | memap | dpcmencV | dpcmdecV => exact inv_putField h _
  | quantI | quantP => exact inv_quant h _
  | dequantI | dequantP => exact inv_dequant h _
  | encfrm => exact inv_commitEnc h hc _
  | decfrm => exact inv_commitDec h (scheck_of_checkDecfrm hc) _
  | rstenc => exact inv_freshEncoder h
  | rstdec => exact inv_freshDecoder h

theorem effectOf_busy (i : Instr) (s : State) : (effectOf i s).busy = s.busy := by cases i <;> rfl

theorem inv_exec {i : Instr} {s t : State} (h : s.Inv) (hb : s.busy = true) (ht : exec i s = .next t) : t.Inv := by
  rw [exec_eq_finish] at ht
  rcases finish_cases ht with ⟨e, -, rfl⟩ | ⟨hc, rfl⟩
  · exact inv_raise h hb e
  · exact inv_complete (inv_effectOf h hc) ((effectOf_busy i s).trans hb)

theorem inv_runCommand {s t : State} (h : s.Inv) (hb : s.busy = true) (ht : runCommand s = .next t) : t.Inv := by
  cases hd : decode s.cmd with
  | ok i => exact inv_exec h hb ((runCommand_ok hd).symm.trans ht)
  | error r =>
    obtain rfl := Host.Outcome.next.inj ((runCommand_error hd).symm.trans ht)
    exact inv_raise h hb _

/-! The host's turn. The invariant reads no field of the host's side, so `h` itself shows that it holds after a change
of those. -/

theorem inv_writeCtrl {s : State} (h : s.Inv) (w : Word) : (s.writeCtrl w).Inv := by
  cases hw : w.getLsbD 0 with
  | false => rw [writeCtrl_set s hw]; exact h
  | true => rw [writeCtrl_reset s hw]; exact inv_softReset h

theorem inv_writeCmd {s : State} (h : s.Inv) (w : Word) : (s.writeCmd w).Inv := by
  cases hb : s.busy with
  | false => rw [writeCmd_idle hb]; exact inv_accept h w (Config.latency w s.draw)
  | true => rw [writeCmd_busy hb]; exact h

theorem inv_writeReg {s : State} (h : s.Inv) (r : Reg) (v : Word) : (s.writeReg r v).Inv := by
  cases r with
  | ctrl => exact inv_writeCtrl h v
  | status => exact inv_ackStatus h v
  | cmd => exact inv_writeCmd h v
  | frameW | frameH | mbSize | dbSize | qscale => exact inv_freshSession h h.mem_wf _ _ _ _ _
  | id | searchR | vlen | tileW | tileH | meBx | meBy | meVec | meCost | encFtype | decFtype | encFcnt | decFcnt => exact h

theorem inv_busStore {s : State} (h : s.Inv) (off size : Nat) (v : BitVec 64) : (s.busStore off size v).Inv := by
  unfold State.busStore
  split
  · cases regAt off with
    | none => exact h
    | some r => exact inv_writeReg h r _
  · exact inv_freshSession h (Memory.writeLE_wf _ _ _ _ h.mem_wf) _ _ _ _ _
  next b hne _ => exact inv_setMem h (Memory.writeLE_wf _ _ _ _ h.mem_wf) (Memory.cells_writeLE_other hne _ _ _ _)
  · exact h

theorem inv_busRead {s t : State} (h : s.Inv) {off : Offset} {size : Nat} (ht : s.busRead off size = .next t) : t.Inv := by
  rcases busRead_cases s off size with ⟨-, e⟩ | ⟨-, -, -, e⟩ | ⟨-, -, e⟩ <;> cases e.symm.trans ht <;> exact h

theorem inv_busWrite {s t : State} (h : s.Inv) {off : Offset} {size : Nat} {v : BitVec 64}
    (ht : s.busWrite off size v = .next t) : t.Inv := by
  rcases busWrite_cases s off size v with ⟨-, e⟩ | ⟨-, -, -, e⟩ | ⟨-, -, e⟩ <;> cases e.symm.trans ht
  · exact h
  · exact inv_busStore h _ _ _

theorem inv_hostTurn {s t : State} (h : s.Inv) (ht : hostTurn s = .next t) : t.Inv := by
  have served (rest : List HostOp) : State.Inv { s with host := rest } := h
  unfold hostTurn at ht
  split at ht
  · cases ht; exact h
  · cases ht; exact h
  · cases ht; exact h
  · exact inv_busRead (served _) ht
  · exact inv_busWrite (served _) ht

/-! The obligations. -/

/-- Settles O10. -/
theorem resetMeetsTheInvariant : Obligations.ResetMeetsTheInvariant := inv_reset

/-- Settles O11: a step is the running command or the host's turn. -/
theorem stepKeepsTheInvariant : Obligations.StepKeepsTheInvariant := by
  intro s t h ht
  rw [step_eq_turn] at ht
  cases hb : s.busy with
  | false => exact inv_hostTurn h ((turn_idle hb).symm.trans ht)
  | true =>
    by_cases hw : s.wait = 0
    · exact inv_runCommand h hb ((turn_command hb hw).symm.trans ht)
    · exact inv_hostTurn (s := { s with wait := s.wait - 1 }) h ((turn_waiting hb hw).symm.trans ht)

/-- Settles O46: the session checks pass, so ENCFRM takes its effect, and in Steady it codes a Predicted frame. -/
theorem steadyEncoderNeverFails : Obligations.SteadyEncoderNeverFails := by
  intro s h hE
  have hc : checkOf .encfrm s = none := h.scheck_of_steadyE hE
  have htag : s.encoded.tag = .predicted := by rw [State.encoded, if_pos hE]; rfl
  refine ⟨_, exec_of_check_none hc, rfl, rfl, ?_, rfl⟩
  exact congrArg FrameType.tag htag

end Sys2Proof.Machine
end

section
/-! PROOF. The host's turn: its next access in program order (spec/20_memory.md R69; spec/30_encoding.md R86, R87). -/

namespace Sys2Proof.Machine

/-- The turn of a host whose engine is idle, or whose command still has turns to leave it. -/
theorem step_eq_hostTurn {s u : State}
    (h : (s.busy = false ∧ u = s) ∨ (s.busy = true ∧ 0 < s.wait ∧ u = { s with wait := s.wait - 1 })) :
    step s = hostTurn u := by
  rcases h with ⟨hb, rfl⟩ | ⟨hb, hw, rfl⟩
  · exact turn_idle hb
  · exact turn_waiting hb hw.ne'

/-! A turn by what stands first in the queue. -/

theorem hostTurn_nil {s : State} (h : s.host = []) : hostTurn s = .next s := by simp [hostTurn, h]

theorem hostTurn_idle {s : State} {rest : List HostOp} (h : s.host = .idle :: rest) :
    hostTurn s = .next { s with host := rest } := by simp [hostTurn, h]

theorem hostTurn_wait {s : State} {rest : List HostOp} (h : s.host = .wait :: rest) :
    hostTurn s = .next { s with
      resp := .data (s.statusWord.setWidth 64), host := if s.busy then s.host else rest } := by simp [hostTurn, h]

theorem hostTurn_read {s : State} {off : Offset} {size : Nat} {rest : List HostOp} (h : s.host = .read off size :: rest) :
    hostTurn s = ({ s with host := rest } : State).busRead off size := by simp [hostTurn, h]

theorem hostTurn_write {s : State} {off : Offset} {size : Nat} {v : BitVec 64} {rest : List HostOp}
    (h : s.host = .write off size v :: rest) :
    hostTurn s = ({ s with host := rest } : State).busWrite off size v := by simp [hostTurn, h]

/-- Settles O5: the host's turn differs from the state it starts in by the turn counted alone, which neither the queue nor the
STATUS word reads. -/
theorem stepGivesTheHostItsTurn : Obligations.StepGivesTheHostItsTurn := by
  intro s u hu
  have hstep := step_eq_hostTurn hu
  have hhost : u.host = s.host := by rcases hu with ⟨-, rfl⟩ | ⟨-, -, rfl⟩ <;> rfl
  have hbusy : u.busy = s.busy := by rcases hu with ⟨-, rfl⟩ | ⟨-, -, rfl⟩ <;> rfl
  have hstatus : u.statusWord = s.statusWord := by rcases hu with ⟨-, rfl⟩ | ⟨-, -, rfl⟩ <;> rfl
  rw [hstep, ← hhost, ← hbusy, ← hstatus]
  exact ⟨hostTurn_nil, fun _ => ⟨hostTurn_idle, hostTurn_wait, fun _ _ => hostTurn_read, fun _ _ _ => hostTurn_write⟩⟩

end Sys2Proof.Machine
end

section
/-! PROOF. The window map and what becomes of an access (spec/20_memory.md R54, R55, R62 to R65; spec/70_reset_and_hazards.md
R181). -/

namespace Sys2Proof.Machine

/-! The map. -/

theorem Buf.mem_all (b : Buf) : b ∈ Buf.all := by cases b <;> decide

/-- No two memories share an offset (R54). -/
theorem Buf.all_disjoint : ∀ b ∈ Buf.all, ∀ b' ∈ Buf.all, b ≠ b' →
    b.base + b.size ≤ b'.base ∨ b'.base + b'.size ≤ b.base := by decide

theorem Buf.base_ge (b : Buf) : 0x1000 ≤ b.base := by cases b <;> decide

theorem placeOf_registers_iff {off : Nat} : placeOf off = .registers ↔ off < 0x1000 := by
  refine ⟨fun h => ?_, placeOf_registers⟩
  by_contra hlt
  rw [placeOf, if_neg hlt] at h
  split at h <;> cases h

theorem placeOf_memory_iff {off : Nat} {b : Buf} :
    placeOf off = .memory b ↔ b.base ≤ off ∧ off < b.base + b.size := by
  have covers {b' : Buf} (h : (Buf.all.find? fun b => decide (b.base ≤ off) && decide (off < b.base + b.size)) = some b') :
      b'.base ≤ off ∧ off < b'.base + b'.size := by simpa using List.find?_some h
  constructor
  · intro h
    rw [placeOf] at h
    split at h
    · cases h
    · split at h
      · cases h; exact covers ‹_›
      · cases h
  · rintro ⟨hlo, hhi⟩
    have hblock : ¬off < 0x1000 := by have := b.base_ge; omega
    rw [placeOf, if_neg hblock]
    split
    next b' hfind =>
      obtain ⟨hlo', hhi'⟩ := covers hfind
      congr 1
      by_contra hne
      have := Buf.all_disjoint b' b'.mem_all b b.mem_all hne
      omega
    next hfind => exact absurd (List.find?_eq_none.1 hfind b b.mem_all) (by simp [hlo, hhi])

/-- The seven buffers are the memories other than WMAT. -/
theorem inBuffer_iff {off : Nat} : InBuffer off ↔ ∃ b, b ≠ .wmat ∧ placeOf off = .memory b := by
  simp only [placeOf_memory_iff]
  constructor
  · intro h
    by_contra hno
    push Not at hno
    have h1 := hno .vbuf (by decide); have h2 := hno .fin (by decide); have h3 := hno .recE (by decide)
    have h4 := hno .recD (by decide); have h5 := hno .res (by decide); have h6 := hno .coef (by decide)
    have h7 := hno .mv (by decide)
    simp only [Buf.base, Buf.size] at h1 h2 h3 h4 h5 h6 h7
    unfold InBuffer at h
    omega
  · rintro ⟨b, hb, hlo, hhi⟩
    unfold InBuffer
    cases b <;> simp only [Buf.base, Buf.size] at hlo hhi
    case wmat => exact absurd rfl hb
    all_goals omega

/-! The rules of an access. -/

/-- Below the buffers stand the register block and WMAT, which take whole words alone (R62). -/
theorem accessible_block {off size : Nat} (h : off < 0x2000) : Accessible off size ↔ size = 4 ∧ off % 4 = 0 := by
  unfold Accessible InBuffer; omega

theorem accessible_buffer {off size : Nat} (h : InBuffer off) :
    Accessible off size ↔ (size = 1 ∨ size = 2 ∨ size = 4 ∨ size = 8) ∧ off % size = 0 := by
  have hlt : ¬off < 0x2000 := by unfold InBuffer at h; omega
  simp [Accessible, h, hlt]

theorem admitted_buffer {off size : Nat} {b : Buf} (hb : b ≠ .wmat) (hp : placeOf off = .memory b) :
    admitted off size = ([1, 2, 4, 8].contains size && off % size == 0) := by
  rw [admitted, hp]
  cases b with
  | wmat => exact absurd rfl hb
  | vbuf | fin | recE | recD | res | coef | mv => rfl

/-- The accesses the engine admits are those that are no bus error (R62 to R65). -/
theorem admitted_iff {off size : Nat} : admitted off size = true ↔ Accessible off size := by
  cases hp : placeOf off with
  | registers =>
    have hlt := placeOf_registers_iff.1 hp
    rw [accessible_block (by omega)]
    simp [admitted, hp]
  | memory b =>
    by_cases hb : b = .wmat
    · subst hb
      have hlt : off < 0x2000 := (placeOf_memory_iff.1 hp).2
      rw [accessible_block hlt]
      simp [admitted, hp]
    · rw [accessible_buffer (inBuffer_iff.2 ⟨b, hb, hp⟩), admitted_buffer hb hp]
      simp
  | unmapped =>
    have hno : ¬InBuffer off := fun h => by
      obtain ⟨b, -, hb⟩ := inBuffer_iff.1 h
      cases hp.symm.trans hb
    have hlt : ¬off < 0x2000 := fun h => by
      by_cases hr : off < 0x1000
      · cases hp.symm.trans (placeOf_registers hr)
      · cases hp.symm.trans (placeOf_weight (Nat.le_of_not_lt hr) h)
    simp [admitted, hp, Accessible, hno, hlt]

theorem allowedBusy_iff {write : Bool} {off : Nat} : allowedBusy write off = true ↔ PermittedBusy write off := by
  simp only [allowedBusy, PermittedBusy, Bool.or_eq_true, Bool.and_eq_true, beq_iff_eq, Bool.not_eq_true']
  tauto

/-- No access is wider than the bus. -/
theorem Accessible.size_le {off size : Nat} (h : Accessible off size) : size ≤ 8 := by
  unfold Accessible at h; omega

/-- What is permitted while a command runs is an access to a register (R181). -/
theorem PermittedBusy.regAt {write : Bool} {off : Nat} (h : PermittedBusy write off) : ∃ r, regAt off = some r := by
  rcases h with rfl | rfl | rfl | ⟨rfl, -⟩
  exacts [⟨.ctrl, rfl⟩, ⟨.status, rfl⟩, ⟨.cmd, rfl⟩, ⟨.id, rfl⟩]

/-! The outcomes of an access, besides its being performed. -/

theorem busRead_error (s : State) {off : Offset} {size : Nat} (ha : ¬Accessible off.toNat size) :
    s.busRead off size = .next { s with resp := .busError } := by
  simp [State.busRead, mt admitted_iff.1 ha]

theorem busWrite_error (s : State) {off : Offset} {size : Nat} (v : BitVec 64) (ha : ¬Accessible off.toNat size) :
    s.busWrite off size v = .next { s with resp := .busError } := by
  simp [State.busWrite, mt admitted_iff.1 ha]

theorem busRead_hazard {s : State} {off : Offset} {size : Nat} (ha : Accessible off.toNat size) (hb : s.busy = true)
    (hn : ¬PermittedBusy false off.toNat) : s.busRead off size = .fault (.hazard off) := by
  simp [State.busRead, admitted_iff.2 ha, hb, mt allowedBusy_iff.1 hn]

theorem busWrite_hazard {s : State} {off : Offset} {size : Nat} (v : BitVec 64) (ha : Accessible off.toNat size)
    (hb : s.busy = true) (hn : ¬PermittedBusy true off.toNat) : s.busWrite off size v = .fault (.hazard off) := by
  simp [State.busWrite, admitted_iff.2 ha, hb, mt allowedBusy_iff.1 hn]

/-! The value of a read. -/

/-- Byte `k` of a little-endian number is the byte at offset + k (R55). -/
theorem Memory.readLE_div_mod (m : Memory) (b : Buf) :
    ∀ (n off k : Nat), k < n → m.readLE b n off / 256 ^ k % 256 = (m.byte b (off + k)).toNat := by
  intro n
  induction n with
  | zero => intro off k hk; omega
  | succ n ih =>
    intro off k hk
    have hlow : (m.byte b off).toNat < 256 := (m.byte b off).isLt
    rw [Memory.readLE]
    cases k with
    | zero => rw [pow_zero, Nat.div_one, Nat.add_mul_mod_self_left, Nat.mod_eq_of_lt hlow, Nat.add_zero]
    | succ k =>
      have hrest := ih (off + 1) k (by omega)
      have hshift : ((m.byte b off).toNat + 256 * m.readLE b n (off + 1)) / 256 = m.readLE b n (off + 1) := by omega
      rw [pow_succ', ← Nat.div_div_eq_div_mul, hshift, hrest, Nat.add_assoc, Nat.add_comm 1 k]

theorem two_pow_eight_mul (n : Nat) : 2 ^ (8 * n) = 256 ^ n := pow_mul 2 8 n

theorem Memory.extractLsb'_readLE (m : Memory) (b : Buf) {n off k : Nat} (hn : n ≤ 8) (hk : k < n) :
    (BitVec.ofNat 64 (m.readLE b n off)).extractLsb' (8 * k) 8 = m.byte b (off + k) := by
  have hlt : m.readLE b n off < 2 ^ 64 := (m.readLE_lt b n off).trans_le (Nat.pow_le_pow_right (by decide) hn)
  refine BitVec.eq_of_toNat_eq ?_
  rw [BitVec.extractLsb'_toNat, BitVec.toNat_ofNat, Nat.mod_eq_of_lt hlt, Nat.shiftRight_eq_div_pow, two_pow_eight_mul]
  exact m.readLE_div_mod b n off k hk

theorem busValue_memory (s : State) {off : Nat} {b : Buf} (hp : placeOf off = .memory b) (size : Nat) :
    s.busValue off size = BitVec.ofNat 64 (s.mem.readLE b size off) := by rw [State.busValue, hp]

/-- A read fills no more than its bytes, the rest of the bus being 0 (R55). -/
theorem busValue_lt (s : State) {off size : Nat} (ha : Accessible off size) : (s.busValue off size).toNat < 256 ^ size := by
  cases hp : placeOf off with
  | registers =>
    have hlt := placeOf_registers_iff.1 hp
    obtain ⟨rfl, -⟩ := (accessible_block (by omega)).1 ha
    rw [busValue_registers s hlt, BitVec.toNat_setWidth]
    exact (Nat.mod_le _ _).trans_lt (BitVec.isLt _)
  | memory b =>
    rw [busValue_memory s hp, BitVec.toNat_ofNat]
    exact (Nat.mod_le _ _).trans_lt (s.mem.readLE_lt b size off)
  | unmapped => rw [State.busValue, hp]; exact Nat.pow_pos (by decide)

/-- Settles O53: an access is admitted or not; an admitted one is performed, unless a command runs and it is not permitted. -/
theorem accessesAreErrorsHazardsOrPerformed : Obligations.AccessesAreErrorsHazardsOrPerformed := by
  intro s off size v
  refine ⟨fun ha => ⟨busRead_error s ha, busWrite_error s v ha⟩, fun ha hb => ⟨?_, ?_⟩, fun ha hb => ⟨?_, ?_, ?_, ?_⟩⟩
  · refine ⟨_, busRead_performed (admitted_iff.2 ha) (.inl hb), busValue_lt s ha, fun b hlo hhi k hk => ?_⟩
    rw [busValue_memory s (placeOf_memory_iff.2 ⟨hlo, hhi⟩)]
    exact s.mem.extractLsb'_readLE b ha.size_le hk
  · exact ⟨_, busWrite_performed v (admitted_iff.2 ha) (.inl hb), rfl⟩
  · exact busRead_hazard ha hb
  · exact busWrite_hazard v ha hb
  · intro hperm
    obtain ⟨r, hr⟩ := hperm.regAt
    have hlt : off.toNat < 0x1000 := eq_offset_of_regAt hr ▸ r.offset_lt
    refine ⟨r, hr, ?_⟩
    rw [busRead_performed (admitted_iff.2 ha) (.inr (allowedBusy_iff.2 hperm)), busValue_registers s hlt, hr, Option.elim_some]
  · intro hperm
    obtain ⟨r, hr⟩ := hperm.regAt
    have hlt : off.toNat < 0x1000 := eq_offset_of_regAt hr ▸ r.offset_lt
    refine ⟨r, hr, ?_⟩
    rw [busWrite_performed v (admitted_iff.2 ha) (.inr (allowedBusy_iff.2 hperm)), busStore_registers s hlt, hr,
      Option.elim_some]

end Sys2Proof.Machine
end

section
/-! PROOF. A buffer write and the read after it (spec/20_memory.md R55, R63). -/

namespace Sys2Proof.Machine

theorem Buf.aligned (b : Buf) : 8 ∣ b.base + b.size := by cases b <;> decide

/-- An access at a multiple of its size stays within its buffer, whose end is a multiple of 8. -/
theorem Buf.access_le {b : Buf} {off size : Nat} (hoff : off < b.base + b.size) (h8 : size ∣ 8) (ha : off % size = 0) :
    off + size ≤ b.base + b.size :=
  Nat.le_of_lt_add_of_dvd (by omega) ((Nat.dvd_of_mod_eq_zero ha).add dvd_rfl) (h8.trans b.aligned)

/-- Every byte of a buffer is storage (R54). -/
theorem Buf.holds_buffer {b : Buf} (hb : b ≠ .wmat) {off : Nat} (hlo : b.base ≤ off) (hhi : off < b.base + b.size) :
    b.holds off = true := by simp [Buf.holds, hb, hlo, hhi]

/-- The bytes of the low part of a number are the number's own. -/
theorem extractLsb'_low_bytes (v : BitVec 64) {n k : Nat} (hn : n ≤ 8) (hk : k < n) :
    (BitVec.ofNat 64 (v.toNat % 256 ^ n)).extractLsb' (8 * k) 8 = v.extractLsb' (8 * k) 8 := by
  refine BitVec.eq_of_getLsbD_eq fun i hi => ?_
  have hbus : 8 * k + i < 64 := by omega
  have hlow : 8 * k + i < 8 * n := by omega
  simp only [BitVec.getLsbD_extractLsb', BitVec.getLsbD_ofNat, ← two_pow_eight_mul, Nat.testBit_mod_two_pow,
    BitVec.testBit_toNat, hbus, hlow, decide_true, Bool.true_and]

/-- A little-endian write stores byte `k` of the number at offset + k (R55): it is the byte a read back finds there. -/
theorem Memory.byte_writeLE_same {m : Memory} (hm : m.wf) {b : Buf} {n off k : Nat} (v : BitVec 64)
    (hh : ∀ j < n, b.holds (off + j) = true) (hn : n ≤ 8) (hk : k < n) :
    (m.writeLE b n off v.toNat).byte b (off + k) = v.extractLsb' (8 * k) 8 := by
  rw [← Memory.extractLsb'_readLE _ b hn hk, Memory.readLE_writeLE_same b n off v.toNat hm hh, extractLsb'_low_bytes v hn hk]

theorem busStore_buffer (s : State) {off : Nat} {b : Buf} (hb : b ≠ .wmat) (hp : placeOf off = .memory b) (size : Nat)
    (v : BitVec 64) : s.busStore off size v = { s with mem := s.mem.writeLE b size off v.toNat } := by
  rw [State.busStore, hp]
  cases b with
  | wmat => exact absurd rfl hb
  | vbuf | fin | recE | recD | res | coef | mv => rfl

theorem busWrite_buffer {s : State} {off : Offset} {size : Nat} {b : Buf} (v : BitVec 64) (hb : s.busy = false)
    (ha : Accessible off.toNat size) (hw : b ≠ .wmat) (hp : placeOf off.toNat = .memory b) :
    s.busWrite off size v = .next { s with mem := s.mem.writeLE b size off.toNat v.toNat, resp := .ack } := by
  rw [busWrite_performed v (admitted_iff.2 ha) (.inl hb), busStore_buffer s hw hp]

theorem busRead_memory {s : State} {off : Offset} {size : Nat} {b : Buf} (hb : s.busy = false)
    (ha : Accessible off.toNat size) (hp : placeOf off.toNat = .memory b) :
    s.busRead off size = .next { s with resp := .data (BitVec.ofNat 64 (s.mem.readLE b size off.toNat)) } := by
  rw [busRead_performed (admitted_iff.2 ha) (.inl hb), busValue_memory s hp]

/-- Settles O54: the write is the little-endian store of its buffer, all of whose bytes are storage. -/
theorem bufferWritesReadBack : Obligations.BufferWritesReadBack := by
  intro s off size v hb hwf hbuf hsize haligned
  obtain ⟨b, hw, hp⟩ := inBuffer_iff.1 hbuf
  obtain ⟨hlo, hhi⟩ := placeOf_memory_iff.1 hp
  have ha : Accessible off.toNat size := (accessible_buffer hbuf).2 ⟨hsize, haligned⟩
  have h8 : size ∣ 8 := by rcases hsize with rfl | rfl | rfl | rfl <;> decide
  have hend := Buf.access_le hhi h8 haligned
  have hh : ∀ j < size, b.holds (off.toNat + j) = true := fun j hj => Buf.holds_buffer hw (by omega) (by omega)
  refine ⟨_, b, busWrite_buffer v hb ha hw hp, rfl, fun k hk => ?stored, fun b' a hout => ?kept, ?readBack⟩
  case stored => exact Memory.byte_writeLE_same hwf v hh ha.size_le hk
  case kept => exact Memory.byte_writeLE_other b b' _ _ _ _ _ (hout.imp_left Ne.symm)
  case readBack =>
    rw [busRead_memory ?_ ha hp, Memory.readLE_writeLE_same b size _ _ hwf hh]
    exact hb

end Sys2Proof.Machine
end

section
/-! PROOF. The decoder and the encoder of spec/30_encoding.md (R77 to R80, R82): a word is its three fields, a word that decodes
has the fields of its command, and the fields that pass the checks are those of a command. -/

namespace Sys2Proof.Machine

/-! The fields of a word. -/

/-- The three fields of R77 cover the word. -/
@[simp] theorem joinWord_splitWord (w : Word) : joinWord (splitWord w) = w := by
  rw [joinWord, splitWord, BitVec.extractLsb'_append_extractLsb'_eq_extractLsb' (by rfl)]
  exact BitVec.extractLsb'_append_extractLsb'

theorem encode_of_fields {w : Word} {i : Instr} (h : splitWord w = i.fields) : encode i = w := by
  rw [encode, ← h, joinWord_splitWord]

theorem fields_wellFormed (i : Instr) : i.fields.wellFormed = true := by cases i <;> rfl

/-! The words that decode. -/

/-- The commands of the table of plain opcodes have FT = 0 (R79). -/
theorem plainOp_fields {op : BitVec 8} {i : Instr} (h : plainOp op = .ok i) : i.fields = ⟨op, 0#1, 0#23⟩ := by
  unfold plainOp at h
  split at h <;> cases h
  all_goals next hop => exact congrArg (CmdFields.mk · 0#1 0#23) (BitVec.eq_of_toNat_eq hop.symm)

/-- Every opcode of R80's list but QUANT's and DEQUANT's is in the table of plain opcodes. -/
theorem plainOp_of_listed {op : BitVec 8} (h : op ∈ CmdFields.listedOps) (hq : op ≠ 0x20#8) (hd : op ≠ 0x21#8) :
    ∃ i, plainOp op = .ok i := by
  have table : ∀ op ∈ CmdFields.listedOps, op ≠ 0x20#8 → op ≠ 0x21#8 → (plainOp op).isOk = true := by decide
  cases hp : plainOp op with
  | ok i => exact ⟨i, rfl⟩
  | error r => simpa [hp, Except.isOk, Except.toBool] using table op h hq hd

theorem wellFormed_iff (f : CmdFields) :
    f.wellFormed = true ↔
      f.rsv = 0#23 ∧ (f.ft = 0#1 ∨ f.op = 0x20#8 ∨ f.op = 0x21#8) ∧ f.op ∈ CmdFields.listedOps := by
  simp [CmdFields.wellFormed, CmdFields.rsvClear, CmdFields.ftAllowed, CmdFields.opListed, or_assoc, and_assoc]

/-- FT picks the row of QUANT and of DEQUANT (R79). -/
theorem quant_dequant_fields : ∀ ft : BitVec 1,
    (if ft = 1#1 then Instr.quantP else .quantI).fields = ⟨0x20#8, ft, 0#23⟩ ∧
    (if ft = 1#1 then Instr.dequantP else .dequantI).fields = ⟨0x21#8, ft, 0#23⟩ := by decide

section Branches

variable {w : Word}

theorem decode_reserved (hr : (splitWord w).rsv ≠ 0#23) : decode w = .error .reservedBits := if_pos hr

theorem decode_quant (hr : (splitWord w).rsv = 0#23) (hq : (splitWord w).op = 0x20#8) :
    decode w = .ok (if (splitWord w).ft = 1#1 then .quantP else .quantI) := by
  simp [decode, hr, hq]

theorem decode_dequant (hr : (splitWord w).rsv = 0#23) (hd : (splitWord w).op = 0x21#8) :
    decode w = .ok (if (splitWord w).ft = 1#1 then .dequantP else .dequantI) := by
  simp [decode, hr, hd]

theorem decode_other (hr : (splitWord w).rsv = 0#23) (hq : (splitWord w).op ≠ 0x20#8) (hd : (splitWord w).op ≠ 0x21#8) :
    decode w = if (splitWord w).ft = 1#1 then .error .frameTypeBit else plainOp (splitWord w).op := by
  simp [decode, hr, hq, hd]

end Branches

/-- A word that decodes has the fields R78 gives its command: each accepting branch of R82 fixes all three. -/
theorem fields_of_decode {w : Word} {i : Instr} (h : decode w = .ok i) : splitWord w = i.fields := by
  obtain ⟨quant, dequant⟩ := quant_dequant_fields (splitWord w).ft
  by_cases hr : (splitWord w).rsv = 0#23
  · by_cases hq : (splitWord w).op = 0x20#8
    · cases (decode_quant hr hq).symm.trans h
      rw [quant, ← hq, ← hr]
    by_cases hd : (splitWord w).op = 0x21#8
    · cases (decode_dequant hr hd).symm.trans h
      rw [dequant, ← hd, ← hr]
    rw [decode_other hr hq hd] at h
    split at h
    · cases h
    · next hft =>
      have hft : (splitWord w).ft = 0#1 := (BitVec.eq_zero_or_eq_one _).resolve_right hft
      rw [plainOp_fields h, ← hft, ← hr]
  · cases (decode_reserved hr).symm.trans h

/-- A word whose fields pass the checks decodes: no rejecting branch of R82 applies to it. -/
theorem decode_of_wellFormed {w : Word} (h : (splitWord w).wellFormed = true) : ∃ i, decode w = .ok i := by
  obtain ⟨hr, hft, hop⟩ := (wellFormed_iff _).1 h
  by_cases hq : (splitWord w).op = 0x20#8
  · exact ⟨_, decode_quant hr hq⟩
  by_cases hd : (splitWord w).op = 0x21#8
  · exact ⟨_, decode_dequant hr hd⟩
  have hft : (splitWord w).ft = 0#1 := by simpa [hq, hd] using hft
  obtain ⟨i, hi⟩ := plainOp_of_listed hop hq hd
  exact ⟨i, by simp [decode_other hr hq hd, hft, hi]⟩

/-- Settles O3: a decoded word and its command have the same fields, and a word is determined by its fields. -/
theorem decodeAndEncodeAgree : Obligations.DecodeAndEncodeAgree :=
  ⟨fun i => ⟨fields_wellFormed i, decode_encode i⟩,
   fun _ _ h => (encode_of_fields (fields_of_decode h)).symm,
   fun _ => ⟨fun ⟨i, h⟩ => fields_of_decode h ▸ fields_wellFormed i, decode_of_wellFormed⟩⟩

theorem decodeTableWord_encode (i : Instr) : decodeTableWord 32 (encode i).toNat = some i := by
  rw [decodeTableWord, Nat.mod_eq_of_lt (encode i).isLt, BitVec.ofNat_toNat, BitVec.setWidth_eq, decode_encode]
  rfl

/-- Settles O1: the 23 numbers are the words of the 23 commands. -/
theorem tableWordsDecode : Obligations.TableWordsDecode :=
  ⟨decodeTableWord_encode .nop, decodeTableWord_encode .fft, decodeTableWord_encode .ifft, decodeTableWord_encode .dct1d,
   decodeTableWord_encode .idct1d, decodeTableWord_encode .dct2d, decodeTableWord_encode .idct2d,
   decodeTableWord_encode .bdct2d, decodeTableWord_encode .ibdct2d, decodeTableWord_encode .meblk,
   decodeTableWord_encode .memap, decodeTableWord_encode .quantI, decodeTableWord_encode .quantP,
   decodeTableWord_encode .dequantI, decodeTableWord_encode .dequantP, decodeTableWord_encode .dpcmencC,
   decodeTableWord_encode .dpcmdecC, decodeTableWord_encode .dpcmencV, decodeTableWord_encode .dpcmdecV,
   decodeTableWord_encode .encfrm, decodeTableWord_encode .decfrm, decodeTableWord_encode .rstenc,
   decodeTableWord_encode .rstdec⟩

end Sys2Proof.Machine
end

section
/-! PROOF. What every command leaves unchanged: the registers and flags, and the bytes outside the regions its row of R84 lists
(spec/30_encoding.md section 4; spec/20_memory.md R68). -/

namespace Sys2Proof.Machine

/-! Vectors: the checks make the length a power of two, which the transforms keep. -/

theorem len_of_checkFft {s : State} (h : s.checkFft = none) : ∃ m, s.len = 2 ^ m := by
  unfold State.checkFft at h
  split_ifs at h with _ hp
  exact (ispow2_iff _).1 (by simpa using hp)

theorem len_of_checkDct {s : State} (h : s.checkDct = none) : ∃ m, s.len = 2 ^ m := by
  unfold State.checkDct at h
  split_ifs at h with _ hp
  exact (ispow2_iff _).1 (by simpa using hp)

@[simp] theorem vector_length (s : State) (n : Nat) : (s.vector n).length = n := by simp [State.vector]

theorem onReal_length {f : List F64 → List F64} {m : Nat} (hf : ∀ u, u.length = 2 ^ m → (f u).length = 2 ^ m)
    {v : List Cplx} (hv : v.length = 2 ^ m) : (onReal f v).length = 2 ^ m := by
  simp [onReal, hf _ ((List.length_map _).trans hv)]

/-- A transform that keeps the lengths that are powers of two writes only the first VLEN entries of VBUF. -/
theorem kept_onVector {s : State} {f : List Cplx → List Cplx} (hlen : ∃ m, s.len = 2 ^ m)
    (hf : ∀ m v, s.len = 2 ^ m → v.length = 2 ^ m → (f v).length = 2 ^ m) :
    KeptOutside s.mem (s.onVector f).mem [(.vbuf, 1, 2 * s.len)] := by
  obtain ⟨m, hm⟩ := hlen
  exact Memory.kept_putVector _ ((hf m _ hm (by rw [vector_length, hm])).trans hm.symm)

/-! Regions. -/

theorem kept_onCoefs {s : State} {f : Grid F64 → Grid F64} (hf : Shaped s.height s.width (f s.coefs)) :
    KeptOutside s.mem (s.onCoefs f).mem [(.coef, s.height, s.width)] := Memory.kept_putCoefs _ hf

theorem kept_onField {s : State} {f : Grid Vec → Grid Vec} (hf : Shaped s.fieldRows s.fieldCols (f s.field)) :
    KeptOutside s.mem (s.onField f).mem [(.mv, s.fieldRows, s.fieldCols)] := Memory.kept_putField _ hf

/-! The frame pipeline. -/

theorem shaped_searchMap (s : State) : Shaped s.fieldRows s.fieldCols s.searchMap := shaped_meMap _ _ _ _ _ _ _

theorem shaped_reconIntra (s : State) (q : Grid F64) : Shaped s.height s.width (s.reconIntra q) :=
  shaped_map _ (shaped_dequantize _ _ _ _ _ _ _)

theorem shaped_reconPred (s : State) (p : Grid Byte) (m : Grid Vec) (q : Grid F64) :
    Shaped s.height s.width (s.reconPred p m q) := shaped_gridOf _ _ _

theorem shaped_decoded (s : State) : Shaped s.height s.width s.decoded := by
  unfold State.decoded
  split
  · exact shaped_reconPred _ _ _ _
  · exact shaped_reconIntra _ _

/-- Coded coefficients and reconstruction have the shape of the frame, Intra or Predicted. -/
theorem shaped_encoded (s : State) :
    Shaped s.height s.width s.encoded.coefs ∧ Shaped s.height s.width s.encoded.recon := by
  unfold State.encoded
  split
  · exact ⟨shaped_dpcmEnc _ _ _ (shaped_quantize _ _ _ _ _ _ _), shaped_reconPred _ _ _ _⟩
  · exact ⟨shaped_dpcmEnc _ _ _ (shaped_quantize _ _ _ _ _ _ _), shaped_reconIntra _ _⟩

/-- The coded field of a frame is written in Steady alone (R137). -/
theorem kept_putCodedField (s : State) (m : Memory) :
    KeptOutside m (m.putCodedField s.encoded.field) (if s.steadyE then [(.mv, s.fieldRows, s.fieldCols)] else []) := by
  unfold State.encoded
  split
  · exact Memory.kept_putField m (shaped_dpcmEnc _ _ _ (shaped_searchMap s))
  · exact KeptOutside.refl _ _

theorem kept_commitEnc (s : State) : KeptOutside s.mem (s.commitEnc s.encoded).mem (outputs .encfrm s) := by
  obtain ⟨hcoefs, hrecon⟩ := shaped_encoded s
  have kept := (((Memory.kept_putCoefs s.mem hcoefs).append (kept_putCodedField s _)).append
    (Memory.kept_putPixels _ .recE hrecon)).append (Memory.kept_forget _ s.draw .res s.height s.width)
  refine kept.mono fun r hr => ?_
  simp only [outputs, List.mem_append, List.mem_cons] at hr ⊢
  tauto

theorem kept_commitDec (s : State) : KeptOutside s.mem (s.commitDec s.decoded).mem (outputs .decfrm s) :=
  (Memory.kept_putPixels s.mem .recD (shaped_decoded s)).append (Memory.kept_forget _ s.draw .res s.height s.width)

/-! Every command. -/

/-- A command whose checks pass keeps every byte outside the regions its row of R84 lists as written. -/
theorem kept_effectOf {i : Instr} {s : State} (hc : checkOf i s = none) :
    KeptOutside s.mem (effectOf i s).mem (outputs i s) := by
  cases i with
  | nop | meblk | rstenc | rstdec => exact KeptOutside.refl _ _
  | fft => exact kept_onVector (len_of_checkFft hc) fun m v hm hv => by rw [hm, Nat.log2_two_pow]; exact fft_length m v hv
  | ifft => exact kept_onVector (len_of_checkFft hc) fun m v hm hv => by rw [hm, Nat.log2_two_pow]; exact ifft_length m v hv
  | dct1d => exact kept_onVector (len_of_checkDct hc) fun m _ _ hv => onReal_length (dct1d_length m) hv
  | idct1d => exact kept_onVector (len_of_checkDct hc) fun m _ _ hv => onReal_length (idct1d_length m) hv
  | dct2d | idct2d => exact kept_onCoefs (shaped_t2d _ _ _ _)
  | bdct2d | ibdct2d => exact kept_onCoefs (shaped_blk _ _ _ _ _ _)
  | dpcmencC => exact kept_onCoefs (shaped_dpcmEnc _ _ _ (shaped_coefs s))
  | dpcmdecC => exact kept_onCoefs (shaped_dpcmDec _ _ (shaped_coefs s))
  | quantI | quantP => exact Memory.kept_putCoefs _ (shaped_quantize _ _ _ _ _ _ _)
  | dequantI | dequantP => exact Memory.kept_putResiduals _ (shaped_dequantize _ _ _ _ _ _ _)
  | memap => exact Memory.kept_putField _ (shaped_searchMap s)
  | dpcmencV => exact kept_onField (shaped_dpcmEnc _ _ _ (shaped_field s))
  | dpcmdecV => exact kept_onField (shaped_dpcmDec _ _ (shaped_field s))
  | encfrm => exact kept_commitEnc s
  | decfrm => exact kept_commitDec s

/-- What a command can do: end with an error, or take its effect, its checks passed, and complete (R160, R162). -/
theorem exec_cases {i : Instr} {s t : State} (h : exec i s = .next t) :
    (∃ e, t = s.raise e) ∨ (checkOf i s = none ∧ t = (effectOf i s).complete) := by
  rw [exec_eq_finish] at h
  exact (finish_cases h).imp_left fun ⟨e, _, ht⟩ => ⟨e, ht⟩

theorem kept_exec {i : Instr} {s t : State} (h : exec i s = .next t) : KeptOutside s.mem t.mem (outputs i s) := by
  rcases exec_cases h with ⟨e, rfl⟩ | ⟨hc, rfl⟩
  · exact KeptOutside.refl _ _
  · exact kept_effectOf hc

/-- A command whose row of R84 lists no region leaves the memories as they are. -/
theorem mem_exec_of_no_outputs {i : Instr} {s t : State} (hi : outputs i s = []) (h : exec i s = .next t) :
    t.mem = s.mem := by
  rcases exec_cases h with ⟨e, rfl⟩ | ⟨-, rfl⟩
  · rfl
  · cases i with
    | nop | meblk | rstenc | rstdec => rfl
    | _ => cases hi

/-- Settles O8. The registers and flags are read off the error's update and, row by row, off the effect's; the memories are
those of `outputs`, which are the regions the statement lists. -/
theorem commandWritesOnlyWhatItsRowLists : Obligations.CommandWritesOnlyWhatItsRowLists := by
  intro i s t h
  constructor
  · rcases exec_cases h with ⟨e, rfl⟩ | ⟨-, rfl⟩
    · cases i <;> rfl
    · cases i <;> rfl
  · cases i with
    | nop | meblk | rstenc | rstdec => exact mem_exec_of_no_outputs rfl h
    | _ => exact kept_exec h

end Sys2Proof.Machine
end

section
/-! PROOF. The radix-2 recursion of spec/40_transform.md R89 output by output, and the iterative pipeline of R90, which equals it. -/

namespace Sys2Proof.Machine

/-! The even- and the odd-indexed samples. -/

theorem evens_getElem? {α : Type} : ∀ (l : List α) (k : Nat), (evens l)[k]? = l[2 * k]?
  | [], _ => by simp [evens]
  | [_], 0 => rfl
  | [_], _ + 1 => by simp [evens]
  | _ :: _ :: _, 0 => rfl
  | _ :: _ :: l, k + 1 => by simpa [evens, Nat.mul_succ] using evens_getElem? l k

theorem odds_getElem? {α : Type} : ∀ (l : List α) (k : Nat), (odds l)[k]? = l[2 * k + 1]?
  | [], _ => by simp [odds]
  | [_], _ => by simp [odds]
  | _ :: _ :: _, 0 => rfl
  | _ :: _ :: l, k + 1 => by simpa [odds, Nat.mul_succ] using odds_getElem? l k

theorem evens_getD {α : Type} (l : List α) (k : Nat) (z : α) : (evens l).getD k z = l.getD (2 * k) z := by
  simp only [List.getD_eq_getElem?_getD, evens_getElem?]

theorem odds_getD {α : Type} (l : List α) (k : Nat) (z : α) : (odds l).getD k z = l.getD (2 * k + 1) z := by
  simp only [List.getD_eq_getElem?_getD, odds_getElem?]

theorem evens_length_pow {α : Type} {m : Nat} {l : List α} (h : l.length = 2 ^ (m + 1)) : (evens l).length = 2 ^ m := by
  rw [evens_length, h, pow_succ]; omega

theorem odds_length_pow {α : Type} {m : Nat} {l : List α} (h : l.length = 2 ^ (m + 1)) : (odds l).length = 2 ^ m := by
  rw [odds_length, h, pow_succ]; omega

/-- A list given by its entries. -/
theorem eq_map_range_of_getElem? {α : Type} {l : List α} {n : Nat} {f : Nat → α} (hl : l.length = n)
    (h : ∀ k < n, l[k]? = some (f k)) : l = (List.range n).map f := by
  refine List.ext_getElem (by simp [hl]) fun k hk _ => ?_
  have hkn : k < n := hl ▸ hk
  simpa [List.getElem?_eq_getElem hk] using h k hkn

theorem getElem?_eq_some_getD {α : Type} (z : α) {l : List α} {k : Nat} (h : k < l.length) : l[k]? = some (l.getD k z) := by
  simp [h]

/-- A list is the list of its entries. -/
theorem eq_map_range_getD {α : Type} (z : α) {l : List α} {n : Nat} (h : l.length = n) :
    l = (List.range n).map fun k => l.getD k z :=
  eq_map_range_of_getElem? h fun _ hk => getElem?_eq_some_getD z (h ▸ hk)

theorem evens_eq_map_range {α : Type} (z : α) {m : Nat} {l : List α} (h : l.length = 2 ^ (m + 1)) :
    evens l = (List.range (2 ^ m)).map fun j => l.getD (2 * j) z := by
  simp only [← evens_getD]; exact eq_map_range_getD z (evens_length_pow h)

theorem odds_eq_map_range {α : Type} (z : α) {m : Nat} {l : List α} (h : l.length = 2 ^ (m + 1)) :
    odds l = (List.range (2 ^ m)).map fun j => l.getD (2 * j + 1) z := by
  simp only [← odds_getD]; exact eq_map_range_getD z (odds_length_pow h)

/-! The combining stage. -/

theorem twiddled_getElem? (N : Nat) :
    ∀ (l : List Cplx) (j k : Nat), (twiddled N j l)[k]? = l[k]?.map (cmul (twiddle N (j + k)))
  | [], _, _ => by simp [twiddled]
  | _ :: _, _, 0 => rfl
  | _ :: l, j, k + 1 => by
    simpa only [twiddled, List.getElem?_cons_succ, Nat.add_right_comm j 1 k, ← Nat.add_assoc j k 1] using
      twiddled_getElem? N l (j + 1) k

/-- The butterflies of span N on the transforms of the two halves (R89). -/
def butterflies (N : Nat) (E O : List Cplx) : List Cplx :=
  List.zipWith cadd E (twiddled N 0 O) ++ List.zipWith csub E (twiddled N 0 O)

theorem fft_succ (m : Nat) (x : List Cplx) :
    fft (m + 1) x = butterflies (2 ^ (m + 1)) (fft m (evens x)) (fft m (odds x)) := rfl

theorem butterflies_length {N n : Nat} {E O : List Cplx} (hE : E.length = n) (hO : O.length = n) :
    (butterflies N E O).length = n + n := by simp [butterflies, twiddled_length, hE, hO]

theorem butterflies_low {N n k : Nat} {E O : List Cplx} (hE : E.length = n) (hO : O.length = n) (hk : k < n) :
    (butterflies N E O)[k]? = some (cadd (E.getD k czero) (cmul (twiddle N k) (O.getD k czero))) := by
  subst hE
  rw [butterflies, List.getElem?_append_left (by simpa [twiddled_length, hO] using hk)]
  simp [List.getElem?_zipWith, twiddled_getElem?, hk, hO ▸ hk]

theorem butterflies_high {N n k : Nat} {E O : List Cplx} (hE : E.length = n) (hO : O.length = n) (hk : k < n) :
    (butterflies N E O)[k + n]? = some (csub (E.getD k czero) (cmul (twiddle N k) (O.getD k czero))) := by
  subst hE
  rw [butterflies, List.getElem?_append_right (by simp [twiddled_length, hO]), List.length_zipWith, twiddled_length, hO,
    Nat.min_self, Nat.add_sub_cancel]
  simp [List.getElem?_zipWith, twiddled_getElem?, hk, hO ▸ hk]

theorem cmul_comm (x y : Cplx) : cmul x y = cmul y x := by
  simp only [cmul, Cplx.mk.injEq]
  exact ⟨by rw [fmul_comm x.re, fmul_comm x.im], by rw [fadd_comm, fmul_comm x.im, fmul_comm x.re]⟩

/-- Settles O18: `fft` on 2^(m+1) entries is one stage of butterflies on the transforms of the two halves. -/
theorem fftIsTheRadixTwoRecursion : Obligations.FftIsTheRadixTwoRecursion := by
  refine ⟨fun x => rfl, fun m x E O hx hE hO => ?_, cmul_comm⟩
  rw [← evens_eq_map_range czero hx] at hE
  rw [← odds_eq_map_range czero hx] at hO
  have hlE : E.length = 2 ^ m := hE ▸ fft_length m _ (evens_length_pow hx)
  have hlO : O.length = 2 ^ m := hO ▸ fft_length m _ (odds_length_pow hx)
  refine ⟨fft_length _ _ hx, fun k hk => ?_⟩
  rw [fft_succ, ← hE, ← hO]
  exact ⟨butterflies_low hlE hlO hk, butterflies_high hlE hlO hk⟩

/-! One stage of the pipeline. -/

@[simp] theorem fftStage_length (M : Nat) (a : List Cplx) : (fftStage M a).length = a.length := by simp [fftStage]

theorem fftStage_low {M i : Nat} {a : List Cplx} (hi : i < a.length) (hk : i % M < M / 2) :
    (fftStage M a)[i]? =
      some (cadd (a.getD i czero) (cmul (twiddle M (i % M)) (a.getD (i + M / 2) czero))) := by
  simp only [fftStage, List.getElem?_map, List.getElem?_range hi, Option.map_some, if_pos hk]

theorem fftStage_high {M i : Nat} {a : List Cplx} (hi : i < a.length) (hk : ¬i % M < M / 2) :
    (fftStage M a)[i]? =
      some (csub (a.getD (i - M / 2) czero) (cmul (twiddle M (i % M - M / 2)) (a.getD i czero))) := by
  simp only [fftStage, List.getElem?_map, List.getElem?_range hi, Option.map_some, if_neg hk]

/-- In groups of M, an index plus an offset that stays in its group stays below the end of the last group. -/
theorem add_lt_of_mod_add_lt {M p i d : Nat} (hi : i < M * p) (hd : i % M + d < M) : i + d < M * p := by
  have hgroup : i / M + 1 ≤ p := Nat.div_lt_of_lt_mul hi
  have hend : M * (i / M + 1) ≤ M * p := Nat.mul_le_mul_left M hgroup
  have hsplit := Nat.div_add_mod i M
  rw [Nat.mul_add] at hend
  omega

/-- A stage works on each of its groups alone, so on the two parts of a list cut between groups. -/
theorem fftStage_append {M p : Nat} (hM : 0 < M) {a b : List Cplx} (ha : a.length = M * p) :
    fftStage M (a ++ b) = fftStage M a ++ fftStage M b := by
  refine List.ext_getElem? fun i => ?_
  by_cases hab : (a ++ b).length ≤ i
  · rw [List.getElem?_eq_none (by simpa using hab), List.getElem?_eq_none (by simpa using hab)]
  rw [List.length_append] at hab
  by_cases hi : i < a.length
  · rw [List.getElem?_append_left (by simpa using hi)]
    by_cases hk : i % M < M / 2
    · have hpair : i + M / 2 < a.length := ha ▸ add_lt_of_mod_add_lt (ha ▸ hi) (by omega)
      rw [fftStage_low hi hk, fftStage_low (by simp; omega) hk, List.getD_append _ _ _ _ hi,
        List.getD_append _ _ _ _ hpair]
    · rw [fftStage_high hi hk, fftStage_high (by simp; omega) hk, List.getD_append _ _ _ _ hi,
        List.getD_append _ _ _ _ (by omega)]
  · obtain ⟨j, rfl⟩ : ∃ j, i = a.length + j := ⟨i - a.length, by omega⟩
    have hj : j < b.length := by omega
    have hmod : (a.length + j) % M = j % M := by rw [ha, Nat.mul_add_mod]
    have hle := Nat.mod_le j M
    rw [List.getElem?_append_right (by simp), fftStage_length, Nat.add_sub_cancel_left]
    by_cases hk : j % M < M / 2
    · rw [fftStage_low hj hk, fftStage_low (by simp; omega) (hmod ▸ hk), hmod,
        List.getD_append_right _ _ _ _ (by omega), List.getD_append_right _ _ _ _ (by omega), Nat.add_assoc,
        Nat.add_sub_cancel_left, Nat.add_sub_cancel_left]
    · rw [fftStage_high hj hk, fftStage_high (by simp; omega) (hmod ▸ hk), hmod,
        List.getD_append_right _ _ _ _ (by omega), List.getD_append_right _ _ _ _ (by omega),
        Nat.add_sub_assoc (by omega), Nat.add_sub_cancel_left, Nat.add_sub_cancel_left]

/-- A stage of span 2n on two halves of n entries is the combining step of the recursion. -/
theorem fftStage_eq_butterflies {n : Nat} {E O : List Cplx} (hE : E.length = n) (hO : O.length = n) :
    fftStage (2 * n) (E ++ O) = butterflies (2 * n) E O := by
  refine List.ext_getElem? fun i => ?_
  by_cases hi : 2 * n ≤ i
  · rw [List.getElem?_eq_none (by simp; omega), List.getElem?_eq_none (by rw [butterflies_length hE hO]; omega)]
  have hlen : i < (E ++ O).length := by simp; omega
  have hmod : i % (2 * n) = i := Nat.mod_eq_of_lt (by omega)
  have hhalf : 2 * n / 2 = n := by omega
  by_cases hk : i < n
  · rw [fftStage_low hlen (by omega), butterflies_low hE hO hk, hmod, hhalf, List.getD_append _ _ _ _ (by omega),
      List.getD_append_right _ _ _ _ (by omega), hE, Nat.add_sub_cancel]
  · obtain ⟨k, rfl⟩ : ∃ k, i = k + n := ⟨i - n, by omega⟩
    rw [fftStage_high hlen (by omega), butterflies_high hE hO (by omega), hmod, hhalf, Nat.add_sub_cancel,
      List.getD_append _ _ _ _ (by omega), List.getD_append_right _ _ _ _ (by omega), hE, Nat.add_sub_cancel]

/-! The stages. -/

@[simp] theorem fftStages_length : ∀ (m : Nat) (a : List Cplx), (fftStages m a).length = a.length
  | 0, _ => rfl
  | m + 1, a => by rw [fftStages, fftStage_length, fftStages_length m a]

/-- The first m stages stay inside groups of 2^m entries. -/
theorem fftStages_append {a b : List Cplx} :
    ∀ {m p : Nat}, a.length = 2 ^ m * p → fftStages m (a ++ b) = fftStages m a ++ fftStages m b
  | 0, _, _ => rfl
  | m + 1, p, ha => by
    have hm : a.length = 2 ^ m * (2 * p) := by rw [ha, pow_succ, Nat.mul_assoc]
    rw [fftStages, fftStages_append hm, fftStage_append (Nat.two_pow_pos _) ((fftStages_length m a).trans ha)]
    rfl

/-! The bit-reversed load. -/

/-- The top index bit becomes the bottom bit. -/
theorem bitrev_top {c : Nat} (hc : c < 2) :
    ∀ {m k : Nat}, k < 2 ^ m → bitrev (m + 1) (c * 2 ^ m + k) = 2 * bitrev m k + c
  | 0, k, hk => by
    obtain rfl : k = 0 := by simpa using hk
    simp [bitrev, Nat.mod_eq_of_lt hc]
  | m + 1, k, hk => by
    have hk' : k / 2 < 2 ^ m := by rw [pow_succ] at hk; omega
    have hshift : c * 2 ^ (m + 1) + k = 2 * (c * 2 ^ m) + k := by ring
    have hbit : (c * 2 ^ (m + 1) + k) % 2 = k % 2 := by omega
    have hrest : (c * 2 ^ (m + 1) + k) / 2 = c * 2 ^ m + k / 2 := by omega
    rw [bitrev, hbit, hrest, bitrev_top hc hk', bitrev]
    ring

/-- The load of the pipeline: entry k is sample `bitrev m k` (R90). -/
def bitrevLoad (m : Nat) (x : List Cplx) : List Cplx := (List.range (2 ^ m)).map fun k => x.getD (bitrev m k) czero

theorem fftIter_eq (m : Nat) (x : List Cplx) : fftIter m x = fftStages m (bitrevLoad m x) := rfl

@[simp] theorem bitrevLoad_length (m : Nat) (x : List Cplx) : (bitrevLoad m x).length = 2 ^ m := by simp [bitrevLoad]

/-- The load puts the even-indexed samples in the first half and the odd-indexed in the second, each bit-reversed. -/
theorem bitrevLoad_succ (m : Nat) (x : List Cplx) :
    bitrevLoad (m + 1) x = bitrevLoad m (evens x) ++ bitrevLoad m (odds x) := by
  have hlow : ∀ k < 2 ^ m, bitrev (m + 1) k = 2 * bitrev m k := fun k hk => by simpa using bitrev_top (c := 0) (by omega) hk
  have hhigh : ∀ k < 2 ^ m, bitrev (m + 1) (2 ^ m + k) = 2 * bitrev m k + 1 := fun k hk => by
    simpa using bitrev_top (c := 1) (by omega) hk
  have hsplit : 2 ^ (m + 1) = 2 ^ m + 2 ^ m := by ring
  simp only [bitrevLoad, hsplit, List.range_add, List.map_append, List.map_map, evens_getD, odds_getD]
  congr 1
  · exact List.map_congr_left fun k hk => by rw [hlow k (List.mem_range.1 hk)]
  · exact List.map_congr_left fun k hk => by rw [Function.comp, hhigh k (List.mem_range.1 hk)]

/-- Settles O19, by induction on m: on the two halves of the load the first m stages are the two recursive transforms, and the last
stage combines them. -/
theorem iterativePipelineEqualsRecursion : Obligations.IterativePipelineEqualsRecursion := by
  intro m
  induction m with
  | zero =>
    intro x hx
    obtain ⟨a, rfl⟩ := List.length_eq_one_iff.1 hx
    rfl
  | succ m ih =>
    intro x hx
    have hE := ih (evens x) (evens_length_pow hx)
    have hO := ih (odds x) (odds_length_pow hx)
    rw [fftIter_eq] at hE hO
    have hspan : 2 ^ (m + 1) = 2 * 2 ^ m := by ring
    calc fftIter (m + 1) x
        = fftStage (2 ^ (m + 1)) (fftStages m (bitrevLoad m (evens x) ++ bitrevLoad m (odds x))) := by
          rw [← bitrevLoad_succ]; rfl
      _ = fftStage (2 ^ (m + 1)) (fft m (evens x) ++ fft m (odds x)) := by
          rw [fftStages_append (p := 1) (by simp), hE, hO]
      _ = butterflies (2 ^ (m + 1)) (fft m (evens x)) (fft m (odds x)) := by
          rw [hspan]
          exact fftStage_eq_butterflies (fft_length m _ (evens_length_pow hx)) (fft_length m _ (odds_length_pow hx))
      _ = fft (m + 1) x := (fft_succ m x).symm

end Sys2Proof.Machine
end

section
/-! PROOF. The inverse transform of spec/40_transform.md R91, with its scale 2^-m, and the DCT pair of R92 and R93 over it. -/

namespace Sys2Proof.Machine

/-! The scale 2^-m. -/

theorem magUnits_twoToMinus {m : Nat} (hm : m ≤ 1022) : magUnits ((1023 - m) * 2 ^ 52) * 2 ^ m = oneUnits := by
  have hmag : (1023 - m) * 2 ^ 52 = (1022 - m) * 2 ^ 52 + 2 ^ 52 := by
    rw [show 1023 - m = 1022 - m + 1 by omega, Nat.add_mul, Nat.one_mul]
  rw [hmag, magUnits_scaled (Nat.pow_le_pow_right two_pos (by norm_num)) (.inr le_rfl), oneUnits, ← pow_add, ← pow_add]
  congr 1
  omega

theorem twoToMinus_spec {m : Nat} (hm : m ≤ 1022) :
    isFinite (twoToMinus m) = true ∧ ratOf (twoToMinus m) = 1 / 2 ^ m := by
  have hinf : (1023 - m) * 2 ^ 52 < infBits := by unfold infBits; omega
  have hunits : (magUnits ((1023 - m) * 2 ^ 52) : ℚ) * 2 ^ m = 2 ^ 1074 := by
    rw [← oneUnits_cast, ← magUnits_twoToMinus hm]; push_cast; rfl
  constructor
  · rw [isFinite_iff, twoToMinus, magBits_packBits _ (hinf.trans infBits_lt)]
    exact hinf
  · rw [ratOf, twoToMinus, value_packBits_pos hinf, Int.cast_natCast, div_eq_div_iff (by positivity) (by positivity), one_mul]
    exact hunits

theorem twoToMinus_zero : twoToMinus 0 = one := by decide

/-! The inverse transform. -/

@[simp] theorem conj_conj (x : Cplx) : conj (conj x) = x := by simp [conj]

/-- The scale by 2^0 changes no bit, of a NaN either (R98). -/
@[simp] theorem cscale_zero (x : Cplx) : cscale x 0 = x := by simp [cscale, twoToMinus_zero, fmul_one]

theorem ifft_getElem? (m k : Nat) (x : List Cplx) :
    (ifft m x)[k]? = (fft m (x.map conj))[k]?.map fun y => cscale (conj y) m := by rw [ifft, List.getElem?_map]

/-- Settles O20: `cscale` of a conjugate is the two products of R91, and 2^-0 is 1.0, which leaves every pattern as it is. -/
theorem ifftIsTheConjugateTrick : Obligations.IfftIsTheConjugateTrick := by
  refine ⟨fun m x hx => ⟨ifft_length m x hx, fun k _ y hy => ?_⟩, fun m hm => twoToMinus_spec (by omega), fun x => ?_⟩
  · have hy : (fft m (x.map conj))[k]? = some y := hy
    rw [ifft_getElem?, hy]
    rfl
  · simp [ifft, fft]

/-! The forward DCT. -/

theorem rotated_getElem? (n : Nat) :
    ∀ (l : List Cplx) (j k : Nat), (rotated n j l)[k]? = l[k]?.map fun y => (cmul y (rotFwd n (j + k))).re
  | [], _, _ => by simp [rotated]
  | _ :: _, _, 0 => rfl
  | _ :: l, j, k + 1 => by
    simpa only [rotated, List.getElem?_cons_succ, Nat.add_right_comm j 1 k, ← Nat.add_assoc j k 1] using
      rotated_getElem? n l (j + 1) k

/-- The symmetric extension of R92: the reversed copy, then the original. -/
theorem extension_eq {u : List F64} {n : Nat} (hu : u.length = n) :
    u.reverse.map cplx ++ u.map cplx = (List.range (2 * n)).map fun p =>
      if p < n then (⟨u.getD (n - 1 - p) 0#64, 0#64⟩ : Cplx) else ⟨u.getD (p - n) 0#64, 0#64⟩ := by
  refine eq_map_range_of_getElem? (by simp [hu]; omega) fun p hp => ?_
  by_cases hpn : p < n
  · rw [if_pos hpn, List.getElem?_append_left (by simpa [hu] using hpn), List.getElem?_map,
      List.getElem?_reverse (by omega), hu, getElem?_eq_some_getD 0#64 (by omega)]
    rfl
  · rw [if_neg hpn, List.getElem?_append_right (by simp; omega), List.length_map, List.length_reverse, hu,
      List.getElem?_map, getElem?_eq_some_getD 0#64 (by omega)]
    rfl

theorem dct1d_getElem? {m k : Nat} {u : List F64} (hu : u.length = 2 ^ m) (hk : k < 2 ^ m) :
    (dct1d u)[k]? =
      some (cmul ((fft (m + 1) (u.reverse.map cplx ++ u.map cplx)).getD k czero) (rotFwd (2 ^ m) k)).re := by
  have hlen := fft_length (m + 1) (u.reverse.map cplx ++ u.map cplx) (by simp [hu, pow_succ]; omega)
  have hk2 : k < 2 ^ (m + 1) := by rw [pow_succ]; omega
  simp only [dct1d, hu, Nat.log2_two_pow]
  rw [rotated_getElem?, List.getElem?_take_of_lt hk, getElem?_eq_some_getD czero (hlen ▸ hk2), Nat.zero_add]
  rfl

/-! The inverse DCT. -/

theorem unrotated_getElem? (n : Nat) :
    ∀ (l : List F64) (j k : Nat), (unrotated n j l)[k]? = l[k]?.map fun x => cmul (cplx x) (rotInv n (j + k))
  | [], _, _ => by simp [unrotated]
  | _ :: _, _, 0 => rfl
  | _ :: l, j, k + 1 => by
    simpa only [unrotated, List.getElem?_cons_succ, Nat.add_right_comm j 1 k, ← Nat.add_assoc j k 1] using
      unrotated_getElem? n l (j + 1) k

theorem unrotated_one_getElem? (n : Nat) {l : List F64} {i : Nat} (hi : i < l.length) :
    (unrotated n 1 l)[i]? = some (cmul (cplx (l.getD i 0#64)) (rotInv n (i + 1))) := by
  rw [unrotated_getElem?, getElem?_eq_some_getD 0#64 hi, Nat.add_comm 1 i]
  rfl

/-! The four parts of the spectrum (R93). -/

theorem spectrum_zero (x : F64) (xs : List F64) : (spectrum (x :: xs))[0]? = some (cplx x) := rfl

theorem spectrum_rotated (x : F64) {xs : List F64} {i : Nat} (hi : i < xs.length) :
    (spectrum (x :: xs))[i + 1]? = some (cmul (cplx (xs.getD i 0#64)) (rotInv (xs.length + 1) (i + 1))) := by
  rw [spectrum, List.cons_append, List.getElem?_cons_succ, List.getElem?_append_left (by rwa [unrotated_length]),
    unrotated_one_getElem? _ hi]

theorem spectrum_middle (x : F64) (xs : List F64) : (spectrum (x :: xs))[xs.length + 1]? = some czero := by
  rw [spectrum, List.cons_append, List.getElem?_cons_succ, List.getElem?_append_right (by rw [unrotated_length]),
    unrotated_length, Nat.sub_self, List.getElem?_cons_zero]

theorem spectrum_mirrored (x : F64) {xs : List F64} {i : Nat} (hi : i < xs.length) :
    (spectrum (x :: xs))[2 * (xs.length + 1) - (i + 1)]? =
      some (conj (cmul (cplx (xs.getD i 0#64)) (rotInv (xs.length + 1) (i + 1)))) := by
  obtain ⟨d, hd⟩ : ∃ d, xs.length = i + 1 + d := ⟨xs.length - (i + 1), by omega⟩
  have hpos : 2 * (xs.length + 1) - (i + 1) = xs.length + 1 + d + 1 := by omega
  rw [hpos, spectrum, List.cons_append, List.getElem?_cons_succ, List.getElem?_append_right (by rw [unrotated_length]; omega),
    unrotated_length, show xs.length + 1 + d - xs.length = d + 1 by omega, List.getElem?_cons_succ,
    List.getElem?_reverse (by rw [List.length_map, unrotated_length]; omega), List.length_map, unrotated_length,
    show xs.length - 1 - d = i by omega, List.getElem?_map, unrotated_one_getElem? _ hi, Option.map_some]

/-- The spectrum of R93 entry by entry. -/
theorem spectrum_eq {u : List F64} {n : Nat} (hu : u.length = n) (hn : 0 < n) :
    spectrum u = (List.range (2 * n)).map fun j =>
      if j = 0 then (⟨u.getD 0 0#64, 0#64⟩ : Cplx)
      else if j < n then cmul ⟨u.getD j 0#64, 0#64⟩ (rotInv n j)
      else if j = n then ⟨0#64, 0#64⟩
      else conj (cmul ⟨u.getD (2 * n - j) 0#64, 0#64⟩ (rotInv n (2 * n - j))) := by
  cases u with
  | nil => exact absurd hu hn.ne
  | cons x xs =>
    rw [List.length_cons] at hu
    subst hu
    refine eq_map_range_of_getElem? (spectrum_length _) fun j hj => ?_
    rcases j with _ | j
    · exact spectrum_zero x xs
    rw [if_neg (Nat.succ_ne_zero j)]
    by_cases hlow : j < xs.length
    · rw [if_pos (by omega), List.getD_cons_succ]
      exact spectrum_rotated x hlow
    rw [if_neg (by omega)]
    by_cases hmid : j = xs.length
    · subst hmid
      rw [if_pos rfl]
      exact spectrum_middle x xs
    · obtain ⟨i, hi⟩ : ∃ i, 2 * (xs.length + 1) - (j + 1) = i + 1 := ⟨2 * (xs.length + 1) - (j + 1) - 1, by omega⟩
      rw [if_neg (by omega), hi, List.getD_cons_succ, show j + 1 = 2 * (xs.length + 1) - (i + 1) by omega]
      exact spectrum_mirrored x (by omega)

theorem idct1d_getElem? {m p : Nat} {u : List F64} (hu : u.length = 2 ^ m) (hp : p < 2 ^ m) :
    (idct1d u)[p]? = some ((ifft (m + 1) (spectrum u)).getD (2 ^ m + p) czero).re := by
  have hlen := ifft_length (m + 1) (spectrum u) (by rw [spectrum_length, hu, pow_succ]; omega)
  have hp2 : 2 ^ m + p < 2 ^ (m + 1) := by rw [pow_succ]; omega
  simp only [idct1d, hu, Nat.log2_two_pow]
  rw [List.getElem?_map, List.getElem?_drop, getElem?_eq_some_getD czero (hlen ▸ hp2)]
  rfl

/-- Settles O21: the statement's vector is the symmetric extension and its spectrum is `spectrum`, entry by entry. -/
theorem dctPairIsBuiltOnTheFft : Obligations.DctPairIsBuiltOnTheFft := by
  intro m u hu n y z
  have hy : y = u.reverse.map cplx ++ u.map cplx := (extension_eq hu).symm
  have hz : z = spectrum u := (spectrum_eq hu (Nat.two_pow_pos m)).symm
  rw [hy, hz]
  exact ⟨dct1d_length m u hu, fun k hk => dct1d_getElem? hu hk, idct1d_length m u hu, fun p hp => idct1d_getElem? hu hp⟩

end Sys2Proof.Machine
end

section
/-! PROOF. The transforms of matrices: rows before columns (spec/40_transform.md R95), and tile by tile (R96). -/

namespace Sys2Proof.Machine

/-! Elements and extensionality of matrices. -/

theorem gridAt_eq_getElem {α : Type} (z : α) {h w y x : Nat} {m : Grid α} (hm : Shaped h w m) (hy : y < h) (hx : x < w) :
    ∃ (hy' : y < m.length) (hx' : x < m[y].length), gridAt m z y x = m[y][x] := by
  have hy' : y < m.length := hm.1.symm ▸ hy
  have hx' : x < m[y].length := hm.2 _ (List.getElem_mem hy') ▸ hx
  exact ⟨hy', hx', by simp [gridAt, hy', hx']⟩

theorem shaped_ext {α : Type} (z : α) {h w : Nat} {m m' : Grid α} (hm : Shaped h w m) (hm' : Shaped h w m')
    (he : ∀ y < h, ∀ x < w, gridAt m z y x = gridAt m' z y x) : m = m' := by
  refine List.ext_getElem (hm.1.trans hm'.1.symm) fun y hy hy' => ?_
  have hw := hm.2 _ (List.getElem_mem hy)
  refine List.ext_getElem (hw.trans (hm'.2 _ (List.getElem_mem hy')).symm) fun x hx hx' => ?_
  simpa [gridAt, hy, hy', hx, hx'] using he y (hm.1 ▸ hy) x (hw ▸ hx)

/-! Rows, then columns. -/

theorem columns_getD {w x : Nat} (m : Grid F64) (hx : x < w) :
    (columns w m).getD x [] = m.map fun r => r.getD x posZero := by simp [columns, hx]

/-- Element (y, x) of a 2-D transform: element y of the transformed column x of the transformed rows. -/
theorem gridAt_t2d (f : List F64 → List F64) {h w y x : Nat} (m : Grid F64) (hy : y < h) (hx : x < w) :
    gridAt (t2d f h w m) 0#64 y x = (f ((m.map f).map fun r => r.getD x 0#64)).getD y 0#64 := by
  have hcol : ((columns w (m.map f)).map f).getD x [] = f ((m.map f).map fun r => r.getD x posZero) := by
    simp [columns, hx]
  rw [gridAt, t2d, columns_getD _ hy, ← posZero_eq, ← hcol]
  simp [columns, hx]

/-- Settles O22: both transforms are `t2d`, whose element is that of a transformed column of transformed rows. -/
theorem rowsAreTransformedBeforeColumns : Obligations.RowsAreTransformedBeforeColumns := by
  intro a b M f g hfg hlen _ y hy x hx
  have hg : g M = t2d f (2 ^ b) (2 ^ a) M := by
    rcases hfg with ⟨rfl, rfl⟩ | ⟨rfl, rfl⟩
    · rfl
    · rfl
  have hrows : M = (List.range (2 ^ b)).map fun r => M.getD r [] := eq_map_range_getD [] hlen
  have hcol : (M.map f).map (fun r => r.getD x 0#64) = (List.range (2 ^ b)).map fun r => (f (M.getD r [])).getD x 0#64 := by
    conv_lhs => rw [hrows]
    simp only [List.map_map, Function.comp_def]
  rw [hg, gridAt_t2d f M hy hx, hcol]

/-! Tiles. -/

theorem shaped_tile {h w y0 x0 th tw : Nat} {m : Grid F64} (hm : Shaped h w m) (hy : y0 + th ≤ h) (hx : x0 + tw ≤ w) :
    Shaped th tw (tile m y0 x0 th tw) := by
  refine ⟨by simp [tile, hm.1]; omega, fun r hr => ?_⟩
  obtain ⟨r', hr', rfl⟩ := List.mem_map.1 hr
  have hw := hm.2 r' (List.mem_of_mem_drop (List.mem_of_mem_take hr'))
  simp [hw]; omega

theorem gridAt_tile {h w y0 x0 th tw v u : Nat} {m : Grid F64} (hm : Shaped h w m) (hy : y0 + th ≤ h) (hx : x0 + tw ≤ w)
    (hv : v < th) (hu : u < tw) : gridAt (tile m y0 x0 th tw) 0#64 v u = gridAt m 0#64 (y0 + v) (x0 + u) := by
  obtain ⟨hv', hu', e⟩ := gridAt_eq_getElem 0#64 (shaped_tile hm hy hx) hv hu
  obtain ⟨hy', hx', e'⟩ := gridAt_eq_getElem 0#64 hm (y := y0 + v) (x := x0 + u) (by omega) (by omega)
  rw [e, e']
  simp [tile]

/-- A tile inside the matrix is the matrix of its elements. -/
theorem tile_eq_gridOf {h w y0 x0 th tw : Nat} {m : Grid F64} (hm : Shaped h w m) (hy : y0 + th ≤ h) (hx : x0 + tw ≤ w) :
    tile m y0 x0 th tw = gridOf th tw fun v u => gridAt m 0#64 (y0 + v) (x0 + u) :=
  shaped_ext 0#64 (shaped_tile hm hy hx) (shaped_gridOf _ _ _) fun v hv u hu => by
    rw [gridAt_tile hm hy hx hv hu, gridAt_gridOf _ _ hv hu]

/-- The one tile of the whole matrix is the matrix. -/
theorem tile_whole {h w : Nat} {m : Grid F64} (hm : Shaped h w m) : tile m 0 0 h w = m :=
  shaped_ext 0#64 (shaped_tile hm (by omega) (by omega)) hm fun v hv u hu => by
    rw [gridAt_tile hm (by omega) (by omega) hv hu, Nat.zero_add, Nat.zero_add]

/-- The tile of an element is whole when the tile size divides the extent. -/
theorem tile_end_le {t n i : Nat} (hdvd : t ∣ n) (hi : i < n) : i / t * t + t ≤ n := by
  obtain ⟨k, rfl⟩ := hdvd
  have hk : i / t + 1 ≤ k := Nat.div_lt_of_lt_mul hi
  calc i / t * t + t = t * (i / t + 1) := by ring
    _ ≤ t * k := Nat.mul_le_mul_left t hk

/-- Element (y, x) of a block transform: its place in its own transformed tile (R96). -/
theorem gridAt_blk (g : Grid F64 → Grid F64) {h w th tw y x : Nat} (m : Grid F64) (hth : th ∣ h) (htw : tw ∣ w) (hy : y < h)
    (hx : x < w) :
    gridAt (blk g h w th tw m) 0#64 y x = gridAt (g (tile m (y / th * th) (x / tw * tw) th tw)) 0#64 (y % th) (x % tw) := by
  have hty : y / th < h / th := Nat.div_lt_div_of_lt_of_dvd hth hy
  have htx : x / tw < w / tw := Nat.div_lt_div_of_lt_of_dvd htw hx
  rw [blk, gridAt_range _ _ hy hx, gridAt_range _ _ hty htx, posZero_eq]

/-- A block transform of one tile is the transform of the whole matrix (R103). -/
theorem blk_whole {g : Grid F64 → Grid F64} {h w : Nat} {m : Grid F64} (hm : Shaped h w m) (hg : Shaped h w (g m)) :
    blk g h w h w m = g m :=
  shaped_ext 0#64 (shaped_blk _ _ _ _ _ _) hg fun y hy x hx => by
    rw [gridAt_blk g m dvd_rfl dvd_rfl hy hx, Nat.div_eq_of_lt hy, Nat.div_eq_of_lt hx, Nat.mod_eq_of_lt hy,
      Nat.mod_eq_of_lt hx, Nat.zero_mul, Nat.zero_mul, tile_whole hm]

/-- Settles O23: an element of a block transform comes from its own tile, and the tile of the whole frame is the frame. -/
theorem tilesAreTransformedIndependently : Obligations.TilesAreTransformedIndependently := by
  constructor
  · intro h w th tw M _ _ hth htw hlen hrow y hy x hx T
    have hT : tile M (y / th * th) (x / tw * tw) th tw = T :=
      tile_eq_gridOf ⟨hlen, hrow⟩ (tile_end_le hth hy) (tile_end_le htw hx)
    rw [← hT]
    exact ⟨gridAt_blk _ M hth htw hy hx, gridAt_blk _ M hth htw hy hx⟩
  · intro h w M _ _ hlen hrow
    exact ⟨blk_whole ⟨hlen, hrow⟩ (shaped_t2d _ _ _ _), blk_whole ⟨hlen, hrow⟩ (shaped_t2d _ _ _ _)⟩

end Sys2Proof.Machine
end

section
/-! PROOF. The transform commands of spec/40_transform.md R97 to R104: their errors in order, and what they transform in place. -/

namespace Sys2Proof.Machine

/-! A command that ends with an error, and one that transforms VBUF or COEF in place. -/

theorem exec_failedWith {i : Instr} {s : State} {e : ErrKind} (h : checkOf i s = some e) :
    exec i s = .next (failedWith s e) := exec_of_check_some h

/-- The command passes its checks, writes the transform of the first n entries of VBUF in their place, and leaves all else. -/
def TransformsVector (i : Instr) (s : State) (n : Nat) (f : List Cplx → List Cplx) : Prop :=
  ∃ t, exec i s = .next t ∧ DoneAs s t ∧ t.vector n = f (s.vector n) ∧ KeptOutside s.mem t.mem [(.vbuf, 1, 2 * n)]

/-- The command passes its checks, writes the transform of the region of COEF in its place, and leaves all else. -/
def TransformsCoefs (i : Instr) (s : State) (f : Grid F64 → Grid F64) : Prop :=
  ∃ t, exec i s = .next t ∧ DoneAs s t ∧ t.coefs = f s.coefs ∧ KeptOutside s.mem t.mem [(.coef, s.height, s.width)]

theorem transformsVector {i : Instr} {s : State} {n : Nat} {f : List Cplx → List Cplx} (hc : checkOf i s = none)
    (he : effectOf i s = s.onVector f) (hwf : s.mem.wf) (hlen : s.len = n) (hn : n ≤ Config.nmax)
    (hf : (f (s.vector n)).length = n) : TransformsVector i s n f := by
  subst hlen
  refine ⟨(s.onVector f).complete, ?_, rfl, ?_, ?_⟩
  · rw [exec_of_check_none hc, he]
  · exact Memory.vector_putVector hwf hf hn
  · exact Memory.kept_putVector s.mem hf

theorem transformsCoefs {i : Instr} {s : State} {f : Grid F64 → Grid F64} (hc : checkOf i s = none)
    (he : effectOf i s = s.onCoefs f) (hwf : s.mem.wf) (hs : FrameOk s) (hf : Shaped s.height s.width (f s.coefs)) :
    TransformsCoefs i s f := by
  obtain ⟨-, hw, -, hh⟩ := hs
  refine ⟨(s.onCoefs f).complete, ?_, rfl, ?_, ?_⟩
  · rw [exec_of_check_none hc, he]
  · exact Memory.coefs_putCoefs hwf hh hw hf
  · exact Memory.kept_putCoefs s.mem hf

/-! The checks. -/

theorem ispow2_eq_false {n : Nat} (h : ∀ m, n ≠ 2 ^ m) : ispow2 n = false := by
  rw [Bool.eq_false_iff, ne_eq, ispow2_iff]
  exact fun ⟨m, hm⟩ => h m hm

theorem badFrame_of_not {s : State} (h : ¬FrameOk s) : s.badFrame = true := by
  rwa [← badFrame_iff, Bool.not_eq_false] at h

theorem checkFft_long {s : State} (h : 1024 < s.len) : s.checkFft = some .invalidConfig := if_pos h

theorem checkFft_no_power {s : State} (h : s.len ≤ 1024) (hp : ∀ m, s.len ≠ 2 ^ m) : s.checkFft = some .invalidSize := by
  simp [State.checkFft, Config.nmax, h, ispow2_eq_false hp]

theorem checkFft_power {s : State} {m : Nat} (hm : m ≤ 10) (h : s.len = 2 ^ m) : s.checkFft = none := by
  have hle : 2 ^ m ≤ 1024 := Nat.pow_le_pow_right two_pos hm
  simp [State.checkFft, Config.nmax, h, ispow2_two_pow, hle]

theorem checkDct_long {s : State} (h : 512 < s.len) : s.checkDct = some .invalidConfig :=
  if_pos (show 1024 < 2 * s.len by omega)

theorem checkDct_no_power {s : State} (h : s.len ≤ 512) (hp : ∀ m, s.len ≠ 2 ^ m) : s.checkDct = some .invalidSize := by
  have hle : ¬Config.nmax < 2 * s.len := by unfold Config.nmax; omega
  simp [State.checkDct, hle, ispow2_eq_false hp]

theorem checkDct_power {s : State} {m : Nat} (hm : m ≤ 9) (h : s.len = 2 ^ m) : s.checkDct = none := by
  have hpow : 2 ^ m ≤ 512 := Nat.pow_le_pow_right two_pos hm
  have hle : ¬Config.nmax < 2 * 2 ^ m := by unfold Config.nmax; omega
  simp [State.checkDct, h, hle, ispow2_two_pow]

theorem checkDct2d_frame {s : State} (h : ¬FrameOk s) : s.checkDct2d = some .invalidConfig := if_pos (badFrame_of_not h)

theorem checkDct2d_no_power {s : State} (h : FrameOk s) (hp : (∀ a, s.width ≠ 2 ^ a) ∨ (∀ b, s.height ≠ 2 ^ b)) :
    s.checkDct2d = some .invalidSize := by
  have hpow : (!ispow2 s.width || !ispow2 s.height) = true := by
    rcases hp with hp | hp
    · rw [ispow2_eq_false hp]; rfl
    · rw [ispow2_eq_false hp, Bool.not_false, Bool.or_true]
  simp only [State.checkDct2d, (badFrame_iff s).2 h, hpow, Bool.false_eq_true, if_false, if_true]

theorem checkDct2d_power {s : State} {a b : Nat} (h : FrameOk s) (hw : s.width = 2 ^ a) (hh : s.height = 2 ^ b) :
    s.checkDct2d = none := by
  simp [State.checkDct2d, (badFrame_iff s).2 h, hw, hh, ispow2_two_pow]

/-- The tile sizes are in range (R103). -/
def TileOk (s : State) : Prop := 1 ≤ s.tw ∧ s.tw ≤ 512 ∧ 1 ≤ s.th ∧ s.th ≤ 512

/-- The checks of BDCT2D after the frame's. -/
theorem checkBlocks_tile {s : State} (h : FrameOk s) :
    s.checkBlocks =
      if s.tw < 1 ∨ Config.tmax < s.tw ∨ s.th < 1 ∨ Config.tmax < s.th then some .invalidConfig
      else if s.width % s.tw ≠ 0 ∨ s.height % s.th ≠ 0 then some .invalidBlockSize
      else if !ispow2 s.tw || !ispow2 s.th then some .invalidSize
      else none := by
  rw [State.checkBlocks, (badFrame_iff s).2 h]; rfl

/-- The checks of BDCT2D once the frame and the tile are in range. -/
theorem checkBlocks_multiple {s : State} (h : FrameOk s) (ht : TileOk s) :
    s.checkBlocks =
      if s.width % s.tw ≠ 0 ∨ s.height % s.th ≠ 0 then some .invalidBlockSize
      else if !ispow2 s.tw || !ispow2 s.th then some .invalidSize
      else none := by
  obtain ⟨htw, htw', hth, hth'⟩ := ht
  rw [checkBlocks_tile h, if_neg (by unfold Config.tmax; omega)]

theorem checkBlocks_range {s : State} (h : ¬(FrameOk s ∧ TileOk s)) : s.checkBlocks = some .invalidConfig := by
  by_cases hs : FrameOk s
  · have ht : ¬TileOk s := fun ht => h ⟨hs, ht⟩
    rw [checkBlocks_tile hs, if_pos]
    unfold TileOk at ht
    unfold Config.tmax
    omega
  · exact if_pos (badFrame_of_not hs)

theorem checkBlocks_no_multiple {s : State} (h : FrameOk s) (ht : TileOk s) (hd : ¬(s.tw ∣ s.width ∧ s.th ∣ s.height)) :
    s.checkBlocks = some .invalidBlockSize := by
  rw [Nat.dvd_iff_mod_eq_zero, Nat.dvd_iff_mod_eq_zero, not_and_or] at hd
  rw [checkBlocks_multiple h ht, if_pos hd]

theorem checkBlocks_divides {s : State} (h : FrameOk s) (ht : TileOk s) (hw : s.tw ∣ s.width) (hh : s.th ∣ s.height) :
    s.checkBlocks = if !ispow2 s.tw || !ispow2 s.th then some .invalidSize else none := by
  rw [checkBlocks_multiple h ht, if_neg (by simp [Nat.mod_eq_zero_of_dvd hw, Nat.mod_eq_zero_of_dvd hh])]

theorem checkBlocks_no_power {s : State} (h : FrameOk s) (ht : TileOk s) (hw : s.tw ∣ s.width) (hh : s.th ∣ s.height)
    (hp : (∀ a, s.tw ≠ 2 ^ a) ∨ (∀ b, s.th ≠ 2 ^ b)) : s.checkBlocks = some .invalidSize := by
  rw [checkBlocks_divides h ht hw hh, if_pos]
  rcases hp with hp | hp
  · rw [ispow2_eq_false hp]; rfl
  · rw [ispow2_eq_false hp, Bool.not_false, Bool.or_true]

theorem checkBlocks_power {s : State} {a b : Nat} (h : FrameOk s) (ht : TileOk s) (hw : s.tw ∣ s.width)
    (hh : s.th ∣ s.height) (ha : s.tw = 2 ^ a) (hb : s.th = 2 ^ b) : s.checkBlocks = none := by
  rw [checkBlocks_divides h ht hw hh, ha, hb, ispow2_two_pow, ispow2_two_pow]; rfl

/-! The commands. -/

/-- Settles O14: the checks in order; a power of two is a length that both transforms keep. -/
theorem fftAndIfftTransformThePrefix : Obligations.FftAndIfftTransformThePrefix := by
  intro s
  refine ⟨fun h => ?_, fun h hp => ?_, fun m hm hlen hwf => ?_⟩
  · have hc := checkFft_long h
    exact ⟨exec_failedWith hc, exec_failedWith hc⟩
  · have hc := checkFft_no_power h hp
    exact ⟨exec_failedWith hc, exec_failedWith hc⟩
  · have hc := checkFft_power hm hlen
    have hlog : Nat.log2 s.len = m := by rw [hlen, Nat.log2_two_pow]
    have hn : 2 ^ m ≤ Config.nmax := Nat.pow_le_pow_right two_pos hm
    have hv := vector_length s (2 ^ m)
    exact ⟨transformsVector (i := .fft) hc (by rw [effectOf, hlog]) hwf hlen hn (fft_length m _ hv),
      transformsVector (i := .ifft) hc (by rw [effectOf, hlog]) hwf hlen hn (ifft_length m _ hv)⟩

/-- Settles O15: `onReal` is the transform of the real parts with imaginary parts +0.0. -/
theorem dct1dAndIdct1dTransformThePrefix : Obligations.Dct1dAndIdct1dTransformThePrefix := by
  intro s
  refine ⟨fun h => ?_, fun h hp => ?_, fun m hm hlen hwf => ?_⟩
  · have hc := checkDct_long h
    exact ⟨exec_failedWith hc, exec_failedWith hc⟩
  · have hc := checkDct_no_power h hp
    exact ⟨exec_failedWith hc, exec_failedWith hc⟩
  · have hc := checkDct_power hm hlen
    have hn : 2 ^ m ≤ Config.nmax := Nat.pow_le_pow_right two_pos (hm.trans (by norm_num) : m ≤ 10)
    have hv := vector_length s (2 ^ m)
    exact ⟨transformsVector (i := .dct1d) (f := onReal dct1d) hc rfl hwf hlen hn (onReal_length (dct1d_length m) hv),
      transformsVector (i := .idct1d) (f := onReal idct1d) hc rfl hwf hlen hn (onReal_length (idct1d_length m) hv)⟩

/-- Settles O16: the checks in order; a 2-D transform has the shape of its region. -/
theorem dct2dAndIdct2dTransformTheRegion : Obligations.Dct2dAndIdct2dTransformTheRegion := by
  intro s
  refine ⟨fun h => ?_, fun h hp => ?_, fun a b ha hb hw hh hwf => ?_⟩
  · have hc := checkDct2d_frame h
    exact ⟨exec_failedWith hc, exec_failedWith hc⟩
  · have hc := checkDct2d_no_power h hp
    exact ⟨exec_failedWith hc, exec_failedWith hc⟩
  · have hs : FrameOk s :=
      ⟨hw ▸ Nat.one_le_two_pow, hw ▸ Nat.pow_le_pow_right two_pos ha, hh ▸ Nat.one_le_two_pow,
       hh ▸ Nat.pow_le_pow_right two_pos hb⟩
    have hc := checkDct2d_power hs hw hh
    exact ⟨transformsCoefs (i := .dct2d) hc rfl hwf hs (shaped_t2d _ _ _ _),
      transformsCoefs (i := .idct2d) hc rfl hwf hs (shaped_t2d _ _ _ _)⟩

/-- Settles O17: the three checks in order; a block transform has the shape of its region. -/
theorem bdct2dAndIbdct2dTransformTheTiles : Obligations.Bdct2dAndIbdct2dTransformTheTiles := by
  intro s
  refine ⟨fun h => ?_, fun hs htw htw' hth hth' => ?_⟩
  · have hc := checkBlocks_range h
    exact ⟨exec_failedWith hc, exec_failedWith hc⟩
  have ht : TileOk s := ⟨htw, htw', hth, hth'⟩
  refine ⟨fun hd => ?_, fun hw hh hp => ?_, fun a b ha hb hw hh hwf => ?_⟩
  · have hc := checkBlocks_no_multiple hs ht hd
    exact ⟨exec_failedWith hc, exec_failedWith hc⟩
  · have hc := checkBlocks_no_power hs ht hw hh hp
    exact ⟨exec_failedWith hc, exec_failedWith hc⟩
  · have hc := checkBlocks_power hs ht hw hh ha hb
    exact ⟨transformsCoefs (i := .bdct2d) hc rfl hwf hs (shaped_blk _ _ _ _ _ _),
      transformsCoefs (i := .ibdct2d) hc rfl hwf hs (shaped_blk _ _ _ _ _ _)⟩

end Sys2Proof.Machine
end

section
/-! PROOF. Block matching: the cost of spec/41_motion.md R107, the candidates of R108, the search of R109, and the commands MEBLK
and MEMAP of R111 and R112. -/

namespace Sys2Proof.Machine

/-! The cost (R107). -/

theorem pixel_bounds (p : Grid Byte) (y x : Int) : 0 ≤ pixel p y x ∧ pixel p y x ≤ 255 := by
  have h := (gridAt p 0#8 y.toNat x.toNat).isLt
  unfold pixel
  omega

theorem dist_cast (ssd : Bool) (a c : Int) : (dist ssd a c : Int) = if ssd then (a - c) ^ 2 else |a - c| := by
  cases ssd with
  | false => simp [dist]
  | true => simp [dist, sq]

/-- The greatest distance of two pixels: 255 by SAD, its square by SSD. -/
def maxDist (ssd : Bool) : Nat := if ssd then 255 * 255 else 255

theorem dist_le_maxDist (ssd : Bool) {a c : Int} (h : (a - c).natAbs ≤ 255) : dist ssd a c ≤ maxDist ssd := by
  cases ssd with
  | false => exact h
  | true => exact (Int.natAbs_mul _ _).trans_le (Nat.mul_le_mul h h)

theorem cost_eq_sum (ref tgt : Grid Byte) (bx yb b : Nat) (ssd : Bool) (i j : Int) :
    cost ref tgt bx yb b ssd i j =
      ∑ v ∈ Finset.range b, ∑ u ∈ Finset.range b,
        dist ssd (pixel tgt (yb + v) (bx + u)) (pixel ref (yb + v - j) (bx + u - i)) := rfl

theorem cost_le (ref tgt : Grid Byte) (bx yb b : Nat) (ssd : Bool) (i j : Int) :
    cost ref tgt bx yb b ssd i j ≤ b * (b * maxDist ssd) := by
  have hdist : ∀ y x y' x', dist ssd (pixel tgt y x) (pixel ref y' x') ≤ maxDist ssd := fun y x y' x' => by
    have ht := pixel_bounds tgt y x
    have hr := pixel_bounds ref y' x'
    exact dist_le_maxDist ssd (by omega)
  have hrow (v : Nat) := Finset.sum_le_card_nsmul (Finset.range b) _ _ fun u _ =>
    hdist (yb + v) (bx + u) (yb + v - j) (bx + u - i)
  have hblock := Finset.sum_le_card_nsmul (Finset.range b) _ _ fun v _ => hrow v
  simpa [cost_eq_sum] using hblock

/-- A block of side up to 64 costs at most 64 * 64 times the greatest distance. -/
theorem cost_le_of_block {b : Nat} (hb : b ≤ 64) (ref tgt : Grid Byte) (bx yb : Nat) (ssd : Bool) (i j : Int) :
    cost ref tgt bx yb b ssd i j ≤ 64 * (64 * maxDist ssd) :=
  (cost_le ref tgt bx yb b ssd i j).trans (Nat.mul_le_mul hb (Nat.mul_le_mul_right _ hb))

/-- A block of side up to 64 has a cost that fits ME_COST. -/
theorem cost_lt_word {b : Nat} (hb : b ≤ 64) (ref tgt : Grid Byte) (bx yb : Nat) (ssd : Bool) (i j : Int) :
    cost ref tgt bx yb b ssd i j < 2 ^ 32 := by
  refine (cost_le_of_block hb ref tgt bx yb ssd i j).trans_lt ?_
  cases ssd <;> decide

/-- Settles O24: the list sums of `cost` are the sums over `Finset.range`; the bounds are 64 * 64 times the greatest distance. -/
theorem costIsTheBlockSum : Obligations.CostIsTheBlockSum := by
  intro ref tgt bx yb b ssd i j
  refine ⟨?_, fun hb => ⟨cost_le_of_block hb _ _ _ _ _ _ _, cost_le_of_block hb _ _ _ _ _ _ _⟩⟩
  rw [cost_eq_sum]
  push_cast [dist_cast]
  rfl

/-! The candidates (R108). -/

theorem mem_intRange {lo hi k : Int} : k ∈ intRange lo hi ↔ lo ≤ k ∧ k ≤ hi := by
  simp only [intRange, List.mem_map, List.mem_range]
  constructor
  · rintro ⟨n, hn, rfl⟩
    omega
  · rintro ⟨hlo, hhi⟩
    exact ⟨(k - lo).toNat, by omega, by omega⟩

theorem intRange_pairwise (lo hi : Int) : (intRange lo hi).Pairwise (· < ·) :=
  List.Pairwise.map _ (fun _ _ h => by omega) List.pairwise_lt_range

/-- A displacement within the bounds of R108. -/
def InSearchRange (W H R bx yb b : Nat) (i j : Int) : Prop :=
  max (-(R : Int)) ((bx : Int) + b - W) ≤ i ∧ i ≤ min (R : Int) bx ∧
  max (-(R : Int)) ((yb : Int) + b - H) ≤ j ∧ j ≤ min (R : Int) yb

theorem mem_candidates {W H R bx yb b : Nat} {i j : Int} :
    (i, j) ∈ candidates W H R bx yb b ↔ InSearchRange W H R bx yb b i j := by
  simp [candidates, mem_intRange, InSearchRange, rangeLo, rangeHi, and_assoc]

theorem inSearchRange_zero {W H bx yb b : Nat} (hx : bx + b ≤ W) (hy : yb + b ≤ H) (R : Nat) :
    InSearchRange W H R bx yb b 0 0 := by
  unfold InSearchRange
  omega

/-- The displaced block lies inside the frame. -/
theorem InSearchRange.block_in_frame {W H R bx yb b : Nat} {i j : Int} (h : InSearchRange W H R bx yb b i j) :
    (i ≤ bx ∧ (bx : Int) + b - i ≤ W) ∧ j ≤ yb ∧ (yb : Int) + b - j ≤ H := by
  unfold InSearchRange at h
  omega

/-- The order of the search: i, then j (R109). -/
def VisitedBefore (p q : Int × Int) : Prop := p.1 < q.1 ∨ (p.1 = q.1 ∧ p.2 < q.2)

theorem VisitedBefore.asymm {p q : Int × Int} (h : VisitedBefore p q) : ¬VisitedBefore q p := by
  unfold VisitedBefore at *
  omega

theorem VisitedBefore.irrefl (p : Int × Int) : ¬VisitedBefore p p := fun h => h.asymm h

theorem candidates_pairwise (W H R bx yb b : Nat) : (candidates W H R bx yb b).Pairwise VisitedBefore := by
  refine List.pairwise_flatMap.2 ⟨fun i _ => ?_, (intRange_pairwise _ _).imp fun hlt p hp q hq => ?_⟩
  · exact (intRange_pairwise _ _).map _ fun _ _ hlt => .inr ⟨rfl, hlt⟩
  · obtain ⟨j, -, rfl⟩ := List.mem_map.1 hp
    obtain ⟨j', -, rfl⟩ := List.mem_map.1 hq
    exact .inl hlt

/-- Settles O25: membership and order come from `intRange`; a candidate's block lies inside the frame. -/
theorem searchRangeStaysInsideTheFrame : Obligations.SearchRangeStaysInsideTheFrame := by
  intro W H R bx yb b hx hy
  refine ⟨fun i j => mem_candidates, mem_candidates.2 (inSearchRange_zero hx hy R), fun i j h v hv u hu => ?_,
    fun hb i j h => ?_, candidates_pairwise W H R bx yb b⟩
  · have hin := (mem_candidates.1 h).block_in_frame
    omega
  · have hin := (mem_candidates.1 h).block_in_frame
    omega

/-! The search (R109). -/

/-- The displacement of least cost among those of a list, and the first of them in the order of the search. -/
def FirstLeast (c : Int → Int → Nat) (l : List (Int × Int)) (p : Int × Int) : Prop :=
  p ∈ l ∧ ∀ q ∈ l, c p.1 p.2 ≤ c q.1 q.2 ∧ (VisitedBefore q p → c p.1 p.2 < c q.1 q.2)

/-- What the search delivers: such a displacement with its cost. -/
def IsSearchResult (c : Int → Int → Nat) (l : List (Int × Int)) (r : (Int × Int) × Nat) : Prop :=
  FirstLeast c l r.1 ∧ r.2 = c r.1.1 r.1.2

theorem firstLeast_head {c : Int → Int → Nat} {p : Int × Int} {l : List (Int × Int)} (hl : (p :: l).Pairwise VisitedBefore)
    (hle : ∀ q ∈ l, c p.1 p.2 ≤ c q.1 q.2) : FirstLeast c (p :: l) p := by
  refine ⟨List.mem_cons_self, fun q hq => ?_⟩
  rcases List.mem_cons.1 hq with rfl | hq
  · exact ⟨le_rfl, fun h => absurd h (VisitedBefore.irrefl _)⟩
  · exact ⟨hle q hq, fun h => absurd h (List.rel_of_pairwise_cons hl hq).asymm⟩

/-- Cost 0 cannot improve: the search stops at it. -/
theorem isSearchResult_zero {c : Int → Int → Nat} {p : Int × Int} {l : List (Int × Int)}
    (hl : (p :: l).Pairwise VisitedBefore) (h0 : c p.1 p.2 = 0) : IsSearchResult c (p :: l) (p, 0) :=
  ⟨firstLeast_head hl fun _ _ => h0.le.trans (Nat.zero_le _), h0.symm⟩

/-- A displacement in front that is strictly worse than a later one is not the best. -/
theorem FirstLeast.cons_of_lt {c : Int → Int → Nat} {p q r : Int × Int} {l : List (Int × Int)}
    (h : FirstLeast c (q :: l) r) (hlt : c q.1 q.2 < c p.1 p.2) : FirstLeast c (p :: q :: l) r := by
  obtain ⟨hmem, hleast⟩ := h
  have hrp : c r.1 r.2 < c p.1 p.2 := (hleast q List.mem_cons_self).1.trans_lt hlt
  exact ⟨List.mem_cons_of_mem _ hmem, List.forall_mem_cons.2 ⟨⟨hrp.le, fun _ => hrp⟩, hleast⟩⟩

/-- Ties keep the first: a displacement that comes after p and is no better than p changes nothing. -/
theorem FirstLeast.insert_of_le {c : Int → Int → Nat} {p q r : Int × Int} {l : List (Int × Int)}
    (hl : (p :: q :: l).Pairwise VisitedBefore) (h : FirstLeast c (p :: l) r) (hle : c p.1 p.2 ≤ c q.1 q.2) :
    FirstLeast c (p :: q :: l) r := by
  obtain ⟨hmem, hleast⟩ := h
  obtain ⟨⟨hrp, hp⟩, hrest⟩ := List.forall_mem_cons.1 hleast
  have hq : VisitedBefore q r → c r.1 r.2 < c q.1 q.2 := fun hqr => by
    rcases List.mem_cons.1 hmem with rfl | hr
    · exact absurd hqr (List.rel_of_pairwise_cons hl List.mem_cons_self).asymm
    · exact (hp (List.rel_of_pairwise_cons hl (List.mem_cons_of_mem _ hr))).trans_le hle
  exact ⟨List.mem_cons.2 ((List.mem_cons.1 hmem).imp_right (List.mem_cons_of_mem _)),
    List.forall_mem_cons.2 ⟨⟨hrp, hp⟩, List.forall_mem_cons.2 ⟨⟨hrp.trans hle, hq⟩, hrest⟩⟩⟩

/-- The loop of R109, with p the best found so far. -/
theorem scan_isSearchResult (c : Int → Int → Nat) (l : List (Int × Int)) :
    ∀ p : Int × Int, (p :: l).Pairwise VisitedBefore → IsSearchResult c (p :: l) (scan c l (p, c p.1 p.2)) := by
  induction l with
  | nil => exact fun p hl => ⟨firstLeast_head hl (by simp), rfl⟩
  | cons q l ih =>
    intro p hl
    have hql : (q :: l).Pairwise VisitedBefore := hl.of_cons
    simp only [scan]
    split_ifs with hlt h0
    · obtain ⟨hbest, hcost⟩ := isSearchResult_zero hql h0
      exact ⟨hbest.cons_of_lt hlt, hcost⟩
    · obtain ⟨hbest, hcost⟩ := ih q hql
      exact ⟨hbest.cons_of_lt hlt, hcost⟩
    · obtain ⟨hbest, hcost⟩ := ih p (hl.sublist ((List.sublist_cons_self q l).cons_cons p))
      exact ⟨hbest.insert_of_le hl (not_lt.1 hlt), hcost⟩

section Block

variable {W H R bx yb b : Nat}

/-- While the co-located blocks differ, `me_block` is a search of the candidates. -/
theorem meBlock_isSearchResult (hx : bx + b ≤ W) (hy : yb + b ≤ H) {ref tgt : Grid Byte} {ssd : Bool}
    (h0 : cost ref tgt bx yb b ssd 0 0 ≠ 0) :
    IsSearchResult (cost ref tgt bx yb b ssd) (candidates W H R bx yb b) (meBlock ref tgt W H bx yb b R ssd) := by
  have hmem : (0, 0) ∈ candidates W H R bx yb b := mem_candidates.2 (inSearchRange_zero hx hy R)
  have hl := candidates_pairwise W H R bx yb b
  simp only [meBlock, if_neg h0]
  cases hc : candidates W H R bx yb b with
  | nil => rw [hc] at hmem; cases hmem
  | cons p rest =>
    rw [hc] at hl
    dsimp only
    split_ifs with hp
    · exact isSearchResult_zero hl hp
    · exact scan_isSearchResult _ rest p hl

/-! The result of R109 in its two cases. -/

theorem isBestVector_colocated {c : Int → Int → Nat} {i j : Int} (h0 : c 0 0 = 0) :
    IsBestVector c W H bx yb b R i j ↔ i = 0 ∧ j = 0 := iff_of_eq (if_pos h0)

theorem isBestVector_searched {c : Int → Int → Nat} {i j : Int} (h0 : c 0 0 ≠ 0) :
    IsBestVector c W H bx yb b R i j ↔ FirstLeast c (candidates W H R bx yb b) (i, j) := by
  simp only [IsBestVector, if_neg h0, FirstLeast, Prod.forall, mem_candidates]
  rfl

/-- `me_block` answers the vector of R109 and its cost. -/
theorem meBlock_spec (hx : bx + b ≤ W) (hy : yb + b ≤ H) (R : Nat) (ref tgt : Grid Byte) (ssd : Bool) :
    let r := meBlock ref tgt W H bx yb b R ssd
    IsBestVector (cost ref tgt bx yb b ssd) W H bx yb b R r.1.1 r.1.2 ∧ r.2 = cost ref tgt bx yb b ssd r.1.1 r.1.2 := by
  intro r
  by_cases h0 : cost ref tgt bx yb b ssd 0 0 = 0
  · have hr : r = ((0, 0), 0) := if_pos h0
    rw [hr]
    exact ⟨(isBestVector_colocated h0).2 ⟨rfl, rfl⟩, h0.symm⟩
  · obtain ⟨hbest, hcost⟩ := meBlock_isSearchResult (R := R) hx hy h0
    exact ⟨(isBestVector_searched h0).2 hbest, hcost⟩

theorem IsBestVector.inSearchRange {c : Int → Int → Nat} {i j : Int} (hx : bx + b ≤ W) (hy : yb + b ≤ H)
    (h : IsBestVector c W H bx yb b R i j) : InSearchRange W H R bx yb b i j := by
  by_cases h0 : c 0 0 = 0
  · obtain ⟨rfl, rfl⟩ := (isBestVector_colocated h0).1 h
    exact inSearchRange_zero hx hy R
  · obtain ⟨hmem, -⟩ := (isBestVector_searched h0).1 h
    exact mem_candidates.1 hmem

/-- In a frame of up to 512 by 512 both components of a vector fit in 16 bits. -/
theorem InSearchRange.toInt_vecOf {p : Int × Int} (h : InSearchRange W H R bx yb b p.1 p.2) (hx : bx + b ≤ W)
    (hy : yb + b ≤ H) (hW : W ≤ 512) (hH : H ≤ 512) : (vecOf p).dx.toInt = p.1 ∧ (vecOf p).dy.toInt = p.2 := by
  have fits : ∀ k : Int, -512 ≤ k → k ≤ 512 → (BitVec.ofInt 16 k).toInt = k := fun k hlo hhi => by
    rw [BitVec.toInt_ofInt]
    exact Int.bmod_eq_of_le (by omega) (by omega)
  have hin := h.block_in_frame
  exact ⟨fits p.1 (by omega) (by omega), fits p.2 (by omega) (by omega)⟩

/-- The vector `me_block` delivers, in its storage form, is that of R109. -/
theorem meBlock_stored (hx : bx + b ≤ W) (hy : yb + b ≤ H) (hW : W ≤ 512) (hH : H ≤ 512) (R : Nat) (ref tgt : Grid Byte)
    (ssd : Bool) :
    let r := meBlock ref tgt W H bx yb b R ssd
    (vecOf r.1).dx.toInt = r.1.1 ∧ (vecOf r.1).dy.toInt = r.1.2 :=
  ((meBlock_spec hx hy R ref tgt ssd).1.inSearchRange hx hy).toInt_vecOf hx hy hW hH

end Block

/-! The checks of the commands. -/

/-- The block of MEBLK lies inside the frame and its size is in range (R111). -/
def BlockOk (s : State) : Prop :=
  FrameOk s ∧ 1 ≤ s.mb ∧ s.mb ≤ 64 ∧ s.bx + s.mb ≤ s.width ∧ s.blockY + s.mb ≤ s.height

theorem badMb_of_not {s : State} (h : ¬(1 ≤ s.mb ∧ s.mb ≤ 64)) : s.badMb = true := by
  rwa [← badMb_iff, Bool.not_eq_false] at h

theorem checkMeblk_ok {s : State} (h : BlockOk s) : s.checkMeblk = none := by
  obtain ⟨hs, hlo, hhi, hx, hy⟩ := h
  simp [State.checkMeblk, (badFrame_iff s).2 hs, (badMb_iff s).2 ⟨hlo, hhi⟩, hx, hy]

theorem checkMeblk_error {s : State} (h : ¬BlockOk s) : s.checkMeblk = some .invalidConfig := by
  unfold State.checkMeblk
  split_ifs with hs hmb hin
  · rfl
  · rfl
  · rfl
  · obtain ⟨hlo, hhi⟩ := (badMb_iff s).1 (Bool.eq_false_of_not_eq_true hmb)
    exact absurd ⟨(badFrame_iff s).1 (Bool.eq_false_of_not_eq_true hs), hlo, hhi, by omega, by omega⟩ h

theorem checkField_range {s : State} (h : ¬(FrameOk s ∧ 1 ≤ s.mb ∧ s.mb ≤ 64)) : s.checkField = some .invalidConfig := by
  by_cases hs : FrameOk s
  · have hmb : s.badMb = true := badMb_of_not fun hmb => h ⟨hs, hmb⟩
    simp [State.checkField, hmb]
  · exact if_pos (badFrame_of_not hs)

theorem checkField_no_multiple {s : State} (hs : FrameOk s) (hmb : 1 ≤ s.mb ∧ s.mb ≤ 64)
    (hd : ¬(s.mb ∣ s.width ∧ s.mb ∣ s.height)) : s.checkField = some .invalidBlockSize := by
  rw [← notMultiple_iff, Bool.not_eq_false] at hd
  simp [State.checkField, (badFrame_iff s).2 hs, (badMb_iff s).2 hmb, hd]

/-! The commands. -/

/-- Settles O26: the checks; otherwise the registers hold the search's answer, whose components fit in 16 bits and whose cost fits
in 32. -/
theorem meblkFindsTheFirstLeastCost : Obligations.MeblkFindsTheFirstLeastCost := by
  intro s
  refine ⟨fun h => exec_failedWith (i := .meblk) (checkMeblk_error h), fun hs hlo hhi hx hy => ?_⟩
  have hc : checkOf .meblk s = none := checkMeblk_ok ⟨hs, hlo, hhi, hx, hy⟩
  obtain ⟨-, hW, -, hH⟩ := hs
  obtain ⟨hbest, hcost⟩ := meBlock_spec hx hy s.radius (s.pixels .recE) (s.pixels .fin) s.runMetric
  obtain ⟨hdx, hdy⟩ := meBlock_stored hx hy hW hH s.radius (s.pixels .recE) (s.pixels .fin) s.runMetric
  obtain ⟨hlow, hhigh⟩ := Vec.mk.inj (vecOfWord_vecWord (vecOf s.searchBlock.1))
  refine ⟨_, s.searchBlock.1.1, s.searchBlock.1.2, exec_of_check_none hc, rfl, hbest, ?_, ?_, ?_⟩
  · exact (congrArg BitVec.toInt hlow).trans hdx
  · exact (congrArg BitVec.toInt hhigh).trans hdy
  · have hlt : s.searchBlock.2 < 2 ^ 32 := hcost.trans_lt (cost_lt_word hhi _ _ _ _ _ _ _)
    exact (Nat.mod_eq_of_lt hlt).trans hcost

/-- A whole block fits before the end of the frame. -/
theorem block_end_le {n b k : Nat} (h : k < n / b) : k * b + b ≤ n :=
  calc k * b + b = (k + 1) * b := (Nat.succ_mul k b).symm
    _ ≤ n / b * b := Nat.mul_le_mul_right b h
    _ ≤ n := Nat.div_mul_le_self n b

/-- The map holds the vector of R109 of every block (R110). -/
theorem meMap_spec {W H MB y x : Nat} (hy : y < H / MB) (hx : x < W / MB) (hW : W ≤ 512) (hH : H ≤ 512) (R : Nat)
    (ref tgt : Grid Byte) (ssd : Bool) :
    let v := gridAt (meMap ref tgt W H MB R ssd) ⟨0#16, 0#16⟩ y x
    IsBestVector (cost ref tgt (x * MB) (y * MB) MB ssd) W H (x * MB) (y * MB) MB R v.dx.toInt v.dy.toInt := by
  obtain ⟨hdx, hdy⟩ := meBlock_stored (block_end_le hx) (block_end_le hy) hW hH R ref tgt ssd
  simp only [meMap, gridAt_range _ _ hy hx, hdx, hdy]
  exact (meBlock_spec (block_end_le hx) (block_end_le hy) R ref tgt ssd).1

/-- Settles O27: the checks in order; otherwise the map is stored as the field and reads back as it was computed. -/
theorem memapSearchesEveryBlock : Obligations.MemapSearchesEveryBlock := by
  intro s
  refine ⟨fun h => exec_failedWith (i := .memap) (checkField_range h),
    fun hs hlo hhi hd => exec_failedWith (i := .memap) (checkField_no_multiple hs ⟨hlo, hhi⟩ hd), fun hf hwf => ?_⟩
  have hc : checkOf .memap s = none := (checkField_none_iff s).2 hf
  obtain ⟨⟨-, hW, -, hH⟩, -⟩ := hf
  have hfield : (effectOf .memap s).complete.field = s.searchMap :=
    Memory.field_putField hwf ((Nat.div_le_self _ _).trans hH) ((Nat.div_le_self _ _).trans hW) (shaped_searchMap s)
  refine ⟨_, exec_of_check_none hc, rfl, kept_effectOf hc, fun y hy x hx => ?_⟩
  rw [hfield]
  exact meMap_spec hy hx hW hH _ _ _ _

end Sys2Proof.Machine
end

section
/-! PROOF. The functions of the quantizer, spec/42_quantizer.md R114 to R120, element by element, and the zero corners of R122 and
R124. -/

namespace Sys2Proof.Machine

/-! Levels and dequantized values of a matrix (R114 to R119). -/

theorem gridAt_map {α β : Type} (f : α → β) (z : α) (z' : β) {h w y x : Nat} {g : Grid α} (hg : Shaped h w g) (hy : y < h)
    (hx : x < w) : gridAt (g.map fun r => r.map f) z' y x = f (gridAt g z y x) := by
  obtain ⟨hy', hx', he⟩ := gridAt_eq_getElem z hg hy hx
  rw [he]
  simp [gridAt, hy', hx']

theorem gridAt_withWeights (wt : Grid Nat) (DB : Nat) (f : F64 → F64 → F64) (m : Grid F64) {h w y x : Nat} (hy : y < h)
    (hx : x < w) :
    gridAt (withWeights wt DB h w f m) 0#64 y x =
      f (gridAt m 0#64 y x) (f64 ((gridAt wt 0 (y % DB) (x % DB) : Nat) : Int)) := by
  rw [withWeights, gridAt_range _ _ hy hx, posZero_eq]

theorem gridAt_quantize (ft : FrameType) (s DB : Nat) (wt : Grid Nat) (rm : Grid Int) {h w y x : Nat} (hy : y < h)
    (hx : x < w) :
    gridAt (quantize ft s DB h w wt rm) 0#64 y x =
      level ft s (gridAt (bdct h w DB DB (rm.map fun r => r.map f64)) 0#64 y x)
        (f64 ((gridAt wt 0 (y % DB) (x % DB) : Nat) : Int)) := gridAt_withWeights _ _ _ _ hy hx

/-! Clamp and round (R120): a residual is a whole number between the bounds of its frame type. -/

/-- The least residual of a frame type (R120). -/
def residualMin : FrameType → Int
  | .intra => 0
  | .predicted => -255

theorem clampLow_eq_f64 (ft : FrameType) : clampLow ft = f64 (residualMin ft) := by
  cases ft with
  | intra => exact f64_zero.symm
  | predicted => rfl

theorem residualMin_bounds (ft : FrameType) : -255 ≤ residualMin ft ∧ residualMin ft ≤ 255 := by
  cases ft <;> decide

theorem f64_small {k : Int} (h : -255 ≤ k ∧ k ≤ 255) : isFinite (f64 k) = true ∧ ratOf (f64 k) = k :=
  f64_exact k (by rw [abs_lt]; omega)

/-- Clamping gives a finite value between its bounds, also of a NaN or an infinity (R13). -/
theorem fclamp_bounds (v : F64) {lo hi : F64} (hlo : isFinite lo = true) (hhi : isFinite hi = true)
    (hle : ratOf lo ≤ ratOf hi) :
    isFinite (fclamp v lo hi) = true ∧ ratOf lo ≤ ratOf (fclamp v lo hi) ∧ ratOf (fclamp v lo hi) ≤ ratOf hi := by
  by_cases hv : isFinite v = true
  · rw [fclamp_finite hv hlo hhi]
    split_ifs with hbelow habove
    · exact ⟨hlo, le_rfl, hle⟩
    · exact ⟨hhi, hle, le_rfl⟩
    · exact ⟨hv, not_lt.1 hbelow, not_lt.1 habove⟩
  · rcases not_isFinite (Bool.eq_false_of_not_eq_true hv) with hn | hi
    · rw [fclamp_nan hn]
      exact ⟨hlo, le_rfl, hle⟩
    · rw [fclamp_inf hi hlo hhi]
      split
      · exact ⟨hlo, le_rfl, hle⟩
      · exact ⟨hhi, hle, le_rfl⟩

/-- What R120 rounds. -/
def clamped (ft : FrameType) (v : F64) : F64 := fclamp v (clampLow ft) maxPixel

theorem clamped_bounds (ft : FrameType) (v : F64) :
    isFinite (clamped ft v) = true ∧ (residualMin ft : ℚ) ≤ ratOf (clamped ft v) ∧ ratOf (clamped ft v) ≤ 255 := by
  obtain ⟨hlo, hlo'⟩ := f64_small (residualMin_bounds ft)
  obtain ⟨hhi, hhi'⟩ := f64_small (k := 255) (by decide)
  have hle : (residualMin ft : ℚ) ≤ (255 : Int) := Int.cast_le.2 (residualMin_bounds ft).2
  have h := fclamp_bounds v hlo hhi (by rwa [hlo', hhi'])
  rw [hlo', hhi', ← clampLow_eq_f64, Int.cast_ofNat] at h
  exact h

/-- The floor of a whole number is that number. -/
theorem ffloor_of_integer {v : F64} {k : Int} (h : ratOf v = k) : ffloor v = k := by
  have hu : (oneUnits : ℚ) ≠ 0 := by exact_mod_cast oneUnits_pos.ne'
  rw [ratOf, ← oneUnits_cast, div_eq_iff hu] at h
  have hv : value v = k * (oneUnits : Int) := by exact_mod_cast h
  rw [ffloor, hv, Int.mul_ediv_cancel _ (by exact_mod_cast oneUnits_pos.ne')]

theorem toPixelRange_eq (ft : FrameType) (v : F64) : toPixelRange ft v = roundedInt (clamped ft v) := by
  have hfin := (clamped_bounds ft v).1
  have hr : ffloor (fround (clamped ft v)) = roundedInt (clamped ft v) := by
    rw [fround_finite hfin]
    exact ffloor_of_integer (f64_roundedInt hfin).2
  exact hr

/-- The residual as a binary64 value is the rounded one: reading it as an integer loses nothing. -/
theorem f64_toPixelRange (ft : FrameType) (v : F64) : f64 (toPixelRange ft v) = fround (clamped ft v) := by
  rw [toPixelRange_eq, fround_finite (clamped_bounds ft v).1]

theorem toPixelRange_bounds (ft : FrameType) (v : F64) : residualMin ft ≤ toPixelRange ft v ∧ toPixelRange ft v ≤ 255 := by
  obtain ⟨-, hlo, hhi⟩ := clamped_bounds ft v
  obtain ⟨hk, hk'⟩ := roundedInt_ratOf (clamped ft v)
  rw [toPixelRange_eq]
  have h1 : (residualMin ft : ℚ) < (roundedInt (clamped ft v) + 1 : Int) := by push_cast; linarith
  have h2 : (roundedInt (clamped ft v) : ℚ) < (256 : Int) := by push_cast; linarith
  rw [Int.cast_lt] at h1 h2
  omega

theorem mem_dequantize {ft : FrameType} {s DB h w : Nat} {wt : Grid Nat} {q : Grid F64} {r : List Int} {k : Int}
    (hr : r ∈ dequantize ft s DB h w wt q) (hk : k ∈ r) : residualMin ft ≤ k ∧ k ≤ 255 := by
  obtain ⟨r', -, rfl⟩ := List.mem_map.1 hr
  obtain ⟨v, -, rfl⟩ := List.mem_map.1 hk
  exact toPixelRange_bounds ft v

theorem f64_gridAt_dequantize (ft : FrameType) (s DB : Nat) (wt : Grid Nat) (q : Grid F64) {h w y x : Nat} (hy : y < h)
    (hx : x < w) :
    f64 (gridAt (dequantize ft s DB h w wt q) 0 y x) =
      fround (clamped ft (gridAt (ibdct h w DB DB (withWeights wt DB h w (unlevel ft s) q)) 0#64 y x)) := by
  have hg : Shaped h w (ibdct h w DB DB (withWeights wt DB h w (unlevel ft s) q)) := shaped_blk _ _ _ _ _ _
  rw [dequantize, gridAt_map _ 0#64 _ hg hy hx]
  exact f64_toPixelRange ft _

/-- Settles O30: an element of each matrix is the function of R115 to R120 of that element; the formulas are its definition. -/
theorem levelsFollowTheFormulas : Obligations.LevelsFollowTheFormulas := fun sc db _ _ _ _ wt rm q hy hx =>
  ⟨gridAt_quantize .intra sc db wt rm hy hx, gridAt_quantize .predicted sc db wt rm hy hx,
    gridAt_withWeights wt db (unlevel .intra sc) q hy hx, gridAt_withWeights wt db (unlevel .predicted sc) q hy hx,
    f64_gridAt_dequantize .intra sc db wt q hy hx, f64_gridAt_dequantize .predicted sc db wt q hy hx⟩

/-! Zeros in the four operations of the formulas. -/

theorem isFinite_of_isZero {a : F64} (h : isZero a = true) : isFinite a = true := by
  rw [isZero_iff, ratOf_eq_zero_iff] at h
  rw [isFinite_iff, h]
  decide

theorem isZero_packBits (neg : Bool) : isZero (packBits neg 0) = true := by cases neg <;> decide

theorem units_of_isZero {a : F64} (h : isZero a = true) : units a = 0 :=
  (ratOf_eq_zero_iff_units a).1 ((isZero_iff a).1 h)

theorem fmul_of_isZero {a b : F64} (ha : isZero a = true) (hb : isFinite b = true) :
    fmul a b = packBits (signBit a != signBit b) 0 := by
  rw [fmul_finite (isFinite_of_isZero ha) hb, units_of_isZero ha, Nat.zero_mul, roundRatio_zero _ oneUnits_pos]

theorem fdiv_of_isZero {a b : F64} (ha : isZero a = true) (hb : isFinite b = true) (hne : ratOf b ≠ 0) :
    fdiv a b = packBits (signBit a != signBit b) 0 := by
  have hu := Nat.pos_of_ne_zero (mt (ratOf_eq_zero_iff_units b).2 hne)
  rw [fdiv_finite (isFinite_of_isZero ha) hb hne, units_of_isZero ha, Nat.zero_mul, roundRatio_zero _ hu]

theorem fsub_of_isZero {a b : F64} (ha : isZero a = true) (hb : isZero b = true) :
    fsub a b = packBits (signBit a && !signBit b) 0 :=
  fsub_zero (isFinite_of_isZero ha) (isFinite_of_isZero hb) (by rw [(isZero_iff a).1 ha, (isZero_iff b).1 hb, sub_zero])

theorem fsign_of_isZero {a : F64} (h : isZero a = true) : fsign a = posZero := by
  rw [fsign_finite (isFinite_of_isZero h), (isZero_iff a).1 h, posZero_eq]
  rfl

/-- A zero of either sign rounds to +0.0 (R13). -/
theorem fround_of_isZero {a : F64} (h : isZero a = true) : fround a = posZero := by
  obtain ⟨k, -, -, hlo, hhi, hz⟩ := fround_spec (isFinite_of_isZero h)
  rw [(isZero_iff a).1 h] at hlo hhi
  have hlt : (k : ℚ) < (1 : Int) := by push_cast; linarith
  have hgt : ((-1 : Int) : ℚ) < k := by push_cast; linarith
  rw [Int.cast_lt] at hlt hgt
  exact hz (by omega)

/-! The zero corners (R122, R124): weight, scale and constants are finite positive values. -/

/-- A finite value above zero. -/
structure IsPositive (b : F64) : Prop where
  finite : isFinite b = true
  sign : signBit b = false
  ne_zero : ratOf b ≠ 0

theorem isPositive_f64 {k : Int} (h0 : 0 < k) (h : k < 2 ^ 53) : IsPositive (f64 k) := by
  obtain ⟨hfin, hval⟩ := f64_exact k (by rwa [abs_of_pos h0])
  refine ⟨hfin, ?_, ?_⟩
  · rw [f64, signBit_roundRatio _ _ one_pos, decide_eq_false (by omega)]
  · rw [hval, Int.cast_ne_zero]
    omega

theorem isPositive_two : IsPositive two := isPositive_f64 (by decide) (by decide)

theorem isPositive_sixteen : IsPositive sixteen := isPositive_f64 (by decide) (by decide)

theorem isZero_fmul {a b : F64} (ha : isZero a = true) (hb : IsPositive b) : isZero (fmul a b) = true := by
  rw [fmul_of_isZero ha hb.finite, isZero_packBits]

theorem isZero_fdiv {a b : F64} (ha : isZero a = true) (hb : IsPositive b) : isZero (fdiv a b) = true := by
  rw [fdiv_of_isZero ha hb.finite hb.ne_zero, isZero_packBits]

theorem isZero_posZero : isZero posZero = true := isZero_packBits false

theorem posZero_fmul {b : F64} (hb : IsPositive b) : fmul posZero b = posZero := by
  rw [fmul_of_isZero isZero_posZero hb.finite, hb.sign]
  rfl

theorem posZero_fdiv {b : F64} (hb : IsPositive b) : fdiv posZero b = posZero := by
  rw [fdiv_of_isZero isZero_posZero hb.finite hb.ne_zero, hb.sign]
  rfl

theorem fadd_posZero : fadd posZero posZero = posZero :=
  fadd_zero posZero_finite posZero_finite (by rw [ratOf_posZero, add_zero])

section Zero

variable {s : Nat} {c w : F64} (hs : IsPositive (f64 s)) (hs2 : IsPositive (f64 (2 * s))) (hw : IsPositive w)
include hw

include hs2 in
theorem levelIntra_of_isZero (hc : isZero c = true) : levelIntra s c w = posZero :=
  fround_of_isZero (isZero_fdiv (isZero_fdiv (isZero_fmul hc isPositive_sixteen) hw) hs2)

include hs hs2 in
/-- The dead zone subtracts sign(0) * s, which is +0.0. -/
theorem levelPred_of_isZero (hc : isZero c = true) : levelPred s c w = posZero := by
  have hscaled : isZero (fdiv (fmul c sixteen) w) = true := isZero_fdiv (isZero_fmul hc isPositive_sixteen) hw
  rw [levelPred, fsign_of_isZero hc, posZero_fmul hs]
  refine fround_of_isZero (isZero_fdiv ?_ hs2)
  rw [fsub_of_isZero hscaled isZero_posZero, isZero_packBits]

include hs

theorem unlevelIntra_posZero : unlevelIntra s posZero w = posZero := by
  rw [unlevelIntra, posZero_fmul isPositive_two, posZero_fmul hs, posZero_fmul hw, posZero_fdiv isPositive_sixteen]

theorem unlevelPred_posZero : unlevelPred s posZero w = posZero := by
  rw [unlevelPred, fsign_of_isZero isZero_posZero, posZero_fmul isPositive_two, posZero_fmul hs, fadd_posZero,
    posZero_fmul hw, posZero_fdiv isPositive_sixteen]

end Zero

/-- Settles O31: a zero stays a zero through the products, quotients and the dead zone, and rounds to +0.0; +0.0 stays +0.0. -/
theorem zeroCoefficientHasLevelZero : Obligations.ZeroCoefficientHasLevelZero := by
  intro sc wt hsc hsc' hwt hwt' c hc
  have hs : IsPositive (f64 sc) := isPositive_f64 (by omega) (by omega)
  have hs2 : IsPositive (f64 (2 * sc)) := isPositive_f64 (by omega) (by omega)
  have hw : IsPositive (f64 wt) := isPositive_f64 (by omega) (by omega)
  rw [← posZero_eq]
  exact ⟨levelIntra_of_isZero hs2 hw hc, levelPred_of_isZero hs hs2 hw hc, unlevelIntra_posZero hs hw,
    unlevelPred_posZero hs hw⟩

end Sys2Proof.Machine
end

section
/-! PROOF. The quantizer commands of spec/42_quantizer.md R121 to R124: what QUANT writes to COEF and DEQUANT to RES. -/

namespace Sys2Proof.Machine

/-- The command passes its checks, writes the levels of the region of RES to COEF, and leaves all else (R121, R122). -/
def WritesLevels (i : Instr) (s : State) (ft : FrameType) : Prop :=
  ∃ t, exec i s = .next t ∧ DoneAs s t ∧ t.coefs = s.quantized ft s.residuals ∧
    KeptOutside s.mem t.mem [(.coef, s.height, s.width)]

/-- The command passes its checks, writes the dequantized region of COEF to RES, each value in the range of the frame type, and
leaves all else (R123, R124). -/
def WritesResiduals (i : Instr) (s : State) (ft : FrameType) : Prop :=
  ∃ t, exec i s = .next t ∧ DoneAs s t ∧ t.residuals = s.dequantized ft s.coefs ∧
    (∀ r ∈ t.residuals, ∀ k ∈ r, residualMin ft ≤ k ∧ k ≤ 255) ∧ KeptOutside s.mem t.mem [(.res, s.height, s.width)]

section Commands

variable {i : Instr} {s : State} {ft : FrameType} (hc : checkOf i s = none) (hwf : s.mem.wf) (hs : FrameOk s)
include hc hwf hs

theorem writesLevels (he : effectOf i s = s.quant ft) : WritesLevels i s ft := by
  obtain ⟨-, hw, -, hh⟩ := hs
  have hq : Shaped s.height s.width (s.quantized ft s.residuals) := shaped_quantize _ _ _ _ _ _ _
  refine ⟨(s.quant ft).complete, ?_, rfl, ?_, ?_⟩
  · rw [exec_of_check_none hc, he]
  · exact Memory.coefs_putCoefs hwf hh hw hq
  · exact Memory.kept_putCoefs s.mem hq

omit hc in
/-- The residuals read back as they were computed, because they fit in 16 bits. -/
theorem residuals_dequant : (s.dequant ft).residuals = s.dequantized ft s.coefs := by
  obtain ⟨-, hw, -, hh⟩ := hs
  have hq : Shaped s.height s.width (s.dequantized ft s.coefs) := shaped_dequantize _ _ _ _ _ _ _
  calc (s.dequant ft).residuals
      = (s.dequantized ft s.coefs).map fun r => r.map fun k => (BitVec.ofInt 16 k).toInt :=
        Memory.residuals_putResiduals hwf hh hw hq
    _ = (s.dequantized ft s.coefs).map fun r => r.map fun k => k :=
        List.map_congr_left fun r hr => List.map_congr_left fun k hk => by
          have hmin := residualMin_bounds ft
          have hin := mem_dequantize hr hk
          rw [BitVec.toInt_ofInt]
          exact Int.bmod_eq_of_le (by omega) (by omega)
    _ = s.dequantized ft s.coefs := by simp

theorem writesResiduals (he : effectOf i s = s.dequant ft) : WritesResiduals i s ft := by
  have hres : (s.dequant ft).complete.residuals = s.dequantized ft s.coefs := residuals_dequant hwf hs
  refine ⟨(s.dequant ft).complete, ?_, rfl, hres, ?_, ?_⟩
  · rw [exec_of_check_none hc, he]
  · rw [hres]
    exact fun r hr k hk => mem_dequantize hr hk
  · exact Memory.kept_putResiduals s.mem (shaped_dequantize _ _ _ _ _ _ _)

end Commands

/-- Settles O28: QCHECK passes, and the levels of R117 are what COEF holds afterwards. -/
theorem quantWritesTheLevels : Obligations.QuantWritesTheLevels := by
  intro s hwf hq
  have hc : s.qcheck = none := (qcheck_none_iff s).2 hq
  exact ⟨writesLevels (i := .quantI) (ft := .intra) hc hwf hq.1 rfl,
    writesLevels (i := .quantP) (ft := .predicted) hc hwf hq.1 rfl⟩

/-- Settles O29: QCHECK passes, and RES holds the values of R120, which the clamp keeps in range. -/
theorem dequantWritesResidualsInRange : Obligations.DequantWritesResidualsInRange := by
  intro s hwf hq
  have hc : s.qcheck = none := (qcheck_none_iff s).2 hq
  exact ⟨writesResiduals (i := .dequantI) (ft := .intra) hc hwf hq.1 rfl,
    writesResiduals (i := .dequantP) (ft := .predicted) hc hwf hq.1 rfl⟩

end Sys2Proof.Machine
end

section
/-! PROOF. The two coders of spec/43_dpcm.md R126 and R127 over any element type: what they answer row by row and element by
element, and when decoding gives back what was encoded. -/

namespace Sys2Proof.Machine

/-! Rows. -/

theorem getD_of_row {α : Type} {m : Grid α} {y : Nat} {row : List α} (h : m[y]? = some row) : m.getD y [] = row := by
  rw [List.getD_eq_getElem?_getD, h, Option.getD_some]

theorem dpcmEnc_row {α : Type} (z : α) (add sub : α → α → α) (m : Grid α) (y : Nat) :
    (dpcmEnc z add sub m).getD y [] = dpcmEncRow add sub z (m.getD y []) := List.getD_map m [] (dpcmEncRow add sub z)

theorem dpcmDec_row {α : Type} (z : α) (add : α → α → α) (m : Grid α) (y : Nat) :
    (dpcmDec z add m).getD y [] = dpcmDecRow add z (m.getD y []) := List.getD_map m [] (dpcmDecRow add z)

/-! Elements. -/

/-- Along a row the encoder's predictor grows by the error (R126); `z` stands outside the row. -/
def GrowsByTheError {α : Type} (add sub : α → α → α) (z : α) (row : List α) (p : Nat → α) : Prop :=
  ∀ c < row.length, p (c + 1) = add (p c) (sub (row.getD c z) (p c))

theorem GrowsByTheError.tail {α : Type} {add sub : α → α → α} {z m : α} {ms : List α} {p : Nat → α}
    (h : GrowsByTheError add sub z (m :: ms) p) :
    p 1 = add (p 0) (sub m (p 0)) ∧ GrowsByTheError add sub z ms fun c => p (c + 1) :=
  ⟨h 0 (Nat.succ_pos _), fun c hc => h (c + 1) (Nat.succ_lt_succ hc)⟩

theorem dpcmEncRow_getD {α : Type} {add sub : α → α → α} {z : α} {row : List α} {p : Nat → α}
    (hp : GrowsByTheError add sub z row p) {c : Nat} (hc : c < row.length) :
    (dpcmEncRow add sub (p 0) row).getD c z = sub (row.getD c z) (p c) := by
  induction row generalizing p c with
  | nil => exact absurd hc (Nat.not_lt_zero c)
  | cons m ms ih =>
    obtain ⟨h1, htail⟩ := hp.tail
    cases c with
    | zero => rfl
    | succ c =>
      rw [dpcmEncRow, ← h1]
      exact ih htail (Nat.lt_of_succ_lt_succ hc)

/-- On an encoder's output the decoder's predictor is the encoder's, because addition commutes (R127). -/
theorem dpcmDecRow_dpcmEncRow_getD {α : Type} {add sub : α → α → α} {z : α} (hcomm : ∀ a b, add a b = add b a) {row : List α}
    {p : Nat → α} (hp : GrowsByTheError add sub z row p) {c : Nat} (hc : c < row.length) :
    (dpcmDecRow add (p 0) (dpcmEncRow add sub (p 0) row)).getD c z = p (c + 1) := by
  induction row generalizing p c with
  | nil => exact absurd hc (Nat.not_lt_zero c)
  | cons m ms ih =>
    obtain ⟨h1, htail⟩ := hp.tail
    rw [dpcmEncRow, dpcmDecRow, hcomm, ← h1]
    cases c with
    | zero => rfl
    | succ c => exact ih htail (Nat.lt_of_succ_lt_succ hc)

/-- A decoded element is the error plus the element before (R127). -/
theorem dpcmDecRow_getD {α : Type} {add : α → α → α} {z p : α} {row : List α} {c : Nat} (hc : c < row.length) :
    (dpcmDecRow add p row).getD c z =
      add (row.getD c z) (if c = 0 then p else (dpcmDecRow add p row).getD (c - 1) z) := by
  induction row generalizing p c with
  | nil => exact absurd hc (Nat.not_lt_zero c)
  | cons e es ih =>
    cases c with
    | zero => rfl
    | succ c =>
      have hstep := ih (p := add e p) (Nat.lt_of_succ_lt_succ hc)
      cases c <;> exact hstep

/-! Decoding what was encoded. -/

/-- If, for good predictors and elements, the predictor plus the error is `f` of the element and again good, then decoding an
encoded row of good elements gives `f` of each. -/
theorem dpcmDecRow_dpcmEncRow {α : Type} {add sub : α → α → α} (hcomm : ∀ a b, add a b = add b a) {good : α → Prop}
    {f : α → α} (h : ∀ p m, good p → good m → add p (sub m p) = f m ∧ good (f m)) {row : List α} (hrow : ∀ m ∈ row, good m)
    {p : α} (hp : good p) : dpcmDecRow add p (dpcmEncRow add sub p row) = row.map f := by
  induction row generalizing p with
  | nil => rfl
  | cons m ms ih =>
    obtain ⟨hm, hms⟩ := List.forall_mem_cons.1 hrow
    obtain ⟨hf, hgood⟩ := h p m hp hm
    rw [dpcmEncRow, dpcmDecRow, hcomm, hf, ih hms hgood, List.map_cons]

theorem dpcmDec_dpcmEnc {α : Type} {add sub : α → α → α} (hcomm : ∀ a b, add a b = add b a) {good : α → Prop} {f : α → α}
    (h : ∀ p m, good p → good m → add p (sub m p) = f m ∧ good (f m)) {m : Grid α} (hm : ∀ r ∈ m, ∀ x ∈ r, good x) {z : α}
    (hz : good z) : dpcmDec z add (dpcmEnc z add sub m) = m.map fun r => r.map f := by
  rw [dpcmDec, dpcmEnc, List.map_map]
  exact List.map_congr_left fun r hr => dpcmDecRow_dpcmEncRow hcomm h (hm r hr) hz

/-- Encoding a decoded row gives it back where subtraction undoes addition. -/
theorem dpcmEncRow_dpcmDecRow {α : Type} {add sub : α → α → α} (hcomm : ∀ a b, add a b = add b a)
    (hcancel : ∀ e p, sub (add e p) p = e) (p : α) (row : List α) :
    dpcmEncRow add sub p (dpcmDecRow add p row) = row := by
  induction row generalizing p with
  | nil => rfl
  | cons e es ih => rw [dpcmDecRow, dpcmEncRow, hcancel, hcomm p e, ih]

/-! Coefficient matrices. -/

section Coefficients

variable {m : Grid F64} {y : Nat} {row : List F64} {p : Nat → F64} (hrow : m[y]? = some row) (h0 : p 0 = posZero)
include hrow

theorem encCoef_row : (encCoef m).getD y [] = dpcmEncRow fadd fsub posZero row := by
  rw [encCoef, dpcmEnc_row, getD_of_row hrow]

theorem decCoef_row : (decCoef m).getD y [] = dpcmDecRow fadd posZero row := by
  rw [decCoef, dpcmDec_row, getD_of_row hrow]

variable (hp : GrowsByTheError fadd fsub 0#64 row p)
include h0 hp

theorem gridAt_encCoef {c : Nat} (hc : c < row.length) : gridAt (encCoef m) 0#64 y c = fsub (row.getD c 0#64) (p c) := by
  rw [gridAt, encCoef_row hrow, ← h0]
  exact dpcmEncRow_getD hp hc

theorem gridAt_decCoef_encCoef {c : Nat} (hc : c < row.length) : gridAt (decCoef (encCoef m)) 0#64 y c = p (c + 1) := by
  rw [gridAt, decCoef, dpcmDec_row, encCoef_row hrow, ← h0]
  exact dpcmDecRow_dpcmEncRow_getD fadd_comm hp hc

end Coefficients

/-- Settles O34: the recurrences element by element, on the row that the coders answer. -/
theorem dpcmFollowsTheRunningPredictor : Obligations.DpcmFollowsTheRunningPredictor := by
  rw [Obligations.DpcmFollowsTheRunningPredictor, ← posZero_eq]
  refine ⟨fun m y row p hrow h0 hp => ?_, fun e y row hrow => ?_⟩
  · exact ⟨fun c hc => gridAt_encCoef hrow h0 hp hc, fun c hc => gridAt_decCoef_encCoef hrow h0 hp hc,
      by rw [encCoef_row hrow, dpcmEncRow_length]⟩
  · refine ⟨by rw [decCoef_row hrow, dpcmDecRow_length], fun c hc => ?_⟩
    rw [gridAt, gridAt, decCoef_row hrow]
    exact dpcmDecRow_getD hc

end Sys2Proof.Machine
end

section
/-! PROOF. The DPCM of motion-vector fields (spec/43_dpcm.md R126 to R128 and R134): addition and subtraction modulo 2^16 undo each
other. -/

namespace Sys2Proof.Machine

theorem vadd_comm (a b : Vec) : vadd a b = vadd b a := by
  rw [vadd, vadd, BitVec.add_comm a.dx, BitVec.add_comm a.dy]

theorem vadd_vsub_cancel (p m : Vec) : vadd p (vsub m p) = m := by
  rw [vadd, vsub, BitVec.add_comm p.dx, BitVec.add_comm p.dy, BitVec.sub_add_cancel, BitVec.sub_add_cancel]

theorem vsub_vadd_cancel (e p : Vec) : vsub (vadd e p) p = e := by
  rw [vsub, vadd, BitVec.add_sub_cancel, BitVec.add_sub_cancel]

/-- The left neighbour in a row, zero before the first column. -/
def leftNeighbour (row : List Vec) (c : Nat) : Vec := if c = 0 then vzero else row.getD (c - 1) vzero

/-- The predictor of a vector is its left neighbour, because no error is lost. -/
theorem growsByTheError_leftNeighbour (row : List Vec) : GrowsByTheError vadd vsub vzero row (leftNeighbour row) :=
  fun _ _ => (vadd_vsub_cancel _ _).symm

theorem dpcmDecRow_vadd_getD {row : List Vec} {p : Vec} {c : Nat} (hc : c < row.length) :
    (dpcmDecRow vadd p row).getD c vzero =
      ⟨p.dx + ((row.take (c + 1)).map fun v => v.dx).sum, p.dy + ((row.take (c + 1)).map fun v => v.dy).sum⟩ := by
  induction row generalizing p c with
  | nil => exact absurd hc (Nat.not_lt_zero c)
  | cons e es ih =>
    cases c with
    | zero => simp [dpcmDecRow, vadd, BitVec.add_comm]
    | succ c =>
      rw [dpcmDecRow, List.getD_cons_succ, ih (Nat.lt_of_succ_lt_succ hc)]
      simp [vadd, BitVec.add_comm e.dx, BitVec.add_comm e.dy, BitVec.add_assoc]

/-- Settles O35: the predictor of a vector is its left neighbour, and decoding adds the differences up. -/
theorem vectorsAreCodedAsDifferences : Obligations.VectorsAreCodedAsDifferences := by
  intro m y row hrow c hc
  constructor
  · rw [gridAt, encField, dpcmEnc_row, getD_of_row hrow]
    refine (dpcmEncRow_getD (growsByTheError_leftNeighbour row) hc).trans ?_
    cases c with
    | zero => rfl
    | succ c => rfl
  · rw [gridAt, decField, dpcmDec_row, getD_of_row hrow]
    refine (dpcmDecRow_vadd_getD hc).trans ?_
    simp [vzero]

/-- Settles O36: addition and subtraction modulo 2^16 cancel in both orders. -/
theorem vectorDpcmIsLossless : Obligations.VectorDpcmIsLossless := by
  intro m
  constructor
  · have h := dpcmDec_dpcmEnc (good := fun _ => True) (f := id) (z := vzero) vadd_comm
      (fun p v _ _ => ⟨vadd_vsub_cancel p v, trivial⟩) (fun r (_ : r ∈ m) v _ => trivial) trivial
    simpa [encField, decField] using h
  · rw [encField, decField, dpcmEnc, dpcmDec, List.map_map]
    exact (List.map_congr_left fun r _ => dpcmEncRow_dpcmDecRow vadd_comm vsub_vadd_cancel vzero r).trans (List.map_id m)

end Sys2Proof.Machine
end

section
/-! PROOF. The DPCM commands of spec/43_dpcm.md R130 to R133: their errors in order, and what they code in place. -/

namespace Sys2Proof.Machine

theorem checkRegion_none {s : State} (h : FrameOk s) : s.checkRegion = none := by
  simp [State.checkRegion, (badFrame_iff s).2 h]

theorem checkRegion_error {s : State} (h : ¬FrameOk s) : s.checkRegion = some .invalidConfig := if_pos (badFrame_of_not h)

/-- The command passes its checks, writes `f` of the MV field in its place, and leaves all else. -/
def TransformsField (i : Instr) (s : State) (f : Grid Vec → Grid Vec) : Prop :=
  ∃ t, exec i s = .next t ∧ DoneAs s t ∧ t.field = f s.field ∧
    KeptOutside s.mem t.mem [(.mv, s.height / s.mb, s.width / s.mb)]

theorem transformsField {i : Instr} {s : State} {f : Grid Vec → Grid Vec} (hc : checkOf i s = none)
    (he : effectOf i s = s.onField f) (hwf : s.mem.wf) (hs : FrameOk s)
    (hf : Shaped s.fieldRows s.fieldCols (f s.field)) : TransformsField i s f := by
  obtain ⟨-, hw, -, hh⟩ := hs
  refine ⟨(s.onField f).complete, ?_, rfl, ?_, ?_⟩
  · rw [exec_of_check_none hc, he]
  · exact Memory.field_putField hwf ((Nat.div_le_self _ _).trans hh) ((Nat.div_le_self _ _).trans hw) hf
  · exact Memory.kept_putField s.mem hf

/-- Settles O32: both commands check the frame alone and code the region of COEF in its place. -/
theorem dpcmCodesTheCoefficients : Obligations.DpcmCodesTheCoefficients := by
  intro s
  refine ⟨fun h => ?_, fun hs hwf => ?_⟩
  · exact ⟨exec_failedWith (i := .dpcmencC) (checkRegion_error h), exec_failedWith (i := .dpcmdecC) (checkRegion_error h)⟩
  · exact ⟨transformsCoefs (i := .dpcmencC) (checkRegion_none hs) rfl hwf hs (shaped_dpcmEnc _ _ _ (shaped_coefs s)),
      transformsCoefs (i := .dpcmdecC) (checkRegion_none hs) rfl hwf hs (shaped_dpcmDec _ _ (shaped_coefs s))⟩

/-- Settles O33: both commands make the field's checks in order and code the MV field in its place. -/
theorem dpcmCodesTheVectorField : Obligations.DpcmCodesTheVectorField := by
  intro s
  refine ⟨fun h => ?_, fun hs hlo hhi hd => ?_, fun hf hwf => ?_⟩
  · exact ⟨exec_failedWith (i := .dpcmencV) (checkField_range h), exec_failedWith (i := .dpcmdecV) (checkField_range h)⟩
  · have hc := checkField_no_multiple hs ⟨hlo, hhi⟩ hd
    exact ⟨exec_failedWith (i := .dpcmencV) hc, exec_failedWith (i := .dpcmdecV) hc⟩
  · have hc := (checkField_none_iff s).2 hf
    exact ⟨transformsField (i := .dpcmencV) hc rfl hwf hf.1 (shaped_dpcmEnc _ _ _ (shaped_field s)),
      transformsField (i := .dpcmdecV) hc rfl hwf hf.1 (shaped_dpcmDec _ _ (shaped_field s))⟩

end Sys2Proof.Machine
end

section
/-! PROOF. The DPCM of coefficient matrices (spec/43_dpcm.md R130, R131 and R134): integers below 2^52 come back, and what becomes of
-0.0, an infinity and a NaN. -/

namespace Sys2Proof.Machine

/-- What an element becomes by encoding and decoding, with the predictor p: p + (m - p) (R134). -/
def recoded (p m : F64) : F64 := fadd p (fsub m p)

/-! Integers. -/

/-- A number that a finite value is equal to is rounded to itself. -/
theorem IsRounding.exact {q : ℚ} {c r : F64} (h : IsRounding q r) (hsmall : |q| < 2 ^ 53) (hc : isFinite c = true)
    (hq : ratOf c = q) : isFinite r = true ∧ ratOf r = q := by
  have hrange : |q| < 2 ^ 1024 - 2 ^ 970 :=
    calc |q| < 2 ^ 970 := hsmall.trans_le (pow_le_pow_right₀ one_le_two (by norm_num))
      _ = 2 ^ 971 - 2 ^ 970 := eq_sub_of_add_eq (by rw [← mul_two, ← pow_succ])
      _ ≤ 2 ^ 1024 - 2 ^ 970 := sub_le_sub_right (pow_le_pow_right₀ one_le_two (by norm_num)) _
  rw [IsRounding, if_pos hrange] at h
  obtain ⟨hfin, hnear⟩ := h
  have hzero : |ratOf r - q| ≤ 0 := by simpa [hq] using (hnear c hc).1
  exact ⟨hfin, sub_eq_zero.1 (abs_nonpos_iff.1 hzero)⟩

/-- A finite value that is an integer below 2^52 in magnitude. -/
def IsSmallInt (x : F64) : Prop := isFinite x = true ∧ ∃ k : Int, ratOf x = k ∧ |k| < 2 ^ 52

theorem isSmallInt_posZero : IsSmallInt posZero := ⟨posZero_finite, 0, by rw [ratOf_posZero, Int.cast_zero], by norm_num⟩

/-- The difference of two small integers is below 2^53, so it is not rounded (R11). -/
theorem fsub_small {m p : F64} (hm : IsSmallInt m) (hp : IsSmallInt p) :
    isFinite (fsub m p) = true ∧ ratOf (fsub m p) = ratOf m - ratOf p := by
  obtain ⟨hmfin, k, hk, hksmall⟩ := hm
  obtain ⟨hpfin, j, hj, hjsmall⟩ := hp
  have hdiff : |k - j| < 2 ^ 53 := (abs_sub k j).trans_lt (by linarith)
  obtain ⟨hfin, hval⟩ := f64_exact (k - j) hdiff
  have hq : ratOf (f64 (k - j)) = ratOf m - ratOf p := by rw [hval, hk, hj, Int.cast_sub]
  refine (fsub_isRounding hmfin hpfin).exact ?_ hfin hq
  rw [← hq, hval]
  exact_mod_cast hdiff

/-- A predictor and the error that takes it to a zero do not both have the sign of -0.0. -/
theorem sign_of_error_to_zero {m p : F64} (hm : IsSmallInt m) (hp : IsSmallInt p) (h0 : ratOf m = 0) :
    (signBit p && signBit (fsub m p)) = false := by
  by_cases hz : ratOf p = 0
  · rw [fsub_zero hm.1 hp.1 (by rw [h0, hz, sub_zero]), signBit_packBits _ (by norm_num)]
    cases signBit p <;> simp
  · have hneg : fsub m p = fneg p := by
      refine (ratOf_inj ?_ ?_).symm
      · rw [ratOf_fneg, (fsub_small hm hp).2, h0, zero_sub]
      · rwa [magBits_fneg, ne_eq, ← ratOf_eq_zero_iff]
    rw [hneg, signBit_fneg, Bool.and_not_self]

/-- What an integer element decodes as (R134). -/
def zeroPositive (x : F64) : F64 := if x = negZero then posZero else x

theorem zeroPositive_of_zero {m : F64} (h : ratOf m = 0) : zeroPositive m = posZero := by
  rw [zeroPositive]
  split
  case isTrue => rfl
  case isFalse hne =>
    have hself := packBits_self m
    rw [(ratOf_eq_zero_iff m).1 h] at hself
    cases hs : signBit m with
    | false => rw [← hself, hs, posZero]
    | true => exact absurd (by rw [← hself, hs, negZero]) hne

theorem zeroPositive_of_ne_zero {m : F64} (h : ratOf m ≠ 0) : zeroPositive m = m :=
  if_neg fun hm => h (by rw [hm, ratOf_eq_zero_iff]; decide)

theorem recoded_small {p m : F64} (hp : IsSmallInt p) (hm : IsSmallInt m) :
    recoded p m = zeroPositive m ∧ IsSmallInt (zeroPositive m) := by
  obtain ⟨hefin, heval⟩ := fsub_small hm hp
  have hsum : ratOf p + ratOf (fsub m p) = ratOf m := by rw [heval, add_sub_cancel]
  by_cases h0 : ratOf m = 0
  · rw [zeroPositive_of_zero h0, recoded, fadd_zero hp.1 hefin (hsum.trans h0), sign_of_error_to_zero hm hp h0]
    exact ⟨rfl, isSmallInt_posZero⟩
  · rw [zeroPositive_of_ne_zero h0]
    refine ⟨(ratOf_inj ?_ (mt (ratOf_eq_zero_iff m).2 h0)).symm, hm⟩
    obtain ⟨k, hk, hksmall⟩ := hm.2
    have hlt : |ratOf m| < 2 ^ 53 := by
      rw [hk]
      exact_mod_cast hksmall.trans (by norm_num)
    have hround : IsRounding (ratOf m) (recoded p m) := hsum ▸ fadd_isRounding hp.1 hefin
    exact (hround.exact hlt hm.1 rfl).2.symm

/-- Settles O37: no difference and no sum of the coder is rounded, and a zero sum is +0.0. -/
theorem integerCoefficientDpcmIsLossless : Obligations.IntegerCoefficientDpcmIsLossless := fun _ hm =>
  dpcmDec_dpcmEnc fadd_comm (good := IsSmallInt) (f := zeroPositive) (fun _ _ => recoded_small) hm isSmallInt_posZero

/-! The first column. -/

theorem encCoef_first (m : Grid F64) (y : Nat) : gridAt (encCoef m) 0#64 y 0 = gridAt m 0#64 y 0 := by
  rw [gridAt, gridAt, encCoef, dpcmEnc_row]
  cases m.getD y [] with
  | nil => rfl
  | cons x xs => exact fsub_posZero x

theorem decCoef_first (m : Grid F64) (y : Nat) :
    gridAt (decCoef m) 0#64 y 0 = 0#64 ∨ gridAt (decCoef m) 0#64 y 0 = fadd (gridAt m 0#64 y 0) posZero := by
  rw [gridAt, gridAt, decCoef, dpcmDec_row]
  cases m.getD y [] with
  | nil => exact .inl rfl
  | cons x xs => exact .inr rfl

theorem negZero_fadd_posZero : fadd negZero posZero = posZero :=
  fadd_zero (by decide) posZero_finite (by rw [ratOf_posZero, add_zero, ratOf_eq_zero_iff]; decide)

/-- A sum with +0.0 is never -0.0 (R131). -/
theorem fadd_posZero_ne_negZero (a : F64) : fadd a posZero ≠ negZero := by
  intro h
  by_cases ha : isFinite a = true
  · by_cases h0 : ratOf a = 0
    · rw [fadd_zero ha posZero_finite (by rw [h0, ratOf_posZero, add_zero])] at h
      have hsign : signBit posZero = false := by decide
      rw [hsign, Bool.and_false] at h
      exact absurd h (by decide)
    · have hself : fadd a posZero = a :=
        fadd_exact ha posZero_finite ha (by rw [show value posZero = 0 by decide, Int.add_zero])
          (mt (ratOf_eq_zero_iff a).2 h0)
      refine h0 ?_
      rw [← hself, h, ratOf_eq_zero_iff]
      decide
  · rcases not_isFinite (Bool.eq_false_of_not_eq_true ha) with hn | hi
    · have hnan := (operations_nan (b := posZero) (.inl hn)).1
      rw [h] at hnan
      exact absurd hnan (by decide)
    · rw [fadd_inf hi posZero_finite] at h
      rw [h] at hi
      exact absurd hi (by decide)

/-! Infinities and NaN along an encoded row. -/

theorem isNaN_recoded {p m : F64} (h : isNaN p = true ∨ isNaN m = true) : isNaN (recoded p m) = true :=
  (operations_nan (.inr (operations_nan h.symm).2.1)).1

theorem recoded_inf {p m : F64} (hp : isFinite p = true) (hm : isInf m = true) : recoded p m = m := by
  rw [recoded, fsub_inf hm hp, fadd_comm, fadd_inf hm hp]

/-- After a predictor that is not finite every element decodes as a NaN: the error is a NaN or the opposite infinity. -/
theorem isNaN_recoded_of_not_finite {p : F64} (hp : isFinite p = false) (m : F64) : isNaN (recoded p m) = true := by
  rcases not_isFinite hp with hn | hi
  · exact isNaN_recoded (.inl hn)
  by_cases hm : isFinite m = true
  · rw [recoded, fsub_by_inf hi hm]
    exact fadd_inf_cancel hi (by rwa [isInf_fneg]) (by simp)
  rcases not_isFinite (Bool.eq_false_of_not_eq_true hm) with hmn | hmi
  · exact isNaN_recoded (.inr hmn)
  by_cases hs : signBit m = signBit p
  · exact (operations_nan (.inr (fsub_inf_cancel hmi hi hs))).1
  · rw [recoded, fsub_inf_opposite hmi hi hs]
    exact fadd_inf_cancel hi hmi (Ne.symm hs)

theorem not_finite_of_isNaN {a : F64} (h : isNaN a = true) : isFinite a = false :=
  Bool.eq_false_of_not_eq_true fun hf => by rw [isNaN_of_isFinite hf] at h; exact absurd h (by decide)

theorem not_finite_of_isInf {a : F64} (h : isInf a = true) : isFinite a = false :=
  Bool.eq_false_of_not_eq_true fun hf => by rw [isInf_of_isFinite hf] at h; exact absurd h (by decide)

/-- An element that is not finite decodes as a value that is not. -/
theorem not_finite_recoded {m : F64} (hm : isFinite m = false) (p : F64) : isFinite (recoded p m) = false := by
  by_cases hp : isFinite p = true
  · rcases not_isFinite hm with hn | hi
    · exact not_finite_of_isNaN (isNaN_recoded (.inr hn))
    · rwa [recoded_inf hp hi]
  · exact not_finite_of_isNaN (isNaN_recoded_of_not_finite (Bool.eq_false_of_not_eq_true hp) m)

/-- The coder's predictor before column c of a row. -/
def predictorAt (row : List F64) : Nat → F64
  | 0 => posZero
  | c + 1 => recoded (predictorAt row c) (row.getD c 0#64)

theorem decCoef_encCoef_at {m : Grid F64} {y : Nat} {row : List F64} (h : m[y]? = some row) {c : Nat} (hc : c < row.length) :
    gridAt (decCoef (encCoef m)) 0#64 y c = predictorAt row (c + 1) :=
  gridAt_decCoef_encCoef (p := predictorAt row) h rfl (fun _ _ => rfl) hc

theorem predictorAt_finite {row : List F64} {c : Nat} (h : ∀ k < c, isFinite (predictorAt row (k + 1)) = true) :
    isFinite (predictorAt row c) = true := by
  cases c with
  | zero => exact posZero_finite
  | succ c => exact h c c.lt_succ_self

theorem predictorAt_stays_not_finite {row : List F64} {c k : Nat} (hk : c ≤ k) (h : isFinite (predictorAt row c) = false) :
    isFinite (predictorAt row k) = false := by
  induction k, hk using Nat.le_induction with
  | base => exact h
  | succ k _ ih => exact not_finite_of_isNaN (isNaN_recoded_of_not_finite ih _)

/-- Settles O38: a decoded element is p + (m - p) with p the predictor, and a predictor that is not finite makes every later element
a NaN. -/
theorem firstColumnAndSpecialValues : Obligations.FirstColumnAndSpecialValues := by
  refine ⟨encCoef_first, fun m y h => ?_, fun m y h => ?_, ?_⟩
  · rcases decCoef_first m y with hd | hd
    · rw [hd, posZero_eq]
    · rw [hd, h, negZero_fadd_posZero]
  · rcases decCoef_first m y with hd | hd
    · exact absurd (hd.symm.trans h) (by decide)
    · exact fadd_posZero_ne_negZero _ (hd.symm.trans h)
  · intro m y row hrow c hc decoded
    have hdecoded : ∀ k < row.length, decoded k = predictorAt row (k + 1) := fun k hk => decCoef_encCoef_at hrow hk
    refine ⟨fun hn => ?_, fun hi hbefore => ?_, fun hspecial k hck hk => ?_⟩
    · rw [hdecoded c hc]
      exact isNaN_recoded (.inr hn)
    · rw [hdecoded c hc]
      refine recoded_inf (predictorAt_finite fun k hk => ?_) hi
      rw [← hdecoded k (hk.trans hc)]
      exact hbefore k hk
    · have hnot : isFinite (row.getD c 0#64) = false := hspecial.elim not_finite_of_isNaN not_finite_of_isInf
      rw [hdecoded k hk]
      exact isNaN_recoded_of_not_finite (predictorAt_stays_not_finite hck (not_finite_recoded hnot _)) _

end Sys2Proof.Machine
end

section
/-! PROOF. The configuration errors of QUANT, DEQUANT, ENCFRM and DECFRM in the order of QCHECK (spec/42_quantizer.md) and SCHECK
(spec/44_pipeline.md R136). -/

namespace Sys2Proof.Machine

/-! The ranges: what ends with InvalidConfig. -/

/-- The frame, the transform block, the scale and the used weights are in range. -/
def QuantRangeOk (s : State) : Prop :=
  FrameOk s ∧ 1 ≤ s.db ∧ s.db ≤ 32 ∧ 1 ≤ s.scale ∧
    ∀ v < s.db, ∀ u < s.db, s.mem.byte .wmat (0x1000 + 4 * (32 * v + u)) ≠ 0#8

/-- The motion block is in range as well. -/
def SessionRangeOk (s : State) : Prop := QuantRangeOk s ∧ 1 ≤ s.mb ∧ s.mb ≤ 64

theorem quantRangeOk_iff (s : State) :
    QuantRangeOk s ↔ s.badFrame = false ∧ s.badDb = false ∧ s.scale ≠ 0 ∧ s.zeroWeight = false := by
  rw [badFrame_iff, badDb_iff, zeroWeight_iff, ← Nat.one_le_iff_ne_zero, QuantRangeOk, and_assoc]

theorem sessionRangeOk_iff (s : State) :
    SessionRangeOk s ↔
      (s.badFrame = false ∧ s.badDb = false ∧ s.scale ≠ 0 ∧ s.zeroWeight = false) ∧ s.badMb = false := by
  rw [SessionRangeOk, quantRangeOk_iff, badMb_iff]

theorem qcheck_range {s : State} (h : ¬QuantRangeOk s) : s.qcheck = some .invalidConfig := by
  rw [quantRangeOk_iff] at h
  unfold State.qcheck
  split_ifs with hframe hdb hscale hweight
  iterate 4 rfl
  all_goals
    simp only [Bool.not_eq_true] at hframe hdb hweight
    exact absurd ⟨hframe, hdb, hscale, hweight⟩ h

theorem scheck_range {s : State} (h : ¬SessionRangeOk s) : s.scheck = some .invalidConfig := by
  rw [sessionRangeOk_iff] at h
  unfold State.scheck
  split_ifs with hframe hmb hdb hscale hweight
  iterate 5 rfl
  all_goals
    simp only [Bool.not_eq_true] at hframe hmb hdb hweight
    exact absurd ⟨⟨hframe, hdb, hscale, hweight⟩, hmb⟩ h

/-! The divisions, then the power of two. -/

theorem qcheck_of_range {s : State} (h : QuantRangeOk s) :
    s.qcheck = if s.notMultiple s.db then some .invalidBlockSize else if !ispow2 s.db then some .invalidSize else none := by
  obtain ⟨hframe, hdb, hscale, hweight⟩ := (quantRangeOk_iff s).1 h
  simp [State.qcheck, hframe, hdb, hscale, hweight]

theorem scheck_of_range {s : State} (h : SessionRangeOk s) :
    s.scheck = if s.notMultiple s.mb || s.notMultiple s.db then some .invalidBlockSize
      else if !ispow2 s.db then some .invalidSize else none := by
  obtain ⟨⟨hframe, hdb, hscale, hweight⟩, hmb⟩ := (sessionRangeOk_iff s).1 h
  simp only [State.scheck, hframe, hmb, hdb, if_neg hscale, hweight, Bool.false_eq_true, if_false]

theorem notMultiple_of_not {s : State} {b : Nat} (h : ¬(b ∣ s.width ∧ b ∣ s.height)) : s.notMultiple b = true := by
  rwa [← notMultiple_iff, Bool.not_eq_false] at h

theorem qcheck_no_multiple {s : State} (h : QuantRangeOk s) (hd : ¬(s.db ∣ s.width ∧ s.db ∣ s.height)) :
    s.qcheck = some .invalidBlockSize := by
  rw [qcheck_of_range h, if_pos (notMultiple_of_not hd)]

theorem qcheck_no_power {s : State} (h : QuantRangeOk s) (hd : s.db ∣ s.width ∧ s.db ∣ s.height) (hp : ∀ k, s.db ≠ 2 ^ k) :
    s.qcheck = some .invalidSize := by
  rw [qcheck_of_range h, (notMultiple_iff s _).2 hd, ispow2_eq_false hp]; rfl

theorem scheck_no_multiple {s : State} (h : SessionRangeOk s)
    (hd : ¬((s.db ∣ s.width ∧ s.db ∣ s.height) ∧ s.mb ∣ s.width ∧ s.mb ∣ s.height)) : s.scheck = some .invalidBlockSize := by
  rw [scheck_of_range h, if_pos]
  rw [Bool.or_eq_true]
  by_cases hmb : s.mb ∣ s.width ∧ s.mb ∣ s.height
  · exact .inr (notMultiple_of_not fun hdb => hd ⟨hdb, hmb⟩)
  · exact .inl (notMultiple_of_not hmb)

theorem scheck_no_power {s : State} (h : SessionRangeOk s) (hdb : s.db ∣ s.width ∧ s.db ∣ s.height)
    (hmb : s.mb ∣ s.width ∧ s.mb ∣ s.height) (hp : ∀ k, s.db ≠ 2 ^ k) : s.scheck = some .invalidSize := by
  rw [scheck_of_range h, (notMultiple_iff s _).2 hmb, (notMultiple_iff s _).2 hdb, ispow2_eq_false hp]; rfl

/-! The commands. -/

/-- QUANT and DEQUANT make QCHECK alone. -/
theorem exec_qcheck_error {s : State} {e : ErrKind} (h : s.qcheck = some e) :
    ∀ i ∈ [Instr.quantI, .quantP, .dequantI, .dequantP], exec i s = .next (failedWith s e) := by
  intro i hi
  have hc : checkOf i s = s.qcheck := by
    simp only [List.mem_cons, List.not_mem_nil, or_false] at hi
    rcases hi with rfl | rfl | rfl | rfl <;> rfl
  exact exec_failedWith (hc.trans h)

/-- ENCFRM and DECFRM make SCHECK first, whatever the tag and the state of the session (R136). -/
theorem exec_scheck_error {s : State} {e : ErrKind} (h : s.scheck = some e) :
    ∀ i ∈ [Instr.encfrm, .decfrm], exec i s = .next (failedWith s e) := by
  have hdec : s.checkDecfrm = some e := by rw [State.checkDecfrm, h]
  intro i hi
  simp only [List.mem_cons, List.not_mem_nil, or_false] at hi
  rcases hi with rfl | rfl
  · exact exec_failedWith (i := .encfrm) h
  · exact exec_failedWith (i := .decfrm) hdec

/-- Settles O44: what each command checks, and the outcome of its checks in the three cases. -/
theorem configurationErrorsComeInOrder : Obligations.ConfigurationErrorsComeInOrder := by
  intro s quant session tiled divided
  refine ⟨fun i hi => ⟨fun h => ?_, fun h hd => ?_, fun h hd hp => ?_⟩,
    fun i hi => ⟨fun h => ?_, fun h hd => ?_, fun h ⟨hdb, hmb⟩ hp => ?_⟩⟩
  · exact exec_qcheck_error (qcheck_range h) i hi
  · exact exec_qcheck_error (qcheck_no_multiple h hd) i hi
  · exact exec_qcheck_error (qcheck_no_power h hd hp) i hi
  · exact exec_scheck_error (scheck_range h) i hi
  · exact exec_scheck_error (scheck_no_multiple h hd) i hi
  · exact exec_scheck_error (scheck_no_power h hdb hmb hp) i hi

end Sys2Proof.Machine
end

section
/-! PROOF. The steps of the frame pipeline (spec/44_pipeline.md R137 to R145): what they compute element by element, and what the
commits store. -/

namespace Sys2Proof.Machine

/-! Elements of a reconstruction and of a residual. -/

/-- The clamp is on integers, so the pixel is the clamped number itself. -/
theorem toNat_clampPixel (k : Int) : ((clampPixel k).toNat : Int) = max 0 (min k 255) := by
  rw [clampPixel, BitVec.toNat_ofInt]
  omega

theorem shaped_dequantized (s : State) (ft : FrameType) (q : Grid F64) : Shaped s.height s.width (s.dequantized ft q) :=
  shaped_dequantize _ _ _ _ _ _ _

theorem toNat_gridAt_reconIntra (s : State) (q : Grid F64) {y x : Nat} (hy : y < s.height) (hx : x < s.width) :
    ((gridAt (s.reconIntra q) 0#8 y x).toNat : Int) = max 0 (min (gridAt (s.dequantized .intra q) 0 y x) 255) := by
  rw [State.reconIntra, gridAt_map clampPixel 0 _ (shaped_dequantized s .intra q) hy hx, toNat_clampPixel]

theorem toNat_gridAt_reconPred (s : State) (p : Grid Byte) (m : Grid Vec) (q : Grid F64) {y x : Nat} (hy : y < s.height)
    (hx : x < s.width) :
    ((gridAt (s.reconPred p m q) 0#8 y x).toNat : Int) =
      max 0 (min (mc p m s.mb y x + gridAt (s.dequantized .predicted q) 0 y x) 255) := by
  rw [State.reconPred, gridAt_gridOf _ _ hy hx, toNat_clampPixel]

theorem gridAt_frame (s : State) {y x : Nat} (hy : y < s.height) (hx : x < s.width) :
    gridAt s.frame 0 y x = ((gridAt (s.pixels .fin) 0#8 y x).toNat : Int) :=
  gridAt_map (fun p : Byte => (p.toNat : Int)) 0#8 0 (shaped_pixels s .fin) hy hx

/-- The residual in the pixels of FIN (R139). -/
theorem residualOf_eq (s : State) (p : Grid Byte) (m : Grid Vec) :
    s.residualOf p m = (List.range s.height).map fun y => (List.range s.width).map fun x =>
      ((gridAt (s.pixels .fin) 0#8 y x).toNat : Int) - mc p m s.mb y x :=
  List.map_congr_left fun y hy => List.map_congr_left fun x hx =>
    congrArg (· - mc p m s.mb y x) (gridAt_frame s (List.mem_range.1 hy) (List.mem_range.1 hx))

/-! Which step is taken. -/

theorem encoded_first {s : State} (h : s.steadyE = false) : s.encoded = s.encIntra := by simp [State.encoded, h]

theorem encoded_steady {s : State} (h : s.steadyE = true) : s.encoded = s.encPred := by simp [State.encoded, h]

theorem decoded_intra {s : State} (h : s.decFtype = 0#2) : s.decoded = s.decIntra := by
  simp [State.decoded, h, frameTypeOf]

theorem decoded_predicted {s : State} (h : s.decFtype = 1#2) : s.decoded = s.decPred := by
  simp [State.decoded, h, frameTypeOf]

/-! What the commits store (R145), and what they leave to other buffers. -/

section Commit

variable {s : State} {e : Encoded}

/-- Outside RES the commit of ENCFRM is its three writes. -/
theorem commitEnc_cells {b : Buf} (hr : Buf.res ≠ b) :
    (s.commitEnc e).mem.cells b =
      (((s.mem.putCoefs e.coefs).putCodedField e.field).putPixels .recE e.recon).cells b := Memory.cells_forget_other hr

/-- Outside RES the commit of DECFRM is the write of REC_D. -/
theorem commitDec_cells {g : Grid Byte} {b : Buf} (hr : Buf.res ≠ b) :
    (s.commitDec g).mem.cells b = (s.mem.putPixels .recD g).cells b := Memory.cells_forget_other hr

theorem commitEnc_cells_other {b : Buf} (hc : Buf.coef ≠ b) (hm : Buf.mv ≠ b) (hE : Buf.recE ≠ b) (hr : Buf.res ≠ b) :
    (s.commitEnc e).mem.cells b = s.mem.cells b := by
  rw [commitEnc_cells hr, Memory.cells_putPixels_other hE, Memory.cells_putCodedField_other hm, Memory.cells_putCoefs_other hc]

theorem commitDec_cells_other {g : Grid Byte} {b : Buf} (hD : Buf.recD ≠ b) (hr : Buf.res ≠ b) :
    (s.commitDec g).mem.cells b = s.mem.cells b := by
  rw [commitDec_cells hr, Memory.cells_putPixels_other hD]

variable (hwf : s.mem.wf) (hs : FrameOk s)
include hwf hs

theorem commitEnc_coefs (he : Shaped s.height s.width e.coefs) : (s.commitEnc e).coefs = e.coefs := by
  obtain ⟨-, hw, -, hh⟩ := hs
  have hcells : (s.commitEnc e).mem.cells .coef = (s.mem.putCoefs e.coefs).cells .coef := by
    rw [commitEnc_cells (by decide), Memory.cells_putPixels_other (by decide), Memory.cells_putCodedField_other (by decide)]
  rw [State.coefs, Memory.region_congr hcells]
  exact Memory.coefs_putCoefs hwf hh hw he

theorem commitEnc_field {g : Grid Vec} (he : e.field = some g) (hg : Shaped s.fieldRows s.fieldCols g) :
    (s.commitEnc e).field = g := by
  obtain ⟨-, hw, -, hh⟩ := hs
  have hcells : (s.commitEnc e).mem.cells .mv = ((s.mem.putCoefs e.coefs).putField g).cells .mv := by
    rw [commitEnc_cells (by decide), Memory.cells_putPixels_other (by decide), he, Memory.putCodedField]
  rw [State.field, Memory.region_congr hcells]
  exact Memory.field_putField (Memory.putCoefs_wf hwf _) ((Nat.div_le_self _ _).trans hh) ((Nat.div_le_self _ _).trans hw) hg

theorem commitEnc_recE (he : Shaped s.height s.width e.recon) : (s.commitEnc e).pixels .recE = e.recon := by
  obtain ⟨-, hw, -, hh⟩ := hs
  rw [State.pixels, Memory.region_congr (commitEnc_cells (by decide))]
  exact Memory.pixels_putPixels (Memory.putCodedField_wf (Memory.putCoefs_wf hwf _) _) rfl hh hw he

theorem commitDec_recD {g : Grid Byte} (hg : Shaped s.height s.width g) : (s.commitDec g).pixels .recD = g := by
  obtain ⟨-, hw, -, hh⟩ := hs
  rw [State.pixels, Memory.region_congr (commitDec_cells (by decide))]
  exact Memory.pixels_putPixels hwf rfl hh hw hg

end Commit

end Sys2Proof.Machine
end

section
/-! PROOF. The commands ENCFRM, DECFRM, RSTENC and RSTDEC (spec/44_pipeline.md R137 to R147): what a frame that is coded leaves in the
buffers, the errors of DECFRM in their order, and the decoded field's check. -/

namespace Sys2Proof.Machine

/-! The encoder. -/

/-- The state after an ENCFRM that completes. -/
def State.afterEncfrm (s : State) : State := (s.commitEnc s.encoded).complete

theorem exec_encfrm {s : State} (hs : SessionOk s) : exec .encfrm s = .next s.afterEncfrm :=
  exec_of_check_none (i := .encfrm) ((scheck_none_iff s).2 hs)

section Encfrm

variable {s : State}

theorem kept_afterEncfrm (s : State) : KeptOutside s.mem s.afterEncfrm.mem (outputs .encfrm s) := kept_commitEnc s

variable (hwf : s.mem.wf) (hs : SessionOk s)
include hwf hs

theorem afterEncfrm_coefs : s.afterEncfrm.coefs = s.encoded.coefs := by
  obtain ⟨⟨hframe, -⟩, -⟩ := hs
  exact commitEnc_coefs hwf hframe (shaped_encoded s).1

theorem afterEncfrm_recE : s.afterEncfrm.pixels .recE = s.encoded.recon := by
  obtain ⟨⟨hframe, -⟩, -⟩ := hs
  exact commitEnc_recE hwf hframe (shaped_encoded s).2

theorem afterEncfrm_field (hE : s.steadyE = true) : s.afterEncfrm.field = encField s.searchMap := by
  obtain ⟨⟨hframe, -⟩, -⟩ := hs
  refine commitEnc_field hwf hframe ?_ (shaped_dpcmEnc _ _ _ (shaped_searchMap s))
  rw [encoded_steady hE]
  rfl

end Encfrm

/-- Settles O39: the first frame of a session takes the Intra step, whose results the commit stores. -/
theorem encfrmCodesAnIntraFrame : Obligations.EncfrmCodesAnIntraFrame := by
  intro s hwf hs hE cc p2
  have hfirst := encoded_first hE
  refine ⟨s.afterEncfrm, exec_encfrm hs, ?_, ?_, fun y hy x hx => ?_, ?_⟩
  · rw [State.afterEncfrm, hfirst]
    rfl
  · rw [afterEncfrm_coefs hwf hs, hfirst]
    rfl
  · rw [afterEncfrm_recE hwf hs, hfirst]
    exact toNat_gridAt_reconIntra s _ hy hx
  · simpa [outputs, hE] using kept_afterEncfrm s

/-- Settles O40: in Steady the encoder takes the Predicted step, whose results the commit stores. -/
theorem encfrmCodesAPredictedFrame : Obligations.EncfrmCodesAPredictedFrame := by
  intro s hwf hs hE p m rs cc rr
  have hsteady := encoded_steady hE
  have hcc : s.encPred.coefs = cc := congrArg (fun r => encCoef (s.quantized .predicted r)) (residualOf_eq s p m)
  have hrr : rr = s.dequantized .predicted (decCoef s.encPred.coefs) := by rw [hcc]; rfl
  refine ⟨s.afterEncfrm, exec_encfrm hs, ?_, ?_, afterEncfrm_field hwf hs hE, fun y hy x hx => ?_, ?_⟩
  · rw [State.afterEncfrm, hsteady]
    rfl
  · rw [afterEncfrm_coefs hwf hs, hsteady, hcc]
  · rw [afterEncfrm_recE hwf hs, hsteady, hrr]
    exact toNat_gridAt_reconPred s p (decField (encField m)) (decCoef s.encPred.coefs) hy hx
  · simpa [outputs, hE, State.fieldRows, State.fieldCols] using kept_afterEncfrm s

/-! The decoder. -/

/-- The state after a DECFRM that completes. -/
def State.afterDecfrm (s : State) : State := (s.commitDec s.decoded).complete

theorem exec_decfrm {s : State} (hc : s.checkDecfrm = none) : exec .decfrm s = .next s.afterDecfrm :=
  exec_of_check_none (i := .decfrm) hc

theorem kept_afterDecfrm (s : State) :
    KeptOutside s.mem s.afterDecfrm.mem [(.recD, s.height, s.width), (.res, s.height, s.width)] := kept_commitDec s

theorem afterDecfrm_recD {s : State} (hwf : s.mem.wf) (hs : SessionOk s) : s.afterDecfrm.pixels .recD = s.decoded := by
  obtain ⟨⟨hframe, -⟩, -⟩ := hs
  exact commitDec_recD hwf hframe (shaped_decoded s)

/-! Its checks after SCHECK, by the tag (R141). -/

section DecoderCheck

variable {s : State} (hs : SessionOk s)
include hs

theorem checkDecfrm_intra (ht : s.decFtype = 0#2) : s.checkDecfrm = none := by
  simp [State.checkDecfrm, (scheck_none_iff s).2 hs, ht, frameTypeOf]

theorem checkDecfrm_no_frame_type (ht : s.decFtype = 2#2 ∨ s.decFtype = 3#2) : s.checkDecfrm = some .malformedInput := by
  have hnone : frameTypeOf s.decFtype = none := by rcases ht with ht | ht <;> rw [ht] <;> rfl
  simp [State.checkDecfrm, (scheck_none_iff s).2 hs, hnone]

/-- A Predicted frame needs a Steady decoder, then a field that stays inside the frame. -/
theorem checkDecfrm_predicted (ht : s.decFtype = 1#2) :
    s.checkDecfrm =
      if !s.steadyD then some .sequenceError
      else if !fieldInFrame s.width s.height s.mb (decField s.field) then some .malformedInput
      else none := by
  simp [State.checkDecfrm, (scheck_none_iff s).2 hs, ht, frameTypeOf]

theorem checkDecfrm_first (ht : s.decFtype = 1#2) (hD : s.steadyD = false) : s.checkDecfrm = some .sequenceError := by
  simp [checkDecfrm_predicted hs ht, hD]

theorem checkDecfrm_field_out (ht : s.decFtype = 1#2) (hD : s.steadyD = true)
    (hf : fieldInFrame s.width s.height s.mb (decField s.field) = false) : s.checkDecfrm = some .malformedInput := by
  simp [checkDecfrm_predicted hs ht, hD, hf]

theorem checkDecfrm_field_in (ht : s.decFtype = 1#2) (hD : s.steadyD = true)
    (hf : fieldInFrame s.width s.height s.mb (decField s.field) = true) : s.checkDecfrm = none := by
  simp [checkDecfrm_predicted hs ht, hD, hf]

end DecoderCheck

/-! The decoded field (R144). -/

/-- The conditions of R144 on the vector of one block. -/
theorem vecInFrame_iff (W H MB y x : Nat) (v : Vec) :
    vecInFrame W H MB y x v = true ↔
      0 ≤ (x * MB : Int) - v.dx.toInt ∧ (x * MB : Int) + MB - 1 - v.dx.toInt ≤ W - 1 ∧
      0 ≤ (y * MB : Int) - v.dy.toInt ∧ (y * MB : Int) + MB - 1 - v.dy.toInt ≤ H - 1 := by
  simp only [vecInFrame, Bool.and_eq_true, decide_eq_true_eq, and_assoc]

/-- A field passes when every block does. -/
theorem fieldInFrame_iff (W H MB : Nat) (m : Grid Vec) :
    fieldInFrame W H MB m = true ↔
      ∀ y < H / MB, ∀ x < W / MB, vecInFrame W H MB y x (gridAt m ⟨0#16, 0#16⟩ y x) = true := by
  simp only [fieldInFrame, List.all_eq_true, List.mem_range]

/-- Settles O41: with tag 0 the session checks are all, and the commit stores the Intra step's result. -/
theorem decfrmDecodesAnIntraFrame : Obligations.DecfrmDecodesAnIntraFrame := by
  intro s hwf hs ht p2
  refine ⟨s.afterDecfrm, exec_decfrm (checkDecfrm_intra hs ht), rfl, fun y hy x hx => ?_, kept_afterDecfrm s⟩
  rw [afterDecfrm_recD hwf hs, decoded_intra ht]
  exact toNat_gridAt_reconIntra s _ hy hx

/-- Settles O42: the decoded field passes the check, and the commit stores the Predicted step's result. -/
theorem decfrmDecodesAPredictedFrame : Obligations.DecfrmDecodesAPredictedFrame := by
  intro s hwf hs ht hD m hin rr
  have hf : fieldInFrame s.width s.height s.mb (decField s.field) = true :=
    (fieldInFrame_iff _ _ _ _).2 fun y hy x hx => (vecInFrame_iff _ _ _ _ _ _).2 (hin y hy x hx)
  refine ⟨s.afterDecfrm, exec_decfrm (checkDecfrm_field_in hs ht hD hf), rfl, fun y hy x hx => ?_, kept_afterDecfrm s⟩
  rw [afterDecfrm_recD hwf hs, decoded_predicted ht]
  exact toNat_gridAt_reconPred s _ _ _ hy hx

/-- Settles O43: the outcome of the checks after SCHECK in the three cases. -/
theorem decfrmErrorsComeInOrder : Obligations.DecfrmErrorsComeInOrder := by
  intro s hs
  refine ⟨fun ht => ?_, fun ht hD => ?_, fun ht hD ⟨y, hy, x, hx, hout⟩ => ?_⟩
  · exact exec_failedWith (i := .decfrm) (checkDecfrm_no_frame_type hs ht)
  · exact exec_failedWith (i := .decfrm) (checkDecfrm_first hs ht hD)
  · have hf : fieldInFrame s.width s.height s.mb (decField s.field) = false := by
      rw [Bool.eq_false_iff, ne_eq, fieldInFrame_iff]
      exact fun hall => hout ((vecInFrame_iff _ _ _ _ _ _).1 (hall y hy x hx))
    exact exec_failedWith (i := .decfrm) (checkDecfrm_field_out hs ht hD hf)

/-- The searched vectors keep every block inside the frame (R108), and the coding of the field loses nothing. -/
theorem fieldInFrame_encoded (ref tgt : Grid Byte) {W H MB : Nat} (hW : W ≤ 512) (hH : H ≤ 512) (R : Nat) (ssd : Bool) :
    fieldInFrame W H MB (decField (encField (meMap ref tgt W H MB R ssd))) = true := by
  rw [(vectorDpcmIsLossless _).1, fieldInFrame_iff]
  intro y hy x hx
  have hrange := (meMap_spec hy hx hW hH R ref tgt ssd).inSearchRange (block_end_le hx) (block_end_le hy)
  have hin := hrange.block_in_frame
  rw [vecInFrame_iff]
  omega

/-- Settles O45: the encoder's vectors come from the search range. -/
theorem encodedFieldPassesTheDecoderCheck : Obligations.EncodedFieldPassesTheDecoderCheck :=
  fun ref tgt _ _ _ R ssd _ _ _ hW hH => fieldInFrame_encoded ref tgt hW hH R ssd

/-- Settles O13: the two commands have no checks; a fresh encoder takes the Intra step, and a fresh decoder refuses a Predicted
frame. -/
theorem sessionCommandsRestartOnePipeline : Obligations.SessionCommandsRestartOnePipeline := by
  refine ⟨fun s => exec_of_check_none (i := .rstenc) rfl, fun s => exec_of_check_none (i := .rstdec) rfl,
    fun s hs hE => ⟨s.afterEncfrm, exec_encfrm hs, ?_, rfl⟩,
    fun s hs hD ht => exec_failedWith (i := .decfrm) (checkDecfrm_first hs ht hD)⟩
  rw [State.afterEncfrm, encoded_first hE]
  rfl

end Sys2Proof.Machine
end

section
/-! PROOF. The closed loop (spec/44_pipeline.md R148): a decoder that is given an encoder's output and holds the same previous frame
computes the encoder's reconstruction; so the two stay equal over every sequence of frames. -/

namespace Sys2Proof.Machine

/-! States with one session configuration (R49). -/

/-- `t` has the session configuration of `s`. -/
structure SameSession (s t : State) : Prop where
  frameW : t.frameW = s.frameW
  frameH : t.frameH = s.frameH
  mbSize : t.mbSize = s.mbSize
  dbSize : t.dbSize = s.dbSize
  qscale : t.qscale = s.qscale
  wmat : t.mem.cells .wmat = s.mem.cells .wmat

namespace SameSession

variable {s t u : State}

theorem trans (h : SameSession s t) (h' : SameSession t u) : SameSession s u :=
  ⟨h'.frameW.trans h.frameW, h'.frameH.trans h.frameH, h'.mbSize.trans h.mbSize, h'.dbSize.trans h.dbSize,
    h'.qscale.trans h.qscale, h'.wmat.trans h.wmat⟩

theorem width_eq (h : SameSession s t) : t.width = s.width := congrArg BitVec.toNat h.frameW

theorem height_eq (h : SameSession s t) : t.height = s.height := congrArg BitVec.toNat h.frameH

theorem mb_eq (h : SameSession s t) : t.mb = s.mb := congrArg BitVec.toNat h.mbSize

theorem db_eq (h : SameSession s t) : t.db = s.db := congrArg BitVec.toNat h.dbSize

theorem scale_eq (h : SameSession s t) : t.scale = s.scale := congrArg BitVec.toNat h.qscale

theorem weights_eq (h : SameSession s t) : t.weights = s.weights := by
  rw [State.weights, State.weights, h.db_eq]
  exact Memory.region_congr h.wmat _ _

theorem sessionOk (h : SameSession s t) (hs : SessionOk s) : SessionOk t := by
  rw [← scheck_none_iff] at hs ⊢
  rwa [scheck_congr h.frameW h.frameH h.mbSize h.dbSize h.qscale h.wmat]

/-- Equal cells of a buffer are equal pixels. -/
theorem pixels_eq (h : SameSession s t) {b : Buf} (hb : t.mem.cells b = s.mem.cells b) : t.pixels b = s.pixels b := by
  rw [State.pixels, State.pixels, h.width_eq, h.height_eq, Memory.region_congr hb]

theorem reconIntra_eq (h : SameSession s t) (q : Grid F64) : t.reconIntra q = s.reconIntra q := by
  simp only [State.reconIntra, State.dequantized, h.width_eq, h.height_eq, h.db_eq, h.scale_eq, h.weights_eq]

theorem reconPred_eq (h : SameSession s t) (p : Grid Byte) (m : Grid Vec) (q : Grid F64) :
    t.reconPred p m q = s.reconPred p m q := by
  simp only [State.reconPred, State.dequantized, h.width_eq, h.height_eq, h.mb_eq, h.db_eq, h.scale_eq, h.weights_eq]

end SameSession

/-! One frame handed over: the decoder's state `d` holds the output of the encoding step of `e`. -/

/-- The decoder in `d` is in the encoder's state of `e`, has its configuration and its previous frame, and is given its output. -/
structure HandedOver (e d : State) : Prop where
  session : SameSession e d
  tag : d.decFtype = e.encoded.tag.tag
  coefs : d.coefs = e.encoded.coefs
  field : e.steadyE = true → d.field = encField e.searchMap
  steady : d.steadyD = e.steadyE
  previous : e.steadyE = true → d.pixels .recD = e.pixels .recE

namespace HandedOver

variable {e d : State}

theorem tag_first (h : HandedOver e d) (hE : e.steadyE = false) : d.decFtype = 0#2 := by
  rw [h.tag, encoded_first hE]; rfl

theorem tag_steady (h : HandedOver e d) (hE : e.steadyE = true) : d.decFtype = 1#2 := by
  rw [h.tag, encoded_steady hE]; rfl

/-- The decoder accepts the frame (R141, R144). -/
theorem checkDecfrm_none (h : HandedOver e d) (hs : SessionOk e) : d.checkDecfrm = none := by
  have hd : SessionOk d := h.session.sessionOk hs
  cases hE : e.steadyE with
  | false => exact checkDecfrm_intra hd (h.tag_first hE)
  | true =>
    obtain ⟨⟨⟨-, hW, -, hH⟩, -⟩, -⟩ := hs
    refine checkDecfrm_field_in hd (h.tag_steady hE) (h.steady.trans hE) ?_
    rw [h.field hE, h.session.width_eq, h.session.height_eq, h.session.mb_eq]
    exact fieldInFrame_encoded _ _ hW hH _ _

/-- The decoder evaluates the encoder's reconstruction on the same operands (R138 and R142, R139 and R143). -/
theorem decoded_eq (h : HandedOver e d) : d.decoded = e.encoded.recon := by
  cases hE : e.steadyE with
  | false =>
    rw [decoded_intra (h.tag_first hE), State.decIntra, h.coefs, h.session.reconIntra_eq, encoded_first hE]
    rfl
  | true =>
    rw [decoded_predicted (h.tag_steady hE), State.decPred, h.coefs, h.field hE, h.previous hE, h.session.reconPred_eq,
      encoded_steady hE]
    rfl

end HandedOver

/-! One frame through both pipelines. -/

/-- The host has placed a frame in FIN and ENCFRM is accepted. -/
def State.presented (s : State) (frame : Grid Byte) : State :=
  { s with mem := s.mem.putPixels .fin frame }.withCommand (encode .encfrm)

/-- The host has copied ENC_FTYPE to DEC_FTYPE and DECFRM is accepted. -/
def State.handed (t : State) : State := (t.writeReg .decFtype (t.readReg .encFtype)).withCommand (encode .decfrm)

theorem codeFrame_of_exec {s t u : State} {frame : Grid Byte} (he : exec .encfrm (s.presented frame) = .next t)
    (ht : t.err = false) (hd : exec .decfrm t.handed = .next u) (hu : u.err = false) : codeFrame s frame = some u := by
  simp only [State.presented, State.handed] at he hd
  simp [codeFrame, he, nextOf, ht, hd, hu]

/-- The copied tag fits DEC_FTYPE. -/
theorem handed_decFtype (t : State) : t.handed.decFtype = t.encFtype := by
  have hcopy : ∀ tag : BitVec 2, (tag.setWidth 32).extractLsb' 0 2 = tag := by decide
  exact hcopy t.encFtype

theorem sameSession_presented (s : State) (frame : Grid Byte) : SameSession s (s.presented frame) :=
  ⟨rfl, rfl, rfl, rfl, rfl, Memory.cells_putPixels_other (by decide) _ _⟩

theorem sameSession_handed (e : State) : SameSession e e.afterEncfrm.handed :=
  ⟨rfl, rfl, rfl, rfl, rfl, commitEnc_cells_wmat e _⟩

theorem sameSession_afterDecfrm (d : State) : SameSession d d.afterDecfrm :=
  ⟨rfl, rfl, rfl, rfl, rfl, commitDec_cells_wmat d _⟩

/-- Both sessions are in one state and, once they have coded a frame, hold the same one. -/
structure InLoop (s : State) : Prop where
  wf : s.mem.wf
  session : SessionOk s
  together : s.steadyD = s.steadyE
  previous : s.steadyE = true → s.pixels .recD = s.pixels .recE

namespace InLoop

theorem presented {s : State} (h : InLoop s) (frame : Grid Byte) : InLoop (s.presented frame) := by
  have hsame := sameSession_presented s frame
  refine ⟨Memory.putPixels_wf h.wf _ _, hsame.sessionOk h.session, h.together, fun hE => ?_⟩
  rw [hsame.pixels_eq (Memory.cells_putPixels_other (by decide) _ _),
    hsame.pixels_eq (Memory.cells_putPixels_other (by decide) _ _)]
  exact h.previous hE

variable {e : State} (h : InLoop e)
include h

/-- What DECFRM is given right after ENCFRM is the output of ENCFRM; REC_D still holds the previous frame. -/
theorem handedOver : HandedOver e e.afterEncfrm.handed where
  session := sameSession_handed e
  tag := handed_decFtype e.afterEncfrm
  coefs := afterEncfrm_coefs h.wf h.session
  field := afterEncfrm_field h.wf h.session
  steady := h.together
  previous hE := by
    rw [← h.previous hE]
    exact (sameSession_handed e).pixels_eq
      (commitEnc_cells_other (by decide) (by decide) (by decide) (by decide))

/-- After the frame both sessions are Steady and hold the encoder's reconstruction. -/
theorem afterFrame : InLoop e.afterEncfrm.handed.afterDecfrm := by
  have hsame := sameSession_handed e
  have hwf : e.afterEncfrm.handed.mem.wf := commitEnc_mem_wf h.wf _
  have hs : SessionOk e.afterEncfrm.handed := hsame.sessionOk h.session
  refine ⟨commitDec_mem_wf hwf _, (sameSession_afterDecfrm _).sessionOk hs, rfl, fun _ => ?_⟩
  calc e.afterEncfrm.handed.afterDecfrm.pixels .recD
      = e.afterEncfrm.handed.decoded := afterDecfrm_recD hwf hs
    _ = e.encoded.recon := h.handedOver.decoded_eq
    _ = e.afterEncfrm.handed.pixels .recE := (afterEncfrm_recE h.wf h.session).symm
    _ = e.afterEncfrm.handed.afterDecfrm.pixels .recE :=
        ((sameSession_afterDecfrm _).pixels_eq (commitDec_cells_other (by decide) (by decide))).symm

end InLoop

/-- One frame runs without error and keeps the loop; both sessions are Steady after it, and both counters have grown by 1. -/
theorem codeFrame_inLoop {s : State} (h : InLoop s) (frame : Grid Byte) :
    ∃ t, codeFrame s frame = some t ∧ InLoop t ∧ t.steadyE = true ∧
      t.encFcnt = s.encFcnt + 1#32 ∧ t.decFcnt = s.decFcnt + 1#32 := by
  have he := h.presented frame
  exact ⟨(s.presented frame).afterEncfrm.handed.afterDecfrm,
    codeFrame_of_exec (exec_encfrm he.session) rfl (exec_decfrm (he.handedOver.checkDecfrm_none he.session)) rfl,
    he.afterFrame, rfl, rfl, rfl⟩

/-! Sequences of frames. -/

theorem codeFrames_cons {s t : State} {frame : Grid Byte} (h : codeFrame s frame = some t) (frames : List (Grid Byte)) :
    codeFrames s (frame :: frames) = codeFrames t frames := by simp [codeFrames, h]

theorem codeFrames_inLoop (frames : List (Grid Byte)) :
    ∀ {s : State}, InLoop s → ∃ t, codeFrames s frames = some t ∧ InLoop t ∧
      (s.steadyE = true ∨ frames ≠ [] → t.steadyE = true) ∧
      t.encFcnt = s.encFcnt + BitVec.ofNat 32 frames.length ∧ t.decFcnt = s.decFcnt + BitVec.ofNat 32 frames.length := by
  induction frames with
  | nil => exact fun {s} h => ⟨s, rfl, h, by simp, by simp, by simp⟩
  | cons frame frames ih =>
    intro s h
    obtain ⟨t, ht, hloop, hsteady, henc, hdec⟩ := codeFrame_inLoop h frame
    obtain ⟨u, hu, hloop', hsteady', henc', hdec'⟩ := ih hloop
    have hcount (n : Word) : n + 1#32 + BitVec.ofNat 32 frames.length = n + BitVec.ofNat 32 (frame :: frames).length := by
      rw [List.length_cons, Nat.add_comm, BitVec.ofNat_add, BitVec.add_assoc]
    refine ⟨u, (codeFrames_cons ht frames).trans hu, hloop', fun _ => hsteady' (.inl hsteady), ?_, ?_⟩
    · rw [henc', henc, hcount]
    · rw [hdec', hdec, hcount]

/-- Settles O47: by induction on the frames, with both sessions in one state and equal previous frames as the invariant. -/
theorem closedLoopStaysConsistent : Obligations.ClosedLoopStaysConsistent := by
  intro s frames hwf hs _ hE hD _
  have hstart : InLoop s := ⟨hwf, hs, hD.trans hE.symm, fun h => absurd (hE.symm.trans h) Bool.false_ne_true⟩
  obtain ⟨t, ht, hloop, hsteady, hcounters⟩ := codeFrames_inLoop frames hstart
  exact ⟨t, ht, fun hne => hloop.previous (hsteady (.inr hne)), hcounters⟩

end Sys2Proof.Machine
end

section
/-! PROOF. NOP (spec/45_system.md R150): its acceptance by the write of CMD, and its completion. -/

namespace Sys2Proof.Machine

/-- NOP has no checks and no effect, so what is left of it is its completion (R150, R162). -/
theorem exec_nop (s : State) : exec .nop s = .next s.complete := exec_of_check_none (i := .nop) rfl

/-- Settles O12: an idle write of CMD is an acceptance, whatever the word; NOP only completes. -/
theorem nopDoesNothingButComplete : Obligations.NopDoesNothingButComplete := by
  refine ⟨fun s hb => ?accepted, exec_nop⟩
  case accepted =>
    simp only [writeCmd_idle hb, State.accept_busy, State.accept_done, State.accept_err, State.accept_errcode, and_self]

end Sys2Proof.Machine
end

section
/-! PROOF. How a command ends (spec/60_exceptions.md R154, R160, R162): a word outside the table of R78 with IllegalCommand, a
command with DONE or with its error. -/

namespace Sys2Proof.Machine

/-! A word outside the table. -/

/-- The commands in the order of R78. -/
def commandTable : List Instr :=
  [.nop, .fft, .ifft, .dct1d, .idct1d, .dct2d, .idct2d, .bdct2d, .ibdct2d, .meblk, .memap, .quantI, .quantP, .dequantI, .dequantP,
    .dpcmencC, .dpcmdecC, .dpcmencV, .dpcmdecV, .encfrm, .decfrm, .rstenc, .rstdec]

theorem mem_commandTable (i : Instr) : i ∈ commandTable := by cases i <;> decide

/-- The column `word` of R78, as numbers. -/
abbrev tableWords : List Nat :=
  [0x000, 0x001, 0x002, 0x003, 0x004, 0x005, 0x006, 0x007, 0x008, 0x010, 0x011, 0x020, 0x120, 0x021, 0x121,
    0x030, 0x031, 0x032, 0x033, 0x040, 0x041, 0x042, 0x043]

theorem map_encode_commandTable : commandTable.map (fun i => (encode i).toNat) = tableWords := by decide

theorem toNat_mem_tableWords_iff {w : Word} : w.toNat ∈ tableWords ↔ ∃ i, encode i = w := by
  rw [← map_encode_commandTable, List.mem_map]
  exact exists_congr fun i => ⟨fun ⟨_, h⟩ => BitVec.eq_of_toNat_eq h, fun h => ⟨mem_commandTable i, congrArg _ h⟩⟩

/-- A word decodes to no command but the one it encodes. -/
theorem decode_eq_ok_iff {w : Word} {i : Instr} : decode w = .ok i ↔ encode i = w :=
  ⟨fun h => encode_of_fields (fields_of_decode h), fun h => h ▸ decode_encode i⟩

theorem decodes_iff_mem_tableWords (w : Word) : (∃ i, decode w = .ok i) ↔ w.toNat ∈ tableWords := by
  simp only [decode_eq_ok_iff, toNat_mem_tableWords_iff]

theorem decode_error_of_not_mem {w : Word} (hw : w.toNat ∉ tableWords) : ∃ r, decode w = .error r := by
  cases hd : decode w with
  | ok i => exact absurd ((decodes_iff_mem_tableWords w).1 ⟨i, hd⟩) hw
  | error r => exact ⟨r, rfl⟩

/-- The step of an illegal word raises IllegalCommand, whichever check of R82 rejects the word (R80, R154). -/
theorem step_illegal {s : State} {r : Illegal} (hb : s.busy = true) (hw : s.wait = 0) (hd : decode s.cmd = .error r) :
    step s = .next (s.raise .illegalCommand) := by
  rw [step_eq_turn, turn_command hb hw, runCommand_error hd]

/-- Settles O2: the words that decode are the encodings of the 23 commands; acceptance does not look at the word, and the step
of a word that does not decode raises IllegalCommand. -/
theorem everyOtherWordIsIllegal : Obligations.EveryOtherWordIsIllegal := by
  refine fun w => ⟨decodes_iff_mem_tableWords w, fun hw => ⟨fun s hb => ?accepted, fun s hb hwait hcmd => ?ends⟩⟩
  case accepted =>
    simp only [writeCmd_idle hb, State.accept_busy, State.accept_cmd, and_self]
  case ends =>
    obtain ⟨r, hr⟩ := decode_error_of_not_mem hw
    exact step_illegal hb hwait (hcmd ▸ hr)

/-! A command. -/

/-- The effect of a command leaves the error fields to its completion (R162). -/
@[simp] theorem effectOf_err (i : Instr) (s : State) : (effectOf i s).err = s.err := by cases i <;> rfl

@[simp] theorem effectOf_errcode (i : Instr) (s : State) : (effectOf i s).errcode = s.errcode := by cases i <;> rfl

/-- Settles O7: the checks decide which way a command ends. -/
theorem commandEndsInOneOfTwoWays : Obligations.CommandEndsInOneOfTwoWays := by
  intro i s
  cases hc : checkOf i s with
  | none => exact .inl ⟨_, exec_of_check_none hc, by simp⟩
  | some e => exact .inr ⟨e, exec_failedWith hc, rfl⟩

end Sys2Proof.Machine
end

section
/-! PROOF. What stops the machine (spec/70_reset_and_hazards.md R181; spec/60_exceptions.md R160): a running command ends in every
case, and of the host's turns only an access that is forbidden while a command runs has no next state. -/

namespace Sys2Proof.Machine

/-! The end of the running command. -/

theorem effectOf_cmd (i : Instr) (s : State) : (effectOf i s).cmd = s.cmd := by cases i <;> rfl

theorem effectOf_ovr (i : Instr) (s : State) : (effectOf i s).ovr = s.ovr := by cases i <;> rfl

theorem effectOf_host (i : Instr) (s : State) : (effectOf i s).host = s.host := by cases i <;> rfl

/-- What is known of the end `t` of the command `s` runs, whichever it is: BUSY is 0 and a flag tells it (R162), CMD keeps the
word (R164), OVR and the host's queue are no command's concern. -/
structure EndOf (s t : State) : Prop where
  busy : t.busy = false
  flag : t.done = true ∨ t.err = true
  cmd : t.cmd = s.cmd
  ovr : t.ovr = s.ovr
  host : t.host = s.host

theorem endOf_raise (s : State) (e : ErrKind) : EndOf s (s.raise e) := ⟨rfl, .inr rfl, rfl, rfl, rfl⟩

theorem endOf_complete (i : Instr) (s : State) : EndOf s (effectOf i s).complete :=
  ⟨rfl, .inl rfl, effectOf_cmd i s, effectOf_ovr i s, effectOf_host i s⟩

/-- The running command always ends, legal or not, its checks passed or not. -/
theorem runCommand_ends (s : State) : ∃ t, runCommand s = .next t ∧ EndOf s t := by
  cases hd : decode s.cmd with
  | error r => exact ⟨_, runCommand_error hd, endOf_raise s _⟩
  | ok i =>
    rw [runCommand_ok hd]
    cases hc : checkOf i s with
    | some e => exact ⟨_, exec_of_check_some hc, endOf_raise s e⟩
    | none => exact ⟨_, exec_of_check_none hc, endOf_complete i s⟩

/-! The host's accesses and turns. -/

theorem busRead_ne_refused (s : State) (off : Offset) (size : Nat) (r : Refusal) : s.busRead off size ≠ .refused r := by
  rcases busRead_cases s off size with ⟨-, e⟩ | ⟨-, -, -, e⟩ | ⟨-, -, e⟩ <;> simp [e]

theorem busWrite_ne_refused (s : State) (off : Offset) (size : Nat) (v : BitVec 64) (r : Refusal) :
    s.busWrite off size v ≠ .refused r := by
  rcases busWrite_cases s off size v with ⟨-, e⟩ | ⟨-, -, -, e⟩ | ⟨-, -, e⟩ <;> simp [e]

/-- A read stops the machine exactly when it is no bus error and forbidden while a command runs, at its own offset. -/
theorem busRead_hazard_iff (s : State) (off o : Offset) (size : Nat) :
    s.busRead off size = .fault (.hazard o) ↔
      s.busy = true ∧ off = o ∧ Accessible off.toNat size ∧ ¬PermittedBusy false off.toNat := by
  rw [← admitted_iff, ← allowedBusy_iff]
  rcases busRead_cases s off size with ⟨ha, e⟩ | ⟨ha, hb, hn, e⟩ | ⟨-, hb | hp, e⟩
  · simp [e, ha]
  · simp [e, ha, hb, hn]
  · simp [e, hb]
  · simp [e, hp]

theorem busWrite_hazard_iff (s : State) (off o : Offset) (size : Nat) (v : BitVec 64) :
    s.busWrite off size v = .fault (.hazard o) ↔
      s.busy = true ∧ off = o ∧ Accessible off.toNat size ∧ ¬PermittedBusy true off.toNat := by
  rw [← admitted_iff, ← allowedBusy_iff]
  rcases busWrite_cases s off size v with ⟨ha, e⟩ | ⟨ha, hb, hn, e⟩ | ⟨-, hb | hp, e⟩
  · simp [e, ha]
  · simp [e, ha, hb, hn]
  · simp [e, hb]
  · simp [e, hp]

/-- The access that stands first in the queue is a forbidden one at this offset, and no bus error (R181). -/
def NextIsForbidden (s : State) (off : Offset) : Prop :=
  ∃ size rest, Accessible off.toNat size ∧
    ((s.host = .read off size :: rest ∧ ¬PermittedBusy false off.toNat) ∨
     ∃ v, s.host = .write off size v :: rest ∧ ¬PermittedBusy true off.toNat)

theorem hostTurn_ne_refused (s : State) (r : Refusal) : hostTurn s ≠ .refused r := by
  unfold hostTurn
  split
  · simp
  · simp
  · simp
  · exact busRead_ne_refused _ _ _ r
  · exact busWrite_ne_refused _ _ _ _ r

theorem hostTurn_hazard_iff (s : State) (off : Offset) :
    hostTurn s = .fault (.hazard off) ↔ s.busy = true ∧ NextIsForbidden s off := by
  unfold NextIsForbidden
  cases hh : s.host with
  | nil => simp [hostTurn_nil hh]
  | cons op rest =>
    cases op with
    | idle => simp [hostTurn_idle hh]
    | wait => simp [hostTurn_wait hh]
    | read off' size =>
      rw [hostTurn_read hh, busRead_hazard_iff]
      refine and_congr_right fun _ => ⟨?_, ?_⟩
      · rintro ⟨rfl, ha, hn⟩
        exact ⟨size, rest, ha, .inl ⟨rfl, hn⟩⟩
      · rintro ⟨size', rest', ha, ⟨e, hn⟩ | ⟨v, e, -⟩⟩
        · cases e; exact ⟨rfl, ha, hn⟩
        · cases e
    | write off' size v =>
      rw [hostTurn_write hh, busWrite_hazard_iff]
      refine and_congr_right fun _ => ⟨?_, ?_⟩
      · rintro ⟨rfl, ha, hn⟩
        exact ⟨size, rest, ha, .inr ⟨v, rfl, hn⟩⟩
      · rintro ⟨size', rest', ha, ⟨e, -⟩ | ⟨v', e, hn⟩⟩
        · cases e
        · cases e; exact ⟨rfl, ha, hn⟩

/-- Settles O6: the engine's turn ends the command, and the host's turn stops at a forbidden access alone. -/
theorem onlyForbiddenAccessesStopTheMachine : Obligations.OnlyForbiddenAccessesStopTheMachine := by
  intro s
  cases hb : s.busy with
  | false =>
    rw [step_eq_turn, turn_idle hb]
    exact ⟨hostTurn_ne_refused s, fun off => by simp [hostTurn_hazard_iff, hb]⟩
  | true =>
    by_cases hw : s.wait = 0
    · obtain ⟨t, ht, -⟩ := runCommand_ends s
      rw [step_eq_turn, turn_command hb hw, ht]
      exact ⟨nofun, fun off => by simp [hw]⟩
    · rw [step_eq_turn, turn_waiting hb hw]
      refine ⟨hostTurn_ne_refused _, fun off => (hostTurn_hazard_iff _ off).trans ?_⟩
      exact ⟨fun ⟨_, hf⟩ => ⟨rfl, Nat.pos_of_ne_zero hw, hf⟩, fun ⟨_, _, hf⟩ => ⟨hb, hf⟩⟩

end Sys2Proof.Machine
end

section
/-! PROOF. Soft reset (spec/70_reset_and_hazards.md R176 to R178). -/

namespace Sys2Proof.Machine

/-- An aborted command spoils the regions its row of R84 lists as written, and no other byte (R177). -/
theorem kept_abortMem {s : State} {i : Instr} (hd : decode s.cmd = .ok i) : KeptOutside s.mem s.abortMem (outputs i s) := by
  rw [State.abortMem, hd]
  exact fun b off => foldl_forget_byte s.draw b off (outputs i s) s.mem

/-- An illegal word has no row of R84. -/
theorem abortMem_illegal {s : State} {r : Illegal} (hd : decode s.cmd = .error r) : s.abortMem = s.mem := by
  rw [State.abortMem, hd]

/-- Clearing the weights on both sides touches none of the buffers. -/
theorem KeptOutside.clear_wmat {m m' : Memory} {l : List (Buf × Nat × Nat)} (h : KeptOutside m m' l) :
    KeptOutside { m with wmat := [] } { m' with wmat := [] } l := by
  intro b off hr
  cases b with
  | wmat => rfl
  | vbuf | fin | recE | recD | res | coef | mv => exact h _ off hr

theorem softReset_mem_idle {s : State} (hb : s.busy = false) : s.softReset.mem = { s.mem with wmat := [] } := by
  simp [State.softReset, hb, Memory.reset]

theorem softReset_mem_busy {s : State} (hb : s.busy = true) : s.softReset.mem = { s.abortMem with wmat := [] } := by
  simp [State.softReset, hb, Memory.reset]

/-- After a soft reset every weight is 16 again (R52, R176). -/
theorem softReset_weight (s : State) {y x : Nat} (hy : y < 32) (hx : x < 32) : s.softReset.mem.elem .wmat y x = 16 := by
  rw [← Memory.elem_reset_wmat hy hx, weight_elem, weight_elem]
  rfl

/-- A write of CTRL with bit 0 set is the soft reset, whether or not a command runs (R176, R181). -/
theorem busWrite_softReset (s : State) {v : BitVec 64} (hv : v.getLsbD 0 = true) :
    s.busWrite 0x004#24 4 v = .next { s.softReset with resp := .ack } := by
  refine (busWrite_register .ctrl v (.inr rfl)).trans ?_
  rw [State.writeReg, writeCtrl_reset s ((word_of_bus_bit v (by decide)).trans hv)]

/-- Settles O52: the registers are those of `State.reset`, and the regions of the statement are those of `outputs`. -/
theorem softResetRestoresTheRegisters : Obligations.SoftResetRestoresTheRegisters := by
  intro s v hv m
  refine ⟨_, busWrite_softReset s hv, rfl, fun y x => softReset_weight s, fun hb => ?_,
    fun hb => ⟨fun r hd => ?_, fun i hd => ?_⟩⟩
  · change KeptOutside m s.softReset.mem []
    rw [softReset_mem_idle hb]
    exact KeptOutside.refl m []
  · change KeptOutside m s.softReset.mem []
    rw [softReset_mem_busy hb, abortMem_illegal hd]
    exact KeptOutside.refl m []
  · have kept : KeptOutside m s.softReset.mem (outputs i s) := by
      rw [softReset_mem_busy hb]
      exact (kept_abortMem hd).clear_wmat
    cases i <;> exact kept

end Sys2Proof.Machine
end

section
/-! PROOF. The engine's duration and the host that waits (spec/70_reset_and_hazards.md R185, R187). -/

namespace Sys2Proof.Machine

/-! The last answer of the bus (log 8), which no command reads. -/

theorem checkOf_resp (i : Instr) (s : State) (r : BusResp) : checkOf i { s with resp := r } = checkOf i s := by
  cases i <;> rfl

theorem effectOf_resp (i : Instr) (s : State) (r : BusResp) :
    effectOf i { s with resp := r } = { effectOf i s with resp := r } := by
  cases i <;> rfl

/-- What the bus last answered is nothing to the running command. -/
theorem runCommand_resp {s t : State} (h : runCommand s = .next t) (r : BusResp) :
    runCommand { s with resp := r } = .next { t with resp := r } := by
  cases hd : decode s.cmd with
  | error e =>
    cases (runCommand_error hd).symm.trans h
    exact runCommand_error hd
  | ok i =>
    rw [runCommand_ok hd] at h
    rw [runCommand_ok (s := { s with resp := r }) hd]
    cases hc : checkOf i s with
    | some e =>
      cases (exec_of_check_some hc).symm.trans h
      exact exec_of_check_some ((checkOf_resp i s r).trans hc)
    | none =>
      cases (exec_of_check_none hc).symm.trans h
      rw [exec_of_check_none ((checkOf_resp i s r).trans hc), effectOf_resp]
      rfl

/-! Waiting. -/

/-- The state after a WAIT that has seen BUSY = 0: STATUS is read, and the queue moves on (R87). -/
def State.afterWait (s : State) (rest : List HostOp) : State :=
  { s with resp := .data (s.statusWord.setWidth 64), host := rest }

theorem hostTurn_wait_over {s : State} {rest : List HostOp} (hb : s.busy = false) (h : s.host = .wait :: rest) :
    hostTurn s = .next (s.afterWait rest) := by
  rw [hostTurn_wait h, if_neg (Bool.eq_false_iff.1 hb)]
  rfl

theorem hostTurn_wait_running {s : State} {rest : List HostOp} (hb : s.busy = true) (h : s.host = .wait :: rest) :
    hostTurn s = .next { s with resp := .data (s.statusWord.setWidth 64) } := by
  rw [hostTurn_wait h, if_pos hb]

/-- A poll while the command has turns left takes one of them and leaves nothing but its answer. -/
theorem step_poll {s : State} {d : Nat} {rest : List HostOp} (hb : s.busy = true) (hh : s.host = .wait :: rest) :
    step { s with wait := d + 1 } = .next { s with wait := d, resp := .data (s.statusWord.setWidth 64) } := by
  rw [step_eq_turn, turn_waiting (s := { s with wait := d + 1 }) hb (Nat.succ_ne_zero d)]
  exact hostTurn_wait_running (s := { s with wait := d }) hb hh

/-- A host that waits through the turns of a command meets its end with some answer of STATUS, and nothing else changed. -/
theorem runFor_polls {rest : List HostOp} (k d : Nat) {s : State} (hb : s.busy = true) (hh : s.host = .wait :: rest) :
    ∃ r, runFor (d + k) { s with wait := d } = runFor k { s with wait := 0, resp := r } := by
  induction d generalizing s with
  | zero => exact ⟨s.resp, by rw [Nat.zero_add]⟩
  | succ d ih =>
    rw [Nat.add_right_comm, runFor_next (step_poll hb hh)]
    exact ih (s := { s with resp := .data (s.statusWord.setWidth 64) }) hb hh

/-- The command's end and the host's last poll: whatever the host read before is overwritten. -/
theorem runFor_two {s t : State} {rest : List HostOp} (hb : s.busy = true) (hw : s.wait = 0) (hh : s.host = .wait :: rest)
    (ht : runCommand s = .next t) (e : EndOf s t) (r : BusResp) :
    runFor 2 { s with resp := r } = .next (t.afterWait rest) := by
  have hrun : step { s with resp := r } = .next { t with resp := r } :=
    (turn_command (s := { s with resp := r }) hb hw).trans (runCommand_resp ht r)
  have hpoll : step { t with resp := r } = .next (t.afterWait rest) :=
    (turn_idle (s := { t with resp := r }) e.busy).trans
      (hostTurn_wait_over (s := { t with resp := r }) e.busy (e.host.trans hh))
  rw [runFor_next hrun, runFor_next hpoll, runFor_zero]

/-- Settles O55: the polls of a longer duration leave only their answers, which the last poll overwrites. -/
theorem durationDoesNotChangeTheResult : Obligations.DurationDoesNotChangeTheResult := by
  intro s d rest hb hh
  obtain ⟨t, ht, e⟩ := runCommand_ends { s with wait := 0 }
  have ends := runFor_two (s := { s with wait := 0 }) hb rfl hh ht e
  obtain ⟨r, hr⟩ := runFor_polls 2 d hb hh
  have hlong : runFor (d + 2) { s with wait := d } = .next (t.afterWait rest) := hr.trans (ends r)
  exact ⟨hlong.trans (ends s.resp).symm, _, hlong, e.busy, rfl⟩

end Sys2Proof.Machine
end

section
/-! PROOF. An accepted command completes whatever the host does short of a hazard or a soft reset (spec/70_reset_and_hazards.md
R186; spec/60_exceptions.md R164). -/

namespace Sys2Proof.Machine

/-- `t` still runs the command `s` runs, with as many turns left, and its host has no access to make that the host of `s` had
not. -/
structure StillRunning (s t : State) : Prop where
  busy : t.busy = true
  cmd : t.cmd = s.cmd
  wait : t.wait = s.wait
  host : t.host ⊆ s.host

/-- The registers a host may write while a command runs, CTRL without its reset bit, do not disturb the command (R164, R181). -/
theorem stillRunning_writeReg {s : State} (hb : s.busy = true) {r : Reg} (hr : r ∈ [Reg.ctrl, .status, .cmd]) {v : Word}
    (hv : r = .ctrl → v.getLsbD 0 = false) : StillRunning s (s.writeReg r v) := by
  fin_cases hr
  · change StillRunning s (s.writeCtrl v)
    rw [writeCtrl_set s (hv rfl)]
    exact ⟨hb, rfl, rfl, List.Subset.refl _⟩
  · exact ⟨hb, rfl, rfl, List.Subset.refl _⟩
  · change StillRunning s (s.writeCmd v)
    rw [writeCmd_busy hb]
    exact ⟨hb, rfl, rfl, List.Subset.refl _⟩

theorem mem_of_permittedWrite {off : Nat} (h : PermittedBusy true off) {r : Reg} (hr : regAt off = some r) :
    r ∈ [Reg.ctrl, .status, .cmd] := by
  rcases h with rfl | rfl | rfl | ⟨-, h⟩
  · cases hr; decide
  · cases hr; decide
  · cases hr; decide
  · cases h

/-- A quiet turn of the host leaves the running command running. -/
theorem stillRunning_hostTurn {s : State} (hb : s.busy = true) (hq : ∀ op ∈ s.host, Quiet op) :
    ∃ t, hostTurn s = .next t ∧ StillRunning s t := by
  cases hh : s.host with
  | nil => exact ⟨s, hostTurn_nil hh, hb, rfl, rfl, List.Subset.refl _⟩
  | cons op rest =>
    have hsub : rest ⊆ s.host := hh ▸ List.subset_cons_self op rest
    have hop : Quiet op := hq op (hh ▸ List.mem_cons_self)
    cases op with
    | idle => exact ⟨_, hostTurn_idle hh, hb, rfl, rfl, hsub⟩
    | wait => exact ⟨_, hostTurn_wait_running hb hh, hb, rfl, rfl, List.Subset.refl _⟩
    | read off size =>
      rw [hostTurn_read hh]
      by_cases ha : Accessible off.toNat size
      · exact ⟨_, busRead_performed (admitted_iff.2 ha) (.inr (allowedBusy_iff.2 (hop ha))), hb, rfl, rfl, hsub⟩
      · exact ⟨_, busRead_error _ ha, hb, rfl, rfl, hsub⟩
    | write off size v =>
      rw [hostTurn_write hh]
      by_cases ha : Accessible off.toNat size
      · obtain ⟨hperm, hnoreset⟩ := hop ha
        obtain ⟨-, -, running⟩ := accessesAreErrorsHazardsOrPerformed { s with host := rest } off size v
        obtain ⟨-, -, -, performed⟩ := running ha hb
        obtain ⟨r, hr, hw⟩ := performed hperm
        have hv : r = .ctrl → (v.setWidth 32).getLsbD 0 = false := by
          rintro rfl
          rw [word_of_bus_bit v (by decide)]
          exact Bool.eq_false_iff.2 fun h => hnoreset ⟨eq_offset_of_regAt hr, h⟩
        have hreg := mem_of_permittedWrite hperm hr
        obtain ⟨busy, cmd, wait, host⟩ := stillRunning_writeReg (s := { s with host := rest }) hb hreg hv
        exact ⟨_, hw, busy, cmd, wait, List.Subset.trans host hsub⟩
      · exact ⟨_, busWrite_error _ v ha, hb, rfl, rfl, hsub⟩

/-- Settles O56, by induction on the turns that are left. -/
theorem acceptedCommandsComplete : Obligations.AcceptedCommandsComplete := by
  intro s hb hq
  induction hw : s.wait generalizing s with
  | zero =>
    obtain ⟨t, ht, e⟩ := runCommand_ends s
    exact ⟨t, runFor_next ((turn_command hb hw).trans ht), e.busy, e.flag, e.cmd⟩
  | succ n ih =>
    obtain ⟨u, hu, running⟩ := stillRunning_hostTurn (s := { s with wait := s.wait - 1 }) hb hq
    have hstep : step s = .next u := (turn_waiting hb (by omega)).trans hu
    have hwait : u.wait = n := running.wait.trans (Nat.sub_eq_of_eq_add hw)
    obtain ⟨t, ht, busy, flag, cmd⟩ := ih u running.busy (fun op hop => hq op (running.host hop)) hwait
    exact ⟨t, (runFor_next hstep).trans ht, busy, flag, cmd.trans running.cmd⟩

end Sys2Proof.Machine
end

section
/-! PROOF. A host that waits for BUSY = 0 after each write of CMD (spec/70_reset_and_hazards.md R180, R187). -/

namespace Sys2Proof.Machine

/-- A host that may go on while a command runs may go on in an idle engine. -/
theorem waitsForEach_of_running {l : List HostOp} (h : waitsForEach true l = true) (b : Bool) : waitsForEach b l = true := by
  induction l with
  | nil => rfl
  | cons op l ih =>
    cases op with
    | idle => exact ih h
    | wait => exact h
    | read | write => cases h

/-! A write in an idle engine. -/

theorem writeReg_host (s : State) (r : Reg) (v : Word) : (s.writeReg r v).host = s.host := by
  cases r with
  | ctrl => simp only [State.writeReg, State.writeCtrl]; split <;> rfl
  | cmd => simp only [State.writeReg, State.writeCmd]; split <;> rfl
  | _ => rfl

/-- Only a write of CMD starts a command. -/
theorem writeReg_busy {s : State} (hb : s.busy = false) {r : Reg} (hr : r ≠ .cmd) (v : Word) : (s.writeReg r v).busy = false := by
  cases r with
  | cmd => exact absurd rfl hr
  | ctrl => simp only [State.writeReg, State.writeCtrl]; split <;> [rfl; exact hb]
  | _ => exact hb

/-- No write to an idle engine is dropped (R180). -/
theorem writeReg_ovr {s : State} (hb : s.busy = false) (ho : s.ovr = false) (r : Reg) (v : Word) :
    (s.writeReg r v).ovr = false := by
  cases r with
  | cmd => exact (congrArg State.ovr (writeCmd_idle hb v)).trans ho
  | ctrl => simp only [State.writeReg, State.writeCtrl]; split <;> [rfl; exact ho]
  | status => simp [State.writeReg, ho]
  | _ => exact ho

/-- What a write does to an idle engine's flags and to the host: the queue stays, no write is dropped, and a command starts at
the offset of CMD alone. -/
structure IdleWrite (s t : State) (off : Nat) : Prop where
  host : t.host = s.host
  ovr : s.ovr = false → t.ovr = false
  busy : off ≠ 0x00C → t.busy = false

theorem idleWrite_busStore {s : State} (hb : s.busy = false) (off size : Nat) (v : BitVec 64) :
    IdleWrite s (s.busStore off size v) off := by
  unfold State.busStore
  split
  · cases hr : regAt off with
    | none => exact ⟨rfl, id, fun _ => hb⟩
    | some r =>
      have hcmd (hne : off ≠ 0x00C) : r ≠ .cmd := by rintro rfl; exact hne (eq_offset_of_regAt hr)
      exact ⟨writeReg_host s r _, fun ho => writeReg_ovr hb ho r _, fun hne => writeReg_busy hb (hcmd hne) _⟩
  · exact ⟨rfl, id, fun _ => hb⟩
  · exact ⟨rfl, id, fun _ => hb⟩
  · exact ⟨rfl, id, fun _ => hb⟩

theorem idleWrite_busWrite {s : State} (hb : s.busy = false) (off : Offset) (size : Nat) (v : BitVec 64) :
    ∃ t, s.busWrite off size v = .next t ∧ IdleWrite s t off.toNat := by
  by_cases ha : Accessible off.toNat size
  · obtain ⟨host, ovr, busy⟩ := idleWrite_busStore hb off.toNat size v
    exact ⟨_, busWrite_performed v (admitted_iff.2 ha) (.inl hb), host, ovr, busy⟩
  · exact ⟨_, busWrite_error s v ha, rfl, id, fun _ => hb⟩

/-! A step. -/

/-- The host waits after each write of CMD, the one before included if a command runs. -/
def Waits (s : State) : Prop := waitsForEach s.busy s.host = true

/-- The step is taken, the host goes on waiting, and no write is dropped. -/
def StepsOn (s : State) (o : Result) : Prop := ∃ t, o = .next t ∧ Waits t ∧ (s.ovr = false → t.ovr = false)

theorem stepsOn_hostTurn {s : State} (h : Waits s) : StepsOn s (hostTurn s) := by
  unfold Waits at h
  cases hh : s.host with
  | nil => exact ⟨s, hostTurn_nil hh, h, id⟩
  | cons op rest =>
    rw [hh] at h
    cases op with
    | idle => exact ⟨_, hostTurn_idle hh, h, id⟩
    | wait =>
      cases hb : s.busy with
      | false => exact ⟨_, hostTurn_wait_over hb hh, (congrArg (waitsForEach · rest) hb).trans h, id⟩
      | true => exact ⟨_, hostTurn_wait_running hb hh, (congrArg (waitsForEach s.busy) hh).trans h, id⟩
    | read off size =>
      obtain ⟨hb, hrest⟩ : s.busy = false ∧ waitsForEach false rest = true := by simpa [waitsForEach] using h
      rw [hostTurn_read hh]
      have hw : waitsForEach s.busy rest = true := hb ▸ hrest
      by_cases ha : Accessible off.toNat size
      · exact ⟨_, busRead_performed (admitted_iff.2 ha) (.inl hb), hw, id⟩
      · exact ⟨_, busRead_error _ ha, hw, id⟩
    | write off size v =>
      obtain ⟨hb, hrest⟩ : s.busy = false ∧ waitsForEach (off == 0x00C#24) rest = true := by simpa [waitsForEach] using h
      rw [hostTurn_write hh]
      obtain ⟨t, ht, host, ovr, busy⟩ := idleWrite_busWrite (s := { s with host := rest }) hb off size v
      refine ⟨t, ht, ?_, ovr⟩
      rw [Waits, host]
      by_cases hcmd : off = 0x00C#24
      · subst hcmd
        exact waitsForEach_of_running hrest _
      · rw [busy fun h => hcmd (BitVec.eq_of_toNat_eq h)]
        rwa [beq_eq_false_iff_ne.2 hcmd] at hrest

theorem stepsOn_step {s : State} (h : Waits s) : StepsOn s (step s) := by
  cases hb : s.busy with
  | false => rw [step_eq_turn, turn_idle hb]; exact stepsOn_hostTurn h
  | true =>
    by_cases hw : s.wait = 0
    · obtain ⟨t, ht, e⟩ := runCommand_ends s
      have hrun : waitsForEach true s.host = true := (congrArg (waitsForEach · s.host) hb).symm.trans h
      refine ⟨t, (turn_command hb hw).trans ht, ?_, fun ho => e.ovr.trans ho⟩
      rw [Waits, e.host]
      exact waitsForEach_of_running hrun _
    · rw [step_eq_turn, turn_waiting hb hw]
      exact stepsOn_hostTurn (s := { s with wait := s.wait - 1 }) h

theorem stepsOn_runFor (k : Nat) {s : State} (h : Waits s) : StepsOn s (runFor k s) := by
  induction k generalizing s with
  | zero => exact ⟨s, runFor_zero s, h, id⟩
  | succ k ih =>
    obtain ⟨u, hu, hwu, hou⟩ := stepsOn_step h
    obtain ⟨t, ht, hwt, hot⟩ := ih hwu
    exact ⟨t, (runFor_next hu).trans ht, hwt, hot ∘ hou⟩

/-- Settles O57: every step of a host that waits has a next state, in which the host still waits. -/
theorem waitingHostMeetsNoHazard : Obligations.WaitingHostMeetsNoHazard := by
  intro s k h
  obtain ⟨t, ht, -, ho⟩ := stepsOn_runFor k (s := s) h
  refine ⟨fun off hf => ?_, fun t' hovr ht' => ?_⟩
  · cases ht.symm.trans hf
  · cases ht.symm.trans ht'
    exact ho hovr

end Sys2Proof.Machine
end
